-- ==== Sys2Proof/Word.lean ====
section
/-! DEFINITION. The word types of the block: the byte, and the one memory it reads (spec/20_memory.md R60, R61).

The block has no registers of a machine word, no signed value and no wide access (R69, R180), so the byte is its
only data word.  The scanline operand of a TRANSFER is the only byte-addressed space it reads; it is kept as a list
of cells in one canonical form (see `Memory.wf`). -/

namespace Sys2Proof

/-- An 8-bit unsigned value: a command byte, a pixel, a waveform byte, a two-wire register or value (R11). -/
abbrev Byte := BitVec 8

/-- The scanline operand: its non-zero bytes by index, indices rising.  An index that is not listed holds 0x00
(assumption 12: a spelling of the vector, not a reset value). -/
abbrev Memory := List Host.Cell

end Sys2Proof
end

