-- ==== Sys2Proof/Machine/Memory.lean ====
section
/-! DEFINITION. The operations on the scanline operand (spec/20_memory.md R60 to R62).  The block only reads it;
`ofBytes` and `toBytes` pass between the host's WIDTH bytes in index order and the canonical list of cells. -/

namespace Sys2Proof

/-- The byte at index `i`; an index that is not listed holds 0x00. -/
def Memory.read : Memory → Nat → Byte
  | [], _ => 0
  | (a, b) :: m, i => if a = i then b else Memory.read m i

/-- The cells of a run of bytes whose first stands at index `start`. -/
def Memory.ofBytesFrom (start : Nat) : List Byte → Memory
  | [] => []
  | b :: bs => if b = 0 then Memory.ofBytesFrom (start + 1) bs
               else (start, b) :: Memory.ofBytesFrom (start + 1) bs

/-- The operand that holds the given bytes from index 0 on. -/
def Memory.ofBytes (bs : List Byte) : Memory := Memory.ofBytesFrom 0 bs

/-- The `n` bytes of the operand from index `start` on, in index order. -/
def Memory.bytesFrom (m : Memory) (start : Nat) : Nat → List Byte
  | 0 => []
  | n + 1 => m.read start :: m.bytesFrom (start + 1) n

/-- The first `width` bytes of the operand in index order. -/
def Memory.toBytes (m : Memory) (width : Nat) : List Byte := m.bytesFrom 0 width

/-- MemRead(i, 1) of R61: byte `i` of an operand of `width` bytes.  `none`: the operand has no such byte (R61 says
that the micro-program never asks for one). -/
def Memory.memRead (m : Memory) (width i : Nat) : Option Byte :=
  if i < width then some (m.read i) else none

end Sys2Proof
end

