-- ==== Sys2Proof/Syntax.lean ====
section
/-! DEFINITION. The six host commands (spec/30_encoding.md R85; spec/opcode_table.json), the assembler lines of R89,
and the command port's words.  Syntax only: what a command does is in Machine/. -/

namespace Sys2Proof

/-- The instructions of the block: one constructor per row of spec/opcode_table.json.  `xfer` and `xferE` carry the
scanline operand (R62, R82, R89); the other four carry none. -/
inductive Instr where
  | enable                  -- ENABLE, 0x01
  | beginFrame              -- BEGIN, 0x02
  | xfer (buf : Memory)     -- XFER buf, 0x03
  | xferE (buf : Memory)    -- XFER.E buf, 0x0B
  | endFrame                -- END, 0x04
  | disable                 -- DISABLE, 0x05
deriving DecidableEq, Repr

/-- A command as the port carries it: the command byte (R81) and the host's pixel buffer, which the block reads
through `px_addr`/`px_data` when the command is a TRANSFER (R82).  The block latches one as `cmd` (R36, R83). -/
structure Command where
  byte : Byte
  buf  : Memory
deriving DecidableEq, Repr

/-- One line of the assembler syntax of R89, pseudo-instructions included.  `rep n l` is `REP n, l`. -/
inductive AsmLine where
  | instr (i : Instr)
  | comment (text : String)
  | clearRow (buf : Memory)
  | frame (rows : List Memory)
  | eraseFrame (buf : Memory)
  | rep (n : Nat) (line : AsmLine)
deriving DecidableEq, Repr

end Sys2Proof
end

