-- ==== Sys2Proof/Decode.lean ====
section
/-! DEFINITION. The command byte: decoding, total on every byte and rejecting by name (spec/30_encoding.md R81, R85,
R86, R88), then the encoder, from the same table. -/

namespace Sys2Proof

/-- Why bytes are no instruction.  The first three are R86's reasons for an illegal command byte; the last two are
about a command written out with its operand (`decode`). -/
inductive DecodeError where
  /-- `c[7:4] ≠ 0` (R86). -/
  | reservedBits
  /-- `op` is 0b000, 0b110 or 0b111 (R86). -/
  | unusedOp
  /-- `E = 1` with `op ≠ 0b011` (R86). -/
  | eraseWithoutTransfer
  /-- No command byte. -/
  | noByte
  /-- A TRANSFER without exactly WIDTH operand bytes, or another command with any (R62, R82). -/
  | operandLength
deriving DecidableEq, Repr

/-- `op`, bits 2:0 of the command byte (R81). -/
def opField (c : Byte) : BitVec 3 := c.extractLsb' 0 3

/-- `E`, bit 3 of the command byte (R81). -/
def eraseField (c : Byte) : Bool := c.getLsbD 3

/-- `rsv`, bits 7:4 of the command byte (R81). -/
def rsvField (c : Byte) : BitVec 4 := c.extractLsb' 4 4

/-- The opcode map of R85 and the illegal bytes of R86.  `buf` is the operand port's buffer, which only a TRANSFER
takes up (R82). -/
def decodeByte (c : Byte) (buf : Memory) : Except DecodeError Instr :=
  if rsvField c ≠ 0 then .error .reservedBits
  else match (opField c).toNat, eraseField c with
    | 1, false => .ok .enable
    | 2, false => .ok .beginFrame
    | 3, false => .ok (.xfer buf)
    | 3, true  => .ok (.xferE buf)
    | 4, false => .ok .endFrame
    | 5, false => .ok .disable
    | 1, true | 2, true | 4, true | 5, true => .error .eraseWithoutTransfer
    | _, _ => .error .unusedOp

/-- How many operand bytes follow the command byte: WIDTH for a TRANSFER, none otherwise (R62, R82, R88). -/
def operandLength (width : Nat) : Instr → Nat
  | .enable => 0
  | .beginFrame => 0
  | .xfer _ => width
  | .xferE _ => width
  | .endFrame => 0
  | .disable => 0

/-- A command written out as bytes: the command byte, then the operand bytes in index order (assumption 13). -/
def decode (width : Nat) : List Byte → Except DecodeError Instr
  | [] => .error .noByte
  | c :: px =>
    match decodeByte c (Memory.ofBytes px) with
    | .error e => .error e
    | .ok i => if px.length = operandLength width i then .ok i else .error .operandLength

/-- The instruction of one row of spec/opcode_table.json: the first byte is the command byte, and the operand words,
which the table gives no bits, are zeros. -/
def decodeTableWord (nbits w : Nat) : Option Instr :=
  match decodeByte (BitVec.ofNat 8 (w % 2 ^ nbits)) [] with
  | .ok i => some i
  | .error _ => none

/-- The command byte of an instruction (R85): `{rsv = 0, E, op}`. -/
def encodeByte : Instr → Byte
  | .enable => 0b00000001#8
  | .beginFrame => 0b00000010#8
  | .xfer _ => 0b00000011#8
  | .xferE _ => 0b00001011#8
  | .endFrame => 0b00000100#8
  | .disable => 0b00000101#8

/-- The operand of an instruction; a command without one has the empty operand. -/
def Instr.operand : Instr → Memory
  | .enable => []
  | .beginFrame => []
  | .xfer buf => buf
  | .xferE buf => buf
  | .endFrame => []
  | .disable => []

/-- The bytes of an instruction: what `decode` reads back. -/
def encode (width : Nat) (i : Instr) : List Byte :=
  encodeByte i :: i.operand.toBytes (operandLength width i)

/-- The command the host puts on the port for an instruction. -/
def Instr.command (i : Instr) : Command := { byte := encodeByte i, buf := i.operand }

end Sys2Proof
end

