-- ==== Sys2Proof/Config.lean ====
section
/-! DEFINITION. The configuration of the block (spec/00_scope.md R9, R10; spec/10_state.md R30, R31) and the model's
free values.  A configuration is fixed when the block is built and no command changes it. -/

namespace Sys2Proof

/-- What a NACK does (R9, spec/92_eei_decisions.md D16): `fault` is the default, `ignore` the source's current
behaviour. -/
inductive NackPolicy where
  | fault
  | ignore
deriving DecidableEq, Repr

/-- The acknowledge bit of a two-wire write (R146). -/
inductive Ack where
  | ack
  | nack
deriving DecidableEq, Repr

/-- PIN_MAP: the GPIO numbers of the 11 roles (R31).  `d0` is the base of the 8 data lines. -/
structure PinMap where
  spv    : Nat
  ckv    : Nat
  mode   : Nat
  stl    : Nat
  oe     : Nat
  le     : Nat
  cl     : Nat
  d0     : Nat
  sda    : Nat
  scl    : Nat
  wakeup : Nat
deriving DecidableEq, Repr

/-- The 18 GPIO numbers a map names (R31). -/
def PinMap.gpios (m : PinMap) : List Nat :=
  [m.spv, m.ckv, m.mode, m.stl, m.oe, m.le, m.cl,
   m.d0, m.d0 + 1, m.d0 + 2, m.d0 + 3, m.d0 + 4, m.d0 + 5, m.d0 + 6, m.d0 + 7,
   m.sda, m.scl, m.wakeup]

/-- No number of a list occurs twice. -/
def allDistinct : List Nat → Bool
  | [] => true
  | n :: ns => !ns.contains n && allDistinct ns

/-- A PIN_MAP is valid when its 18 GPIO numbers are pairwise distinct and below GPIO_COUNT (R31). -/
def PinMap.valid (m : PinMap) (gpioCount : Nat) : Bool :=
  m.gpios.all (· < gpioCount) && allDistinct m.gpios

/-- The parameters of R9 that a configuration chooses.  Times are in microseconds, as rationals, because the
source puts T_CKV_LOW and T_SYNC below one microsecond (assumption 5). -/
structure Params where
  width         : Nat
  height        : Nat
  lut           : Vector (BitVec 8) 16
  tCkvLow       : Rat
  tSync         : Rat
  nackPolicy    : NackPolicy
  rowCountCheck : Bool
  pinMap        : PinMap
  gpioCount     : Nat
deriving DecidableEq, Repr

/-- R10: when a configuration is well-formed.  (Each LUT entry is in 0..255 by its type.) -/
def Params.wf (p : Params) : Bool :=
  p.width % 4 == 0 && decide (4 ≤ p.width) && decide (1 ≤ p.height) && decide (p.height ≤ 1023) &&
  decide (0 < p.tCkvLow) && decide (0 < p.tSync) && p.pinMap.valid p.gpioCount

/-- A well-formed configuration: R10, "A model refuses any other configuration", so none can be built. -/
structure Config extends Params where
  ok : toParams.wf = true
deriving DecidableEq, Repr

/-- Building the block with given parameters: refused (`none`) unless they are well-formed (R10, U8). -/
def Config.build (p : Params) : Option Config :=
  if h : p.wf = true then some { toParams := p, ok := h } else none

/-- GROUPS = WIDTH/4 (R9): the waveform bytes of one row. -/
def Config.groups (c : Config) : Nat := c.width / 4

/-! ## Free values

Nothing in Lean knows what these constants are, so a theorem about them holds whatever they are. -/

/-- FREE VALUE (assumption 4).  Numerator and denominator of the OPEN times T_CKV_LOW (index 0) and T_SYNC (index 1). -/
opaque Config.freeNum : Nat → Nat
opaque Config.freeDen : Nat → Nat

/-- FREE VALUE (assumption 4).  An OPEN time: any rational above 0 is one of these, and R10 asks for no more. -/
def Config.freeDelay (k : Nat) : Rat := (Config.freeNum k + 1 : Rat) / (Config.freeDen k + 1 : Rat)

theorem Config.freeDelay_pos (k : Nat) : 0 < Config.freeDelay k := by
  unfold Config.freeDelay
  positivity

/-- FREE VALUE (assumption 8).  What the two-wire master reports at the n-th poll for which the state lists no
report: `none` is tw_done = 0, `some a` is tw_done = 1 with acknowledge bit `a`, drawn "under no law" (R146). -/
opaque Config.freeReport : Nat → Option Ack

end Sys2Proof
end

