-- ==== Sys2Proof/Machine/Defaults.lean ====
section
/-! DEFINITION. The literal values of the source (spec/00_scope.md R6, R9; spec/30_encoding.md R93) and the default
configuration. -/

namespace Sys2Proof.Machine

/-- TW_ADDR: the PMIC's 7-bit two-wire address (R9, R72). -/
def twAddr : BitVec 7 := 0x68#7
/-- TW_REG: the one register the block writes (R9). -/
def twReg : BitVec 8 := 0x01#8

/-- V_EN_VDD (R93). -/
def vEnVdd : BitVec 8 := 0x20#8
/-- V_EN_AUX (R93). -/
def vEnAux : BitVec 8 := 0xA0#8
/-- V_EN_VCOM (R93). -/
def vEnVcom : BitVec 8 := 0x3F#8
/-- V_DIS_VCOM (R93). -/
def vDisVcom : BitVec 8 := 0x2F#8
/-- V_DIS_AUX (R93). -/
def vDisAux : BitVec 8 := 0x60#8
/-- V_DIS_ALL (R93). -/
def vDisAll : BitVec 8 := 0x00#8

/-- T_WAKE, a minimum in microseconds (R9, R143). -/
def tWake : Rat := 5000
/-- T_VDD (R9). -/
def tVdd : Rat := 1000
/-- T_AUX_UP (R9). -/
def tAuxUp : Rat := 25000
/-- T_VCOM_UP (R9). -/
def tVcomUp : Rat := 1000
/-- T_VCOM_DN (R9). -/
def tVcomDn : Rat := 1000
/-- T_AUX_DN (R9). -/
def tAuxDn : Rat := 25000

/-- The default WAVEFORM_LUT: the table of R104. -/
def defaultLut : Vector (BitVec 8) 16 :=
  #v[0x55#8, 0x57#8, 0x5D#8, 0x5F#8, 0x75#8, 0x77#8, 0x7D#8, 0x7F#8,
     0xD5#8, 0xD7#8, 0xDD#8, 0xDF#8, 0xF5#8, 0xF7#8, 0xFD#8, 0xFF#8]

/-- DESIGN CHOICE (assumption 3).  PIN_MAP is OPEN and no rule reads a GPIO number (R31): one valid map, so that a
configuration exists. -/
def defaultPinMap : PinMap :=
  { spv := 0, ckv := 1, mode := 2, stl := 3, oe := 4, le := 5, cl := 6, d0 := 7, sda := 15, scl := 16, wakeup := 17 }

/-- The parameters of conforming hardware: WIDTH 1024, HEIGHT 758 and the defaults of R9; the OPEN times are free
values (assumption 4), the pin numbers the model's (assumption 3). -/
def defaultParams : Params :=
  { width := 1024, height := 758, lut := defaultLut,
    tCkvLow := Config.freeDelay 0, tSync := Config.freeDelay 1,
    nackPolicy := .fault, rowCountCheck := true, pinMap := defaultPinMap, gpioCount := 18 }

theorem defaultParams_wf : defaultParams.wf = true := by
  have h0 := Config.freeDelay_pos 0
  have h1 := Config.freeDelay_pos 1
  have hp : defaultPinMap.valid 18 = true := by decide
  simp [Params.wf, defaultParams, h0, h1, hp]

/-- The default configuration of R9. -/
def defaultConfig : Config := { toParams := defaultParams, ok := defaultParams_wf }

end Sys2Proof.Machine
end

