-- ==== Sys2Proof/Machine/State.lean ====
section
/-! DEFINITION. The state of the block (spec/10_state.md R33 to R47), the events it emits (spec/30_encoding.md R90)
and the reset state (R47, R231). -/

namespace Sys2Proof.Machine

/-! ## Lines -/

/-- The discrete lines the block drives (R32, R34).  The eight data lines are the group DATA, held apart (R35). -/
inductive Line where
  | spv | ckv | mode | stl | oe | le | cl | wakeup
deriving DecidableEq, Repr

/-- `dir[P]` (R34): `input` is high impedance. -/
inductive Dir where
  | input
  | output
deriving DecidableEq, Repr

/-- One discrete line: its direction and the level it drives when it is an output (R34).  `true` is 1 (R14). -/
structure Pad where
  dir   : Dir
  level : Bool
deriving DecidableEq, Repr

/-- The eight discrete lines. -/
structure Lines where
  spv    : Pad
  ckv    : Pad
  mode   : Pad
  stl    : Pad
  oe     : Pad
  le     : Pad
  cl     : Pad
  wakeup : Pad
deriving DecidableEq, Repr

/-- The DATA group: one direction for all eight lines and the byte they drive, line D_i carrying bit i (R35, R66). -/
structure Bus where
  dir  : Dir
  byte : Byte
deriving DecidableEq, Repr

/-! ## Control state -/

/-- The lifecycle state (R37).  Codes 6 and 7 are never held, so they are no constructors. -/
inductive Life where
  | unpowered
  | poweringUp
  | poweredIdle
  | frameActive
  | poweringDown
  | faulted
deriving DecidableEq, Repr

/-- The response status (R39, R84).  Codes 5 and 6 are never produced, so they are no constructors; `none` is held
after reset only. -/
inductive Status where
  | ok
  | protocolViolation
  | rowCountMismatch
  | busTransactionFailure
  | illegalCommand
  | none
deriving DecidableEq, Repr

/-! ## Events -/

/-- What `CFG` makes of a line: high impedance, or an output at a value, with no level between (R90). -/
inductive Drive (α : Type) where
  | input
  | out (v : α)
deriving DecidableEq, Repr

/-- The event alphabet of R90. -/
inductive Event where
  /-- `CFG(P, …)` for a discrete line. -/
  | cfg (p : Line) (d : Drive Bool)
  /-- `CFG(DATA, …)`: the eight data lines in one event (R70). -/
  | cfgData (d : Drive Byte)
  /-- `SET(P, v)`. -/
  | set (p : Line) (v : Bool)
  /-- `DATA(b)`: the eight data lines change together (R70). -/
  | data (b : Byte)
  /-- `WAIT(t)`: at least `t` microseconds pass before the next event (R13). -/
  | wait (t : Rat)
  /-- `TW(reg, val, a)`: one two-wire write to device 0x68. -/
  | tw (reg val : Byte) (a : Ack)
  /-- `RSP(s)`: the response to the host. -/
  | rsp (s : Status)
deriving DecidableEq, Repr

/-! ## How a step can stop -/

/-- Faults.  No state that the block can reach raises one (stated as an obligation); they exist because `State` also
holds values that no run reaches. -/
inductive Fault where
  /-- Raised by a meaning whose `seq` lies beyond its micro-program.  R36: "`seq` never jumps backwards and never
  wraps", so it cannot happen.  Safe: the model stops. -/
  | noSuchStep
  /-- Raised by a TRANSFER that would read a scanline index at or above WIDTH.  R61: "never occurs".  Safe: the model
  stops. -/
  | noSuchPixel
deriving DecidableEq, Repr

/-- Refusals. -/
inductive Refusal where
  /-- Raised by an arm of `exec` whose instruction has no meaning yet; no arm does.  Safe: the model stops. -/
  | notModelled (mnemonic : String)
  /-- Raised by the acceptance of a command whose buffer is no vector of exactly WIDTH bytes.  R62: such an operand
  "cannot be spelled", so the hardware has no behaviour for it.  Safe: the model stops. -/
  | operandNotScanline
deriving DecidableEq, Repr

/-! ## The state -/

/-- The state of the block, and the inputs its agents have yet to give it (R212).  The last five fields are no state
of the block: `trace` is the observation (R46), which no rule reads, and the others are the model's own inputs.
`cfg` is the configuration, which R30 passes to the step relation as a parameter: no step changes it. -/
structure State where
  /-- The configuration of R9, read-only (R30; assumption 2). -/
  cfg    : Config
  /-- `dir[P]` and `pin[P]` of the discrete lines (R34). -/
  lines  : Lines
  /-- `dir[DATA]` and `data[7:0]` (R35). -/
  bus    : Bus
  /-- `busy` (R36). -/
  busy   : Bool
  /-- `cmd`: the accepted command and its scanline operand (R36). -/
  cmd    : Command
  /-- `seq`: the index into the micro-program of `cmd`, the block's program counter (R36; assumption 9). -/
  seq    : Nat
  /-- `life` (R37). -/
  life   : Life
  /-- `rows`: TRANSFERs completed since the last BEGIN (R38). -/
  rows   : BitVec 10
  /-- `status`: the last response (R39). -/
  status : Status
  /-- `nack`: a two-wire write of this command was not acknowledged (R40). -/
  nack   : Bool
  /-- The trace: every event since reset, the first one first (R46). -/
  trace  : List Event
  /-- The host's commands to come, the next one first; each stands until it is accepted (R83, R240; assumption 6). -/
  host   : List Command
  /-- The `rst` input at the steps to come; beyond the list it is 0 (assumption 7). -/
  rstIn  : List Bool
  /-- The two-wire master's reports at the polls to come: `none` is tw_done = 0; beyond the list a report is a free
  value (R146; assumption 8). -/
  twIn   : List (Option Ack)
  /-- Polls of the two-wire master so far: the model's own counter, which picks the free value (assumption 8). -/
  draws  : Nat
deriving DecidableEq, Repr

/-- A line in the high-impedance state, its level latch at the model's reset value (R47; DESIGN CHOICE, assumption
10: the spec leaves the level unspecified and unobservable). -/
def Pad.reset : Pad := { dir := .input, level := false }

/-- R47: every discrete line is high impedance. -/
def Lines.reset : Lines :=
  { spv := Pad.reset, ckv := Pad.reset, mode := Pad.reset, stl := Pad.reset,
    oe := Pad.reset, le := Pad.reset, cl := Pad.reset, wakeup := Pad.reset }

/-- R47: the data lines are high impedance; the byte is DESIGN CHOICE (assumption 10). -/
def Bus.reset : Bus := { dir := .input, byte := 0x00#8 }

/-- `cmd` at reset: unspecified and unread while `busy = 0` (R47); DESIGN CHOICE (assumption 11). -/
def Command.reset : Command := { byte := 0x00#8, buf := [] }

/-- The state right after reset (R47, R231): unpowered, idle, no response given, every line high impedance, an empty
trace; no input is listed yet. -/
def State.reset : State :=
  { cfg := defaultConfig, lines := Lines.reset, bus := Bus.reset,
    busy := false, cmd := Command.reset, seq := 0,
    life := .unpowered, rows := 0#10, status := .none, nack := false,
    trace := [], host := [], rstIn := [], twIn := [], draws := 0 }

end Sys2Proof.Machine
end

