-- ==== Sys2Proof/Machine/Flags.lean ====
section
/-! DEFINITION. The control fields' computations: codes (spec/10_state.md R37, R39), views of `life` (R41), the row
counter (R38) and the guard of every command (spec/43_panel_controller.md R171). -/

namespace Sys2Proof.Machine

/-- The 3-bit code of a lifecycle state (R37). -/
def Life.code : Life → BitVec 3
  | .unpowered => 0#3
  | .poweringUp => 1#3
  | .poweredIdle => 2#3
  | .frameActive => 3#3
  | .poweringDown => 4#3
  | .faulted => 5#3

/-- The 3-bit code of a status (R39, R84). -/
def Status.code : Status → BitVec 3
  | .ok => 0#3
  | .protocolViolation => 1#3
  | .rowCountMismatch => 2#3
  | .busTransactionFailure => 3#3
  | .illegalCommand => 4#3
  | .none => 7#3

/-- The source's PowerState (R41, R214). -/
inductive PowerState where
  | off | poweringUp | on | poweringDown
deriving DecidableEq, Repr

/-- The source's FrameState (R41). -/
inductive FrameState where
  | idle | active
deriving DecidableEq, Repr

/-- PowerState as a view of `life`; in `Faulted` it has no value, the rails being unknown to the block (R41). -/
def Life.powerState : Life → Option PowerState
  | .unpowered => some .off
  | .poweringUp => some .poweringUp
  | .poweredIdle => some .on
  | .frameActive => some .on
  | .poweringDown => some .poweringDown
  | .faulted => none

/-- FrameState as a view of `life` (R41). -/
def Life.frameState : Life → FrameState
  | .frameActive => .active
  | .unpowered => .idle
  | .poweringUp => .idle
  | .poweredIdle => .idle
  | .poweringDown => .idle
  | .faulted => .idle

/-- The row counter's step, `min(rows + 1, 1023)` on 10 bits: it saturates (R38, R180). -/
def nextRows (r : BitVec 10) : BitVec 10 := BitVec.ofNat 10 (min (r.toNat + 1) 1023)

/-- The lifecycle state a command needs (R171, check 2). -/
def neededLife : Instr → Life
  | .enable => .unpowered
  | .beginFrame => .poweredIdle
  | .xfer _ => .frameActive
  | .xferE _ => .frameActive
  | .endFrame => .frameActive
  | .disable => .poweredIdle

/-- The row-count condition that the guard refuses (R171, check 3), before ROW_COUNT_CHECK is looked at. -/
def wrongRows (i : Instr) (rows height : Nat) : Bool :=
  match i with
  | .enable => false
  | .beginFrame => false
  | .xfer _ => decide (height ≤ rows)
  | .xferE _ => decide (height ≤ rows)
  | .endFrame => decide (rows ≠ height)
  | .disable => false

/-- The guard of R171 for a legal command byte: the status it is refused with, or `none` when it is admitted.  (Check
1, the illegal byte, is made where the byte is decoded: see `illegal` in Ops.lean.) -/
def guardStatus (i : Instr) (s : State) : Option Status :=
  if s.life ≠ neededLife i then some .protocolViolation
  else if s.cfg.rowCountCheck && wrongRows i s.rows.toNat s.cfg.height then some .rowCountMismatch
  else none

/-- A NACK has been recorded and NACK_POLICY is `Fault` (R147's CHECK, R150's final action). -/
def State.nackFatal (s : State) : Bool := s.nack && decide (s.cfg.nackPolicy = .fault)

end Sys2Proof.Machine
end

