-- ==== Sys2Proof/WellFormed.lean ====
section
/-! DEFINITION. When an operand, an instruction and a command on the port are well-formed (spec/20_memory.md R62:
"exactly WIDTH bytes"; "an operand of another length cannot be spelled"). -/

namespace Sys2Proof

/-- Indices rise strictly from `lo` on and no cell holds the byte that an unlisted index reads as. -/
def Memory.risesFrom (lo : Nat) : Memory → Bool
  | [] => true
  | (a, b) :: m => decide (lo ≤ a) && b != 0 && Memory.risesFrom (a + 1) m

/-- The canonical form: two operands that read alike at every index are the same list. -/
def Memory.wf (m : Memory) : Bool := m.risesFrom 0

/-- The operand is a vector of exactly `width` bytes: canonical, with nothing at or above `width` (R62). -/
def Memory.fits (m : Memory) (width : Nat) : Bool := m.wf && m.all (fun c => decide (c.1 < width))

/-- A well-formed instruction for a panel `width` pixels wide: a TRANSFER's operand is a scanline of that width. -/
def Instr.wf (width : Nat) : Instr → Bool
  | .enable => true
  | .beginFrame => true
  | .xfer buf => buf.fits width
  | .xferE buf => buf.fits width
  | .endFrame => true
  | .disable => true

/-- A command the port can carry: any byte at all (R86 gives the illegal ones an outcome), with a buffer of exactly
`width` bytes. -/
def Command.wf (width : Nat) (c : Command) : Bool := c.buf.fits width

end Sys2Proof
end

