-- ==== Sys2Proof/Machine/Ops.lean ====
section
/-! DEFINITION. The named operations over the state: lines, events, responses, inputs; the frame every command
follows (spec/43_panel_controller.md R170), errors included (spec/60_exceptions.md R200 to R206: an error saves
nothing and redirects nothing, it is the response); acceptance and reset. -/

namespace Sys2Proof.Machine

/-! ## Lines and events -/

/-- One discrete line. -/
def Lines.get (l : Lines) : Line → Pad
  | .spv => l.spv
  | .ckv => l.ckv
  | .mode => l.mode
  | .stl => l.stl
  | .oe => l.oe
  | .le => l.le
  | .cl => l.cl
  | .wakeup => l.wakeup

/-- Write one discrete line. -/
def Lines.set (l : Lines) (p : Line) (x : Pad) : Lines :=
  match p with
  | .spv => { l with spv := x }
  | .ckv => { l with ckv := x }
  | .mode => { l with mode := x }
  | .stl => { l with stl := x }
  | .oe => { l with oe := x }
  | .le => { l with le := x }
  | .cl => { l with cl := x }
  | .wakeup => { l with wakeup := x }

/-- What a line drives: nothing when it is high impedance (R34). -/
def Pad.drive (x : Pad) : Option Bool :=
  match x.dir with
  | .input => none
  | .output => some x.level

/-- What the data lines drive (R35). -/
def Bus.drive (b : Bus) : Option Byte :=
  match b.dir with
  | .input => none
  | .output => some b.byte

/-- R91: an event's effect on the discrete lines. -/
def Event.onLines (e : Event) (l : Lines) : Lines :=
  match e with
  | .cfg p .input => l.set p { dir := .input, level := (l.get p).level }
  | .cfg p (.out v) => l.set p { dir := .output, level := v }
  | .set p v => l.set p { dir := (l.get p).dir, level := v }
  | .cfgData _ => l
  | .data _ => l
  | .wait _ => l
  | .tw _ _ _ => l
  | .rsp _ => l

/-- R91: an event's effect on the DATA group. -/
def Event.onBus (e : Event) (b : Bus) : Bus :=
  match e with
  | .cfgData .input => { dir := .input, byte := b.byte }
  | .cfgData (.out v) => { dir := .output, byte := v }
  | .data v => { dir := b.dir, byte := v }
  | .cfg _ _ => b
  | .set _ _ => b
  | .wait _ => b
  | .tw _ _ _ => b
  | .rsp _ => b

/-- `emit(e)` of R12: the event joins the trace and has its effect on the lines. -/
def State.emit (e : Event) (s : State) : State :=
  { s with lines := e.onLines s.lines, bus := e.onBus s.bus, trace := s.trace ++ [e] }

/-! ## Control fields -/

/-- `seq <- seq + 1` (R36, R170 case 3). -/
def State.advance (s : State) : State := { s with seq := s.seq + 1 }

/-- The first step of ENABLE and DISABLE: `life <- l` and `nack <- 0` (R40, R147, R150). -/
def State.enter (l : Life) (s : State) : State := { s with life := l, nack := false }

/-- The first NACK of a command sets `nack` (R40). -/
def State.noteAck (a : Ack) (s : State) : State := { s with nack := s.nack || decide (a = .nack) }

/-- `respond(st)` (R12, R84): emit `RSP(st)`, `status <- st`, `busy <- 0`.  `seq` stays (assumption 9).  DESIGN
CHOICE (assumption 26): `cmd` keeps the answered command and its operand; R36 gives it no meaning and U14 of
spec/93_implementation_defined.md any value while `busy = 0`, where nothing reads it (no storage of the row, R43). -/
def State.respond (st : Status) (s : State) : State :=
  { s.emit (.rsp st) with status := st, busy := false }

/-- The fields a completion step writes beside the response: `life` and `rows`. -/
def State.settle (l : Life) (r : BitVec 10) (s : State) : State := { s with life := l, rows := r }

/-! ## Inputs -/

/-- The two-wire master's report at this poll: listed, or else free (R146; assumption 8). -/
def State.twReport (s : State) : Option Ack :=
  match s.twIn with
  | [] => Config.freeReport s.draws
  | r :: _ => r

/-- One poll of the two-wire master has been made. -/
def State.poll (s : State) : State := { s with twIn := s.twIn.tail, draws := s.draws + 1 }

/-- `rst` at this step (R80). -/
def State.rst (s : State) : Bool := s.rstIn.headD false

/-- The sample of `rst` for this step has been taken. -/
def State.clock (s : State) : State := { s with rstIn := s.rstIn.tail }

/-! ## The micro-program step -/

/-- One step of a micro-program, as the pseudo-code of R121, R147, R150, R173, R174 and R175 writes it. -/
inductive Action where
  /-- `emit e`. -/
  | emit (e : Event)
  /-- `st.life <- l; st.nack <- 0; emit e`. -/
  | enter (l : Life) (e : Event)
  /-- `a <- TwoWireWrite(0x01, v); emit TW(0x01, v, a)`, and `nack <- 1` on a NACK. -/
  | write (v : Byte)
  /-- The completion step: `st.life <- l; st.rows <- r; respond(st)`. -/
  | finish (l : Life) (r : BitVec 10) (st : Status)
deriving DecidableEq, Repr

/-- Perform one micro-program step (R36, R170 cases 2 and 3).  A two-wire write whose transaction is not done leaves
the block where it is, with nothing emitted (R146: the step is not enabled; assumption 8). -/
def perform (a : Action) (s : State) : Host.Outcome State Fault Refusal :=
  match a with
  | .emit e => .next (s.emit e).advance
  | .enter l e => .next ((s.enter l).emit e).advance
  | .write v =>
    match s.twReport with
    | none => .next s.poll
    | some k => .next ((s.poll.noteAck k).emit (.tw twReg v k)).advance
  | .finish l r st => .next ((s.settle l r).respond st)

/-- The guard is evaluated at a command's first step only (R170 case 2, R171). -/
def refusalOf (i : Instr) (s : State) : Option Status :=
  if s.seq = 0 then guardStatus i s else none

/-- One step of command `i` whose micro-program step here is `act` (R170 cases 2 and 3): refused at the first step
if the guard says so (R201), performed otherwise. -/
def runCommand (i : Instr) (act : Except Fault Action) (s : State) : Host.Outcome State Fault Refusal :=
  match refusalOf i s with
  | some st => .next (s.respond st)
  | none =>
    match act with
    | .ok a => perform a s
    | .error f => .fault f

/-! ## Acceptance, illegal bytes, reset -/

/-- An illegal command byte: `RSP(IllegalCommand)` at the step after acceptance (R86, R171 check 1). -/
def illegal (s : State) : Host.Outcome State Fault Refusal := .next (s.respond .illegalCommand)

/-- Accept a command: latch `cmd`, `busy <- 1`, `seq <- 0`, nothing emitted (R83, R170 case 1). -/
def State.accept (c : Command) (rest : List Command) (s : State) : State :=
  { s with busy := true, cmd := c, seq := 0, host := rest }

/-- The idle case (R170 case 1).  With no command offered the block has no step of its own. -/
def idleStep (s : State) : Host.Outcome State Fault Refusal :=
  match s.host with
  | [] => .next s
  | c :: rest => if c.wf s.cfg.width then .next (s.accept c rest) else .refused .operandNotScanline

/-- The instruction that the latched command byte selects (R85), with the latched operand. -/
def State.fetch (s : State) : Except DecodeError Instr := decodeByte s.cmd.byte s.cmd.buf

/-- Reset at a step with `rst = 1` (R230): the reset state of R47, the configuration unchanged.  What the agents
outside will still do (host, responder, later `rst`) is no state of the block and stays. -/
def State.takeReset (s : State) : State :=
  { State.reset with cfg := s.cfg, host := s.host, rstIn := s.rstIn, twIn := s.twIn, draws := s.draws }

/-! ## The step relation -/

/-- One step of the block (R170), `run` being what performs a step of a command.  Reset comes before everything (R205);
an idle block accepts or has no step of its own; a busy block performs one step of its command, or answers an illegal
byte (R86). -/
def stepWith (run : Instr → State → Host.Outcome State Fault Refusal) (s : State) :
    Host.Outcome State Fault Refusal :=
  if s.rst then .next s.clock.takeReset
  else if s.busy then
    match s.fetch with
    | .ok i => run i s.clock
    | .error _ => illegal s.clock
  else idleStep s.clock

/-- `s` with the command of an opcode-table word just accepted (assumption 20): the byte latched with an operand of
zeros, `busy = 1`, `seq = 0`, and `rst = 0` at the next step, which is then the command's first. -/
def State.placeWord (s : State) (nbits w : Nat) : State :=
  { s with busy := true, cmd := { byte := BitVec.ofNat 8 (w % 2 ^ nbits), buf := [] }, seq := 0,
           rstIn := false :: s.rstIn }

end Sys2Proof.Machine
end

