-- ==== Sys2Proof/Machine/Frame.lean ====
section
/-! DEFINITION. BEGIN and END (spec/43_panel_controller.md R173, R175, R176). -/

namespace Sys2Proof.Machine

/-- BEGIN's micro-program (R173): OE, MODE, then the frame-sync pulse, SPV low across CKV's rising edge (R176). -/
def beginAction (s : State) : Except Fault Action :=
  match s.seq with
  | 0 => .ok (.emit (.set .oe true))
  | 1 => .ok (.emit (.set .mode true))
  | 2 => .ok (.emit (.set .spv false))
  | 3 => .ok (.emit (.set .ckv false))
  | 4 => .ok (.emit (.wait s.cfg.tSync))
  | 5 => .ok (.emit (.set .ckv true))
  | 6 => .ok (.emit (.set .spv true))
  | 7 => .ok (.finish .frameActive 0#10 .ok)
  | _ => .error .noSuchStep

/-- END's micro-program (R175). -/
def endAction (s : State) : Except Fault Action :=
  match s.seq with
  | 0 => .ok (.emit (.set .mode false))
  | 1 => .ok (.emit (.set .oe false))
  | 2 => .ok (.finish .poweredIdle s.rows .ok)
  | _ => .error .noSuchStep

/-- BEGIN (R173): one step of it. -/
def execBegin (s : State) : Host.Outcome State Fault Refusal := runCommand .beginFrame (beginAction s) s

/-- END (R175): one step of it. -/
def execEnd (s : State) : Host.Outcome State Fault Refusal := runCommand .endFrame (endAction s) s

end Sys2Proof.Machine
end

