-- ==== Sys2Proof/Machine/Power.lean ====
section
/-! DEFINITION. ENABLE and DISABLE (spec/42_power_sequencer.md R147, R148, R150, R151). -/

namespace Sys2Proof.Machine

/-- ENABLE's micro-program (R147) and its abort path (R148).  A NACK at seq 2, 4 or 6 under policy `Fault` is
followed, at the next seq, by `SET(WAKEUP, 0)` and then by the response; so on that path seq 3, 5 and 7 lower WAKEUP
and seq 4, 6 and 8 respond (assumption 14). -/
def enableAction (s : State) : Except Fault Action :=
  if s.nackFatal && (s.seq == 3 || s.seq == 5 || s.seq == 7) then .ok (.emit (.set .wakeup false))
  else if s.nackFatal && (s.seq == 4 || s.seq == 6 || s.seq == 8) then
    .ok (.finish .faulted s.rows .busTransactionFailure)
  else match s.seq with
    | 0 => .ok (.enter .poweringUp (.cfg .wakeup (.out true)))
    | 1 => .ok (.emit (.wait tWake))
    | 2 => .ok (.write vEnVdd)
    | 3 => .ok (.emit (.wait tVdd))
    | 4 => .ok (.write vEnAux)
    | 5 => .ok (.emit (.wait tAuxUp))
    | 6 => .ok (.write vEnVcom)
    | 7 => .ok (.emit (.wait tVcomUp))
    | 8 => .ok (.emit (.cfg .spv (.out true)))
    | 9 => .ok (.emit (.cfg .ckv (.out true)))
    | 10 => .ok (.emit (.cfg .mode (.out false)))
    | 11 => .ok (.emit (.cfg .stl (.out true)))
    | 12 => .ok (.emit (.cfg .oe (.out false)))
    | 13 => .ok (.emit (.cfg .le (.out false)))
    | 14 => .ok (.emit (.cfg .cl (.out false)))
    | 15 => .ok (.emit (.cfgData (.out 0x00#8)))
    | 16 => .ok (.finish .poweredIdle s.rows .ok)
    | _ => .error .noSuchStep

/-- DISABLE's micro-program (R150).  A NACK does not stop it (R151). -/
def disableAction (s : State) : Except Fault Action :=
  match s.seq with
  | 0 => .ok (.enter .poweringDown (.cfgData .input))
  | 1 => .ok (.emit (.cfg .cl .input))
  | 2 => .ok (.emit (.cfg .le .input))
  | 3 => .ok (.emit (.cfg .oe .input))
  | 4 => .ok (.emit (.cfg .stl .input))
  | 5 => .ok (.emit (.cfg .mode .input))
  | 6 => .ok (.emit (.cfg .ckv .input))
  | 7 => .ok (.emit (.cfg .spv .input))
  | 8 => .ok (.write vDisVcom)
  | 9 => .ok (.emit (.wait tVcomDn))
  | 10 => .ok (.write vDisAux)
  | 11 => .ok (.emit (.wait tAuxDn))
  | 12 => .ok (.write vDisAll)
  | 13 => .ok (.emit (.set .wakeup false))
  | 14 => if s.nackFatal then .ok (.finish .faulted s.rows .busTransactionFailure)
          else .ok (.finish .unpowered s.rows .ok)
  | _ => .error .noSuchStep

/-- ENABLE (R147): one step of it. -/
def execEnable (s : State) : Host.Outcome State Fault Refusal := runCommand .enable (enableAction s) s

/-- DISABLE (R150): one step of it. -/
def execDisable (s : State) : Host.Outcome State Fault Refusal := runCommand .disable (disableAction s) s

end Sys2Proof.Machine
end

