-- ==== Sys2Proof/Machine/Operands.lean ====
section
/-! DEFINITION. The operands of a TRANSFER and the PixelEncoder (spec/20_memory.md R61 to R64;
spec/40_pixel_encoder.md R100 to R107). -/

namespace Sys2Proof.Machine

/-- The pixel value of a scanline byte: bit 0, the others ignored (R63). -/
def pixelBit (b : Byte) : Bool := b.getLsbD 0

/-- The LUT index of a group: the first pixel is the most significant bit (R64). -/
def lutIndex (p0 p1 p2 p3 : Byte) : BitVec 4 :=
  BitVec.ofBool (pixelBit p0) ++ BitVec.ofBool (pixelBit p1) ++ BitVec.ofBool (pixelBit p2) ++
    BitVec.ofBool (pixelBit p3)

/-- `Lut(idx)`: entry `idx` of the LUT ROM (R12, R42). -/
def lutRead (lut : Vector Byte 16) (idx : BitVec 4) : Byte := lut[idx.toNat]'idx.isLt

/-- ENCODE: the waveform byte of one group; erasing gives 0xFF whatever the pixels (R101, R102). -/
def encodePixels (lut : Vector Byte 16) (p0 p1 p2 p3 : Byte) (erase : Bool) : Byte :=
  if erase then 0xFF#8 else lutRead lut (lutIndex p0 p1 p2 p3)

/-- The scanline indices of group `k`, in the order of their reads (R64, R121). -/
def groupIndices (k : Nat) : List Nat := [4 * k, 4 * k + 1, 4 * k + 2, 4 * k + 3]

/-- `w_k` of R121: the four reads of group `k`, then ENCODE.  `none`: a read outside the scanline. -/
def groupByte (c : Config) (buf : Memory) (erase : Bool) (k : Nat) : Option Byte :=
  match buf.memRead c.width (4 * k), buf.memRead c.width (4 * k + 1),
        buf.memRead c.width (4 * k + 2), buf.memRead c.width (4 * k + 3) with
  | some p0, some p1, some p2, some p3 => some (encodePixels c.lut p0 p1 p2 p3 erase)
  | _, _, _, _ => none

/-- The 2-bit field of pixel `j` in a waveform byte, `w[7-2j : 6-2j]` (R92, R107). -/
def waveField (w : Byte) (j : Nat) : BitVec 2 := w.extractLsb' (6 - 2 * j) 2

/-- `S(idx)` of R103: pixel j's bit at bit 7-2j. -/
def spreadIndex (idx : BitVec 4) : Byte :=
  (BitVec.ofBool (idx.getLsbD 3)).setWidth 8 <<< 7 ||| (BitVec.ofBool (idx.getLsbD 2)).setWidth 8 <<< 5 |||
    (BitVec.ofBool (idx.getLsbD 1)).setWidth 8 <<< 3 ||| (BitVec.ofBool (idx.getLsbD 0)).setWidth 8 <<< 1

end Sys2Proof.Machine
end

