-- ==== Sys2Proof/Machine/Transfer.lean ====
section
/-! DEFINITION. TRANSFER: XFER and XFER.E (spec/41_parallel_bus.md R121; spec/43_panel_controller.md R174). -/

namespace Sys2Proof.Machine

/-- The last nine steps of a row (R121 steps 3 to 6, R174's completion), numbered from 0. -/
def closingAction (s : State) : Nat → Except Fault Action
  | 0 => .ok (.emit (.set .stl true))
  | 1 => .ok (.emit (.set .cl true))
  | 2 => .ok (.emit (.set .cl false))
  | 3 => .ok (.emit (.set .le true))
  | 4 => .ok (.emit (.set .le false))
  | 5 => .ok (.emit (.set .ckv false))
  | 6 => .ok (.emit (.wait s.cfg.tCkvLow))
  | 7 => .ok (.emit (.set .ckv true))
  | 8 => .ok (.finish s.life (nextRows s.rows) .ok)
  | _ => .error .noSuchStep

/-- The three steps of group `k` (R121 step 2): the byte, then the bus clock up and down. -/
def groupAction (erase : Bool) (buf : Memory) (s : State) (k : Nat) : Nat → Except Fault Action
  | 0 => match groupByte s.cfg buf erase k with
    | some w => .ok (.emit (.data w))
    | none => .error .noSuchPixel
  | 1 => .ok (.emit (.set .cl true))
  | _ => .ok (.emit (.set .cl false))

/-- The row's micro-program (R121, R174) with `G = s.cfg.groups`. -/
def rowAction (erase : Bool) (buf : Memory) (s : State) : Except Fault Action :=
  if s.seq = 0 then .ok (.emit (.set .stl false))
  else if s.seq ≤ 3 * s.cfg.groups then groupAction erase buf s ((s.seq - 1) / 3) ((s.seq - 1) % 3)
  else closingAction s (s.seq - (3 * s.cfg.groups + 1))

/-- XFER (R174, E = 0): one step of it. -/
def execXfer (buf : Memory) (s : State) : Host.Outcome State Fault Refusal :=
  runCommand (.xfer buf) (rowAction false buf s) s

/-- XFER.E (R174, E = 1): one step of it. -/
def execXferE (buf : Memory) (s : State) : Host.Outcome State Fault Refusal :=
  runCommand (.xferE buf) (rowAction true buf s) s

end Sys2Proof.Machine
end

