-- ==== Sys2Proof/Machine/Dispatch.lean ====
section
/-! DEFINITION. `exec`: one arm per command.  It performs ONE step of the command (R170: "Each step is one case"), the
one that `seq` numbers. -/

namespace Sys2Proof.Machine

def exec (i : Instr) (s : State) : Host.Outcome State Fault Refusal :=
  match i with
  | .enable => Sys2Proof.Machine.execEnable s
  | .beginFrame => Sys2Proof.Machine.execBegin s
  | .xfer buf => Sys2Proof.Machine.execXfer buf s
  | .xferE buf => Sys2Proof.Machine.execXferE buf s
  | .endFrame => Sys2Proof.Machine.execEnd s
  | .disable => Sys2Proof.Machine.execDisable s

end Sys2Proof.Machine
end

