-- ==== Sys2Proof/Machine/Step.lean ====
section
/-! DEFINITION. The step relation of spec/43_panel_controller.md R170 as a function, and where a test word is put.  Both
only call what Ops.lean defines. -/

namespace Sys2Proof.Machine

/-- One step of the block (R170). -/
def step (s : State) : Host.Outcome State Fault Refusal := stepWith exec s

/-- `s` with an opcode-table word where the very next step runs it (assumption 20). -/
def State.withFetchWord (s : State) (nbits w : Nat) : State := s.placeWord nbits w

end Sys2Proof.Machine
end

