-- ==== Sys2Proof/Machine/Ports.lean ====
section
/-! DEFINITION. The block's ports (spec/30_encoding.md R80) as views of the state before a step: the inputs that the
step samples and the outputs it presents; the two-wire transaction of an event (R93).  Nothing here is state and
`step` reads none of it. -/

namespace Sys2Proof.Machine

/-- The micro-program step of command `i` in state `s`. -/
def actionOf (i : Instr) (s : State) : Except Fault Action :=
  match i with
  | .enable => enableAction s
  | .beginFrame => beginAction s
  | .xfer buf => rowAction false buf s
  | .xferE buf => rowAction true buf s
  | .endFrame => endAction s
  | .disable => disableAction s

/-- The micro-program step the block is at: none while idle, in reset, or when the command is refused. -/
def State.pending (s : State) : Option Action :=
  if s.busy && !s.rst then
    match s.fetch with
    | .ok i => match refusalOf i s, actionOf i s with
      | none, .ok a => some a
      | _, _ => none
    | .error _ => none
  else none

/-- The status the block responds with at this step, if it responds (R84). -/
def State.responding (s : State) : Option Status :=
  if s.busy && !s.rst then
    match s.fetch with
    | .error _ => some .illegalCommand
    | .ok i => match refusalOf i s, actionOf i s with
      | some st, _ => some st
      | none, .ok (.finish _ _ st) => some st
      | none, _ => none
  else none

/-- The scanline indices read at this step, in order: those of group k at seq 3k+1 of a TRANSFER (R121, R129). -/
def State.pxReads (s : State) : List Nat :=
  match s.pending with
  | some (.emit (.data _)) => groupIndices ((s.seq - 1) / 3)
  | _ => []

/-- The whole number of microseconds that asks the timer for at least `t` (R80; assumption 5). -/
def waitMicros (t : Rat) : BitVec 15 := BitVec.ofInt 15 t.ceil

/-- The two-wire write the block is at, if it is at one: register, value (R93, R146). -/
def State.writeRequest (s : State) : Option (Byte × Byte) :=
  match s.pending with
  | some (.write v) => some (twReg, v)
  | _ => none

/-- The delay the block asks for at this step, if it asks for one (R210). -/
def State.waitRequest (s : State) : Option Rat :=
  match s.pending with
  | some (.emit (.wait t)) => some t
  | _ => none

/-- The block is at a two-wire write whose transaction is not done: R146's step that is not enabled.  It stays there,
with `busy = 1`, as long as the master reports so, or until reset (R215, Stuck; assumption 8). -/
def State.unfinished (s : State) : Bool := s.writeRequest.isSome && s.twReport.isNone

/-- What the two-wire master reports at this step: its report when a write is requested, nothing otherwise (R146, R211;
DESIGN CHOICE, assumption 28: the spec does not say what `tw_done` and `tw_ack` show with no request). -/
def State.twInput (s : State) : Option Ack := if s.writeRequest.isSome then s.twReport else none

/-- The inputs of R80 at a step.  An input that stands for no request has no value, and `tw_done` and `wait_done` are 0
there (DESIGN CHOICE, assumptions 22 and 28). -/
structure PortsIn where
  rst      : Bool
  cmdValid : Bool
  cmdByte  : Option Byte
  /-- `px_data`, one byte for each read of the step, in order. -/
  pxData   : List Byte
  /-- `tw_done`: 0 with no write requested (assumption 28). -/
  twDone   : Bool
  /-- `tw_ack`: a value only with `tw_done` (assumption 28). -/
  twAck    : Option Ack
  /-- `wait_done`: assumed at the step that requests the delay (R210; assumption 5), 0 at any other (assumption 22). -/
  waitDone : Bool
deriving DecidableEq, Repr

/-- The input ports at this step.  The host answers every read with the latched operand's byte (R240 (c)).  A
two-wire report is shown only at a step that requests a write: DESIGN CHOICE (assumption 28). -/
def State.portsIn (s : State) : PortsIn :=
  { rst := s.rst, cmdValid := !s.host.isEmpty, cmdByte := s.host.head?.map (·.byte),
    pxData := s.pxReads.map s.cmd.buf.read,
    twDone := s.twInput.isSome, twAck := s.twInput,
    waitDone := s.waitRequest.isSome }

/-- The outputs of R80 at a step.  A request or a response that is not made has no value. -/
structure PortsOut where
  cmdReady  : Bool
  /-- `px_addr`, 10 bits, once for each read of the step, in order (assumption 22). -/
  pxAddr    : List (BitVec 10)
  rspStatus : Option (BitVec 3)
  twReq     : Option (Byte × Byte)
  waitUs    : Option (BitVec 15)
  lines     : Lines
  bus       : Bus
deriving DecidableEq, Repr

/-- The output ports at this step.  DESIGN CHOICE (assumption 27): while the master reports not done, `tw_req`,
`tw_reg` and `tw_val` are held, shown again at every poll; the spec does not say whether the request is a level or a
pulse.  It is one request and one write (R211). -/
def State.portsOut (s : State) : PortsOut :=
  { cmdReady := !s.busy,
    pxAddr := s.pxReads.map (BitVec.ofNat 10),
    rspStatus := s.responding.map Status.code,
    twReq := s.writeRequest,
    waitUs := s.waitRequest.map waitMicros,
    lines := s.lines, bus := s.bus }

/-- What data line D_i drives: bit i of the byte (R35, R66). -/
def State.dataLine (s : State) (i : Nat) : Option Bool := s.bus.drive.map (·.getLsbD i)

/-- A two-wire write transaction on the bus: the device's 7-bit address, then the bytes in order (R67, R93). -/
structure TwoWire where
  device : BitVec 7
  bytes  : List Byte
deriving DecidableEq, Repr

/-- The transaction an event makes, if it makes one: register byte first, then the value byte (R67, R93). -/
def Event.twoWire : Event → Option TwoWire
  | .tw reg val _ => some { device := twAddr, bytes := [reg, val] }
  | .cfg _ _ => none
  | .cfgData _ => none
  | .set _ _ => none
  | .data _ => none
  | .wait _ => none
  | .rsp _ => none

end Sys2Proof.Machine
end

