-- ==== Sys2Proof/Safety.lean ====
section
/-! DEFINITION. What claims about a run are stated in: the micro-programs as event lists, the line levels a rule
promises, the invariant of every reachable state (spec/10_state.md R48, generalised to the middle of a command), the
class of an outcome (spec/60_exceptions.md R215), runs of steps (spec/70_reset_and_hazards.md R245, R246). -/

namespace Sys2Proof.Machine

/-! ## The micro-programs as event lists -/

/-- ENABLE's events with the acknowledge bits of its three writes (R147; vectors P-E and P-N4). -/
def enableEvents (a b c : Ack) : List Event :=
  [.cfg .wakeup (.out true), .wait 5000, .tw 0x01#8 0x20#8 a, .wait 1000, .tw 0x01#8 0xA0#8 b, .wait 25000,
   .tw 0x01#8 0x3F#8 c, .wait 1000, .cfg .spv (.out true), .cfg .ckv (.out true), .cfg .mode (.out false),
   .cfg .stl (.out true), .cfg .oe (.out false), .cfg .le (.out false), .cfg .cl (.out false),
   .cfgData (.out 0x00#8)]

/-- DISABLE's events with the acknowledge bits of its three writes (R150; vectors P-D and P-N5). -/
def disableEvents (a b c : Ack) : List Event :=
  [.cfgData .input, .cfg .cl .input, .cfg .le .input, .cfg .oe .input, .cfg .stl .input, .cfg .mode .input,
   .cfg .ckv .input, .cfg .spv .input, .tw 0x01#8 0x2F#8 a, .wait 1000, .tw 0x01#8 0x60#8 b, .wait 25000,
   .tw 0x01#8 0x00#8 c, .set .wakeup false]

/-- BEGIN's events (R173; vector B1). -/
def beginEvents (c : Config) : List Event :=
  [.set .oe true, .set .mode true, .set .spv false, .set .ckv false, .wait c.tSync, .set .ckv true, .set .spv true]

/-- END's events (R175; vector B2). -/
def endEvents : List Event := [.set .mode false, .set .oe false]

/-- The four pixel bits of group `k` of an operand, pixel 4k first, as the 4-bit number of R64. -/
def groupIndex (buf : Memory) (k : Nat) : Nat :=
  8 * ((buf.read (4 * k)).toNat % 2) + 4 * ((buf.read (4 * k + 1)).toNat % 2) +
    2 * ((buf.read (4 * k + 2)).toNat % 2) + (buf.read (4 * k + 3)).toNat % 2

/-- The waveform byte of group `k` (R101): 0xFF when erasing, else the LUT's entry for the group's index. -/
def rowByte (c : Config) (buf : Memory) (erase : Bool) (k : Nat) : Byte :=
  if erase then 0xFF#8 else c.lut.toList.getD (groupIndex buf k) 0x00#8

/-- The three events of each of `n` groups from group `k` on (R121 step 2, R123). -/
def shiftEvents (c : Config) (buf : Memory) (erase : Bool) (k : Nat) : Nat → List Event
  | 0 => []
  | n + 1 => .data (rowByte c buf erase k) :: .set .cl true :: .set .cl false :: shiftEvents c buf erase (k + 1) n

/-- The eight events that close a row (R121 steps 3 to 6). -/
def closingEvents (c : Config) : List Event :=
  [.set .stl true, .set .cl true, .set .cl false, .set .le true, .set .le false, .set .ckv false,
   .wait c.tCkvLow, .set .ckv true]

/-- TRANSFER's 3G + 9 events (R121). -/
def rowEvents (c : Config) (buf : Memory) (erase : Bool) : List Event :=
  .set .stl false :: (shiftEvents c buf erase 0 c.groups ++ closingEvents c)

/-! ## Reading a trace -/

/-- The responses of a trace, in order (R84). -/
def responses (tr : List Event) : List Status :=
  tr.filterMap fun e => match e with
    | .rsp s => some s
    | _ => none

/-- The two-wire writes of a trace, in order, as (register, value). -/
def twWrites (tr : List Event) : List (Byte × Byte) :=
  tr.filterMap fun e => match e with
    | .tw r v _ => some (r, v)
    | _ => none

/-- The delays of a trace, in order. -/
def waits (tr : List Event) : List Rat :=
  tr.filterMap fun e => match e with
    | .wait t => some t
    | _ => none

/-- How many events of a trace raise (or lower) a line by `SET`. -/
def setCount (p : Line) (v : Bool) (tr : List Event) : Nat := tr.count (.set p v)

/-- How many DATA events a trace holds. -/
def dataCount (tr : List Event) : Nat :=
  tr.countP fun e => match e with
    | .data _ => true
    | _ => false

/-! ## Line levels -/

/-- The level of each line outside a frame (R48(c), R152); WAKEUP is asserted (R48(a)). -/
def idleLevel : Line → Bool
  | .spv => true
  | .ckv => true
  | .mode => false
  | .stl => true
  | .oe => false
  | .le => false
  | .cl => false
  | .wakeup => true

/-- The level of each line in a frame, between commands (R48(b)). -/
def frameLevel : Line → Bool
  | .spv => true
  | .ckv => true
  | .mode => true
  | .stl => true
  | .oe => true
  | .le => false
  | .cl => false
  | .wakeup => true

/-- Every bus line is high impedance (R48(d), R207). -/
def State.released (s : State) : Prop :=
  (∀ p, p ≠ .wakeup → (s.lines.get p).drive = none) ∧ s.bus.dir = .input

/-- What the lines show between commands, by `life` (R48, R207). -/
def State.restOk (s : State) : Prop :=
  match s.life with
  | .unpowered => s.released ∧
      ((s.lines.get .wakeup).drive = none ∨ (s.lines.get .wakeup).drive = some false)
  | .poweredIdle => (∀ p, (s.lines.get p).drive = some (idleLevel p)) ∧ s.bus.dir = .output
  | .frameActive => (∀ p, (s.lines.get p).drive = some (frameLevel p)) ∧ s.bus.dir = .output
  | .faulted => s.released ∧ (s.lines.get .wakeup).drive = some false
  | .poweringUp => False
  | .poweringDown => False

/-- The seq at which ENABLE configures a line (R147). -/
def configSeq : Line → Nat
  | .wakeup => 0
  | .spv => 8
  | .ckv => 9
  | .mode => 10
  | .stl => 11
  | .oe => 12
  | .le => 13
  | .cl => 14

/-- The seq at which DISABLE releases a bus line (R150). -/
def releaseSeq : Line → Nat
  | .cl => 1
  | .le => 2
  | .oe => 3
  | .stl => 4
  | .mode => 5
  | .ckv => 6
  | .spv => 7
  | .wakeup => 13

/-- What a line drives once `n` steps of ENABLE are done; `fatal` says that the command is on its abort path (R148). -/
def enableDrive (fatal : Bool) (n : Nat) (p : Line) : Option Bool :=
  if p = .wakeup then some (!(fatal && n % 2 == 0))
  else if configSeq p < n then some (idleLevel p) else none

/-- What a line drives once `n` steps of DISABLE are done (R150). -/
def disableDrive (n : Nat) (p : Line) : Option Bool :=
  if p = .wakeup then some (decide (n ≤ 13))
  else if releaseSeq p < n then none else some (idleLevel p)

/-- The level of a line once `n` steps of BEGIN are done (R173). -/
def beginLevel (n : Nat) : Line → Bool
  | .oe => decide (1 ≤ n)
  | .mode => decide (2 ≤ n)
  | .spv => !(decide (3 ≤ n) && decide (n ≤ 6))
  | .ckv => !(decide (4 ≤ n) && decide (n ≤ 5))
  | .stl => true
  | .le => false
  | .cl => false
  | .wakeup => true

/-- The level of a line once `n` steps of END are done (R175). -/
def endLevel (n : Nat) : Line → Bool
  | .mode => decide (n < 1)
  | .oe => decide (n < 2)
  | .spv => true
  | .ckv => true
  | .stl => true
  | .le => false
  | .cl => false
  | .wakeup => true

/-- The level of a line once `n` steps of a row of `g` groups are done (R121). -/
def rowLevel (g n : Nat) : Line → Bool
  | .stl => decide (n = 0) || decide (3 * g + 2 ≤ n)
  | .cl => decide (3 ≤ n) && decide (n ≤ 3 * g + 3) && (n % 3 == 0)
  | .le => n == 3 * g + 5
  | .ckv => !(n == 3 * g + 7 || n == 3 * g + 8)
  | .spv => true
  | .mode => true
  | .oe => true
  | .wakeup => true

/-- What the discrete lines show in the middle of a command. -/
def midDrive (i : Instr) (s : State) (p : Line) : Option Bool :=
  match i with
  | .enable => enableDrive s.nackFatal s.seq p
  | .beginFrame => some (beginLevel s.seq p)
  | .xfer _ => some (rowLevel s.cfg.groups s.seq p)
  | .xferE _ => some (rowLevel s.cfg.groups s.seq p)
  | .endFrame => some (endLevel s.seq p)
  | .disable => disableDrive s.seq p

/-- The direction of the data lines in the middle of a command. -/
def midBus (i : Instr) (n : Nat) : Dir :=
  match i with
  | .enable => if 16 ≤ n then .output else .input
  | .beginFrame => .output
  | .xfer _ => .output
  | .xferE _ => .output
  | .endFrame => .output
  | .disable => .input

/-- `life` in the middle of a command (R172, column "during"). -/
def midLife : Instr → Life
  | .enable => .poweringUp
  | .beginFrame => .poweredIdle
  | .xfer _ => .frameActive
  | .xferE _ => .frameActive
  | .endFrame => .frameActive
  | .disable => .poweringDown

/-- The seq of a command's completion step, `g` being GROUPS (R121, R147, R150, R173 to R175). -/
def lastSeq (g : Nat) : Instr → Nat
  | .enable => 16
  | .beginFrame => 7
  | .xfer _ => 3 * g + 9
  | .xferE _ => 3 * g + 9
  | .endFrame => 2
  | .disable => 14

/-- The state in the middle of command `i`, after its first step. -/
structure State.RunningOk (s : State) (i : Instr) : Prop where
  life  : s.life = midLife i
  seq   : s.seq ≤ lastSeq s.cfg.groups i
  lines : ∀ p, (s.lines.get p).drive = midDrive i s p
  bus   : s.bus.dir = midBus i s.seq
  abort : i = .enable → s.nackFatal = true → 3 ≤ s.seq ∧ s.seq ≤ 8
  rows  : s.cfg.rowCountCheck = true → wrongRows i s.rows.toNat s.cfg.height = false

/-- The invariant of every reachable state: R48 between commands and before a command's first step, its
generalisation in the middle of one, the row bound of R48(e), and scanlines of exactly WIDTH bytes (R62). -/
structure State.Inv (s : State) : Prop where
  operand : s.cmd.buf.fits s.cfg.width = true
  offers  : ∀ c ∈ s.host, c.wf s.cfg.width = true
  rows    : s.cfg.rowCountCheck = true → s.rows.toNat ≤ s.cfg.height
  rest    : s.busy = false ∨ s.seq = 0 → s.restOk
  running : s.busy = true → s.seq ≠ 0 → ∃ i, s.fetch = .ok i ∧ s.RunningOk i

/-! ## The state after a step, as a rule writes it -/

/-- `s` after its step has emitted `e` and nothing else (R12, R91, R170 case 3). -/
def State.afterEvent (e : Event) (s : State) : State :=
  { s with lines := e.onLines s.lines, bus := e.onBus s.bus, trace := s.trace ++ [e], seq := s.seq + 1 }

/-- An event is a two-wire write. -/
def Event.isWrite : Event → Bool
  | .tw _ _ _ => true
  | .cfg _ _ => false
  | .cfgData _ => false
  | .set _ _ => false
  | .data _ => false
  | .wait _ => false
  | .rsp _ => false

/-- An event is a two-wire write that was not acknowledged. -/
def Event.isNack : Event → Bool
  | .tw _ _ a => decide (a = .nack)
  | .cfg _ _ => false
  | .cfgData _ => false
  | .set _ _ => false
  | .data _ => false
  | .wait _ => false
  | .rsp _ => false

/-- `s` after a step of ENABLE or DISABLE has emitted `e`: the first step also sets `life <- l` and `nack <- 0`, and a
two-wire write records a NACK and takes up the master's report (R40, R146, R147, R150). -/
def State.afterPower (l : Life) (e : Event) (s : State) : State :=
  { s.afterEvent e with
    life := if s.seq = 0 then l else s.life,
    nack := if s.seq = 0 then false else s.nack || e.isNack,
    twIn := if e.isWrite then s.twIn.tail else s.twIn,
    draws := if e.isWrite then s.draws + 1 else s.draws }

/-- `s` after the first step of command `i`, once the guard has admitted it: step 0 of its micro-program (R147, R150,
R173, R121, R175). -/
def State.afterFirst (i : Instr) (s : State) : State :=
  match i with
  | .enable => s.afterPower .poweringUp (.cfg .wakeup (.out true))
  | .beginFrame => s.afterEvent (.set .oe true)
  | .xfer _ => s.afterEvent (.set .stl false)
  | .xferE _ => s.afterEvent (.set .stl false)
  | .endFrame => s.afterEvent (.set .mode false)
  | .disable => s.afterPower .poweringDown (.cfgData .input)

/-- An event of a row with its data byte, if it is a DATA event, made 0xFF (R129). -/
def Event.erased : Event → Event
  | .data _ => .data 0xFF#8
  | .cfg p d => .cfg p d
  | .cfgData d => .cfgData d
  | .set p v => .set p v
  | .wait d => .wait d
  | .tw r v a => .tw r v a
  | .rsp st => .rsp st

/-- `s` after its step has responded `st` and changed nothing else (R84, R201). -/
def State.answered (st : Status) (s : State) : State :=
  { s with trace := s.trace ++ [.rsp st], status := st, busy := false }

/-- The table of R171: how the guard answers a legal command in each lifecycle state; `none` is "run".  `check` is
ROW_COUNT_CHECK.  (In `PoweringUp` and `PoweringDown` no command starts; the entry there is PV, by check 2.) -/
def guardTable (i : Instr) (l : Life) (rows height : Nat) (check : Bool) : Option Status :=
  match l, i with
  | .unpowered, .enable => none
  | .poweredIdle, .beginFrame => none
  | .poweredIdle, .disable => none
  | .frameActive, .xfer _ => if check = true ∧ height ≤ rows then some .rowCountMismatch else none
  | .frameActive, .xferE _ => if check = true ∧ height ≤ rows then some .rowCountMismatch else none
  | .frameActive, .endFrame => if check = true ∧ rows ≠ height then some .rowCountMismatch else none
  | _, _ => some .protocolViolation

/-! ## Outcomes, hazards and runs -/

/-- The classes of a command's outcome (R215); no outcome falls under two.  R215's fifth, Hang, has no member. -/
inductive OutcomeClass where
  /-- `RSP(OK)`. -/
  | completed
  /-- `RSP(ProtocolViolation)`, `RSP(RowCountMismatch)` or `RSP(IllegalCommand)`. -/
  | refused
  /-- `RSP(BusTransactionFailure)`. -/
  | faulted
  /-- No response: at a two-wire write whose transaction is not done. -/
  | stuck
deriving DecidableEq, Repr

/-- R215: the class of a response; `None` is never a response. -/
def Status.outcome : Status → Option OutcomeClass
  | .ok => some .completed
  | .protocolViolation => some .refused
  | .rowCountMismatch => some .refused
  | .illegalCommand => some .refused
  | .busTransactionFailure => some .faulted
  | .none => Option.none

/-- R215: how the last accepted command stands: stuck while it is at a write that is not done (its outcome if it stays
so: `State.Stuck`), none while it runs on, the class of its response once it has responded. -/
def State.outcome (s : State) : Option OutcomeClass :=
  if s.busy then (if s.unfinished then some .stuck else Option.none) else s.status.outcome

/-- The master's report at the `k`-th poll from here on (R146; assumption 8). -/
def State.report (s : State) (k : Nat) : Option Ack := (s.twIn[k]?).getD (Config.freeReport (s.draws + k))

/-- R215, Stuck as an outcome: the block is at a write that the master never reports done. -/
def State.Stuck (s : State) : Prop := s.writeRequest.isSome = true ∧ ∀ k, s.report k = none

/-- A reset in this state is the host hazard of R232 and R243. -/
def State.resetHazard (s : State) : Bool :=
  s.busy || !(decide (s.life = .unpowered) || decide (s.life = .faulted))

/-- `k` steps of the block. -/
def run (k : Nat) (s : State) : Host.Outcome State Fault Refusal := Host.Core.run Sys2Proof.core k s

/-- `rst` is 0 at every step to come (the premise of R246's run). -/
def State.noReset (s : State) : Prop := ∀ b ∈ s.rstIn, b = false

/-- A state to start from: reset, with any configuration and any inputs to come (R233, R245). -/
def State.start (c : Config) (host : List Command) (rstIn : List Bool) (twIn : List (Option Ack)) (draws : Nat) :
    State :=
  { State.reset with cfg := c, host := host, rstIn := rstIn, twIn := twIn, draws := draws }

/-- The discrete lines at their idle levels, all outputs (R48(c), R152). -/
def Lines.idle : Lines :=
  { spv := { dir := .output, level := true }, ckv := { dir := .output, level := true },
    mode := { dir := .output, level := false }, stl := { dir := .output, level := true },
    oe := { dir := .output, level := false }, le := { dir := .output, level := false },
    cl := { dir := .output, level := false }, wakeup := { dir := .output, level := true } }

/-- One line at another level, its direction as it was. -/
def Lines.at (l : Lines) (p : Line) (v : Bool) : Lines := l.set p { dir := (l.get p).dir, level := v }

/-- An idle block to which the host offers `i` next, and that no reset interrupts. -/
structure State.Offered (s : State) (i : Instr) (rest : List Command) : Prop where
  idle  : s.busy = false
  offer : s.host = i.command :: rest
  fits  : i.wf s.cfg.width = true
  quiet : s.noReset

end Sys2Proof.Machine
end

