-- ==== Sys2Proof/Certificates/Slice0/Obligations.lean ====
section
/-! DEFINITION. The statements for the provers.  Each docstring names the rule of spec/ it formalises.  `exec i s` is ONE
step of command `i` (R170); a whole command is a `run` of steps. -/

open Sys2Proof Sys2Proof.Machine

/-! ## Encoding -/

/-- R81, R85, R62: writing a command out with its operand and reading it back gives it again (the byte form with the
operand is the model's spelling, assumption 13). -/
def Obligations.DecodeOfEncode : Prop :=
  ∀ (width : Nat) (i : Instr), i.wf width = true → decode width (encode width i) = .ok i

/-- R62, R85, R88: bytes that decode are the encoding of the one well-formed command they decode to. -/
def Obligations.EncodeOfDecode : Prop :=
  ∀ (width : Nat) (bs : List Byte) (i : Instr), decode width bs = .ok i → encode width i = bs ∧ i.wf width = true

/-- R85: the six legal bytes, written out bit by bit as `{rsv, E, op}`. -/
def Obligations.LegalBytesDecode : Prop :=
  ∀ buf : Memory,
    decodeByte 0b00000001#8 buf = .ok .enable ∧ decodeByte 0b00000010#8 buf = .ok .beginFrame ∧
    decodeByte 0b00000011#8 buf = .ok (.xfer buf) ∧ decodeByte 0b00001011#8 buf = .ok (.xferE buf) ∧
    decodeByte 0b00000100#8 buf = .ok .endFrame ∧ decodeByte 0b00000101#8 buf = .ok .disable

/-- R86, whole: which bytes are illegal, how many, and that an illegal command is accepted and answered at the next
step with `IllegalCommand` and nothing else changed. -/
def Obligations.IllegalBytes : Prop :=
  (∀ (c : Byte) (buf : Memory), (∃ e, decodeByte c buf = .error e) ↔
    (c.extractLsb' 4 4 ≠ 0#4 ∨ c.extractLsb' 0 3 = 0#3 ∨ c.extractLsb' 0 3 = 6#3 ∨ c.extractLsb' 0 3 = 7#3 ∨
      (c.getLsbD 3 = true ∧ c.extractLsb' 0 3 ≠ 3#3))) ∧
  (∀ (c : Byte) (buf : Memory), (∃ i, decodeByte c buf = .ok i) ↔
    c ∈ [0x01#8, 0x02#8, 0x03#8, 0x0B#8, 0x04#8, 0x05#8]) ∧
  ((List.range 256).countP fun n => (decodeByte (BitVec.ofNat 8 n) []).toOption.isNone) = 250 ∧
  (∀ (s : State) (c : Command) (rest : List Command), s.rst = false → s.busy = false → s.host = c :: rest →
    c.wf s.cfg.width = true → (∃ e, decodeByte c.byte c.buf = .error e) →
    ∃ t, step s = .next t ∧ t.busy = true ∧ t.seq = 0 ∧ t.trace = s.trace ∧
      (t.rst = false → step t = .next
        { s with seq := 0, cmd := c, host := rest, rstIn := s.rstIn.tail.tail, busy := false,
                 status := .illegalCommand, trace := s.trace ++ [.rsp .illegalCommand] }))

/-! ## The step -/

/-- R83, whole: an idle block latches the offered command, sets `busy` and `seq = 0` and emits nothing; while busy,
`cmd_ready = 0`, and the offer stays until it is accepted; the latched command stays until the step that responds. -/
def Obligations.CommandAccepted : Prop :=
  (∀ (s : State) (c : Command) (rest : List Command), s.rst = false → s.busy = false → s.host = c :: rest →
    c.wf s.cfg.width = true →
    step s = .next { s with busy := true, cmd := c, seq := 0, host := rest, rstIn := s.rstIn.tail }) ∧
  (∀ s : State, s.portsOut.cmdReady = !s.busy) ∧
  (∀ s t : State, s.busy = true → step s = .next t → t.host = s.host ∧ (t.busy = true → t.cmd = s.cmd))

/-- R170 cases 2 and 3, R83: when the latched byte decodes to an instruction, the step is `exec` of it; the model adds
only that the sample of `rst` is taken. -/
def Obligations.StepRunsInstruction : Prop :=
  ∀ (s : State) (i : Instr), s.rst = false → s.busy = true → decodeByte s.cmd.byte s.cmd.buf = .ok i →
    step s = exec i { s with rstIn := s.rstIn.tail }

/-- R170 case 1: with no command offered, an idle block does nothing (the model takes the sample of `rst`). -/
def Obligations.IdleStepChangesNothing : Prop :=
  ∀ s : State, s.rst = false → s.busy = false → s.host = [] → step s = .next { s with rstIn := s.rstIn.tail }

/-- R230: at any step with `rst = 1` the command is abandoned without a response, every line becomes high
impedance, nothing is emitted and the trace restarts empty; the configuration is unchanged.  That the host's offers, the
master's reports, the poll count and the later samples of `rst` stay is the model's (assumptions 16 and 21). -/
def Obligations.ResetAnywhere : Prop :=
  ∀ s : State, s.rst = true → ∃ t, step s = .next t ∧
    t.life = .unpowered ∧ t.busy = false ∧ t.status = .none ∧ t.rows = 0#10 ∧ t.nack = false ∧ t.trace = [] ∧
    (∀ p, (t.lines.get p).dir = .input) ∧ t.bus.dir = .input ∧ t.cfg = s.cfg ∧
    t.host = s.host ∧ t.twIn = s.twIn ∧ t.draws = s.draws ∧ t.rstIn = s.rstIn.tail

/-- R231: the state after reset, and that the block is then in its idle case: it accepts whatever command is offered. -/
def Obligations.ResetValues : Prop :=
  State.reset.life = .unpowered ∧ State.reset.busy = false ∧ State.reset.status = .none ∧
  (∀ p, (State.reset.lines.get p).dir = .input) ∧ State.reset.bus.dir = .input ∧
  (∀ (c : Command) (rest : List Command), c.wf State.reset.cfg.width = true →
    ∃ t, step { State.reset with host := c :: rest } = .next t ∧ t.busy = true ∧ t.cmd = c ∧ t.seq = 0)

/-- R13, R90: a step emits at most one event; only reset shortens the trace. -/
def Obligations.OneEventPerStep : Prop :=
  ∀ s t : State, step s = .next t →
    (s.rst = true ∧ t.trace = []) ∨ (s.rst = false ∧ (t.trace = s.trace ∨ ∃ e, t.trace = s.trace ++ [e]))

/-- R84: the step that ends a command is the one that emits `RSP`, once, with the status it also writes, which is not
`None`; no other step responds or writes `status`. -/
def Obligations.OneResponsePerCommand : Prop :=
  ∀ s t : State, s.rst = false → step s = .next t →
    (s.busy = true → t.busy = false → t.trace = s.trace ++ [.rsp t.status] ∧ t.status ≠ .none) ∧
    (s.busy = false ∨ t.busy = true → t.status = s.status ∧ responses t.trace = responses s.trace)

/-- R39: `status` is the status of the last response since reset, `None` before the first. -/
def Obligations.StatusIsLastResponse : Prop :=
  ∀ s t : State, s.status = (responses s.trace).getLastD .none → step s = .next t →
    t.status = (responses t.trace).getLastD .none

/-- R30: no step changes the configuration (LUT ROM included, R42). -/
def Obligations.ConfigReadOnly : Prop :=
  ∀ s t : State, step s = .next t → t.cfg = s.cfg

/-- R80, R84, R146, R210: the response, two-wire and wait ports show the step that is taken, and show nothing else.  The
response port shows a status exactly at the step that emits it; the two-wire port shows the write the block is at, whose
event follows when the transaction is done; the wait port shows the delay of the WAIT, in whole microseconds exactly, as
all delays of ENABLE and DISABLE are.  The ports are views of the state before the step, and a request that is not made
has no value (assumption 22); an unfinished write is a step that leaves the block where it is (assumption 8), its request
shown again (assumption 27); a delay is rounded up to whole microseconds (assumption 5). -/
def Obligations.PortsShowTheStep : Prop :=
  ∀ s t : State, step s = .next t →
    (∀ c, s.portsOut.rspStatus = some c →
      t.trace = s.trace ++ [.rsp t.status] ∧ t.status.code = c ∧ t.busy = false) ∧
    (∀ st, t.trace = s.trace ++ [.rsp st] → s.portsOut.rspStatus = some st.code) ∧
    (∀ r v a, s.portsOut.twReq = some (r, v) → s.twReport = some a → t.trace = s.trace ++ [.tw r v a]) ∧
    (∀ r v, s.portsOut.twReq = some (r, v) → s.twReport = none →
      t.trace = s.trace ∧ t.seq = s.seq ∧ (t.rst = false → t.portsOut.twReq = some (r, v))) ∧
    (∀ r v a, t.trace = s.trace ++ [.tw r v a] → s.portsOut.twReq = some (r, v) ∧ s.twReport = some a) ∧
    (∀ w, s.portsOut.waitUs = some w → ∃ d, t.trace = s.trace ++ [.wait d] ∧ w = waitMicros d) ∧
    (∀ d, t.trace = s.trace ++ [.wait d] → s.portsOut.waitUs = some (waitMicros d)) ∧
    (∀ n : Nat, t.trace = s.trace ++ [.wait n] → s.portsOut.waitUs = some (BitVec.ofNat 15 n)) ∧
    (s.rst = false → s.busy = true → s.portsOut.rspStatus = none → t.busy = true)

/-! ## The guard -/

/-- R171, whole: at the first step the checks are made in their order.  An illegal byte is answered `IllegalCommand`
in every state; else the table decides; an admitted command performs its first micro-program step.  In `PoweringUp` and
`PoweringDown` a command is in its middle, so the guard is not evaluated there. -/
def Obligations.GuardDecides : Prop :=
  (∀ (s : State) (e : DecodeError), s.rst = false → s.busy = true → s.seq = 0 →
    decodeByte s.cmd.byte s.cmd.buf = .error e →
    step s = .next (State.answered .illegalCommand { s with rstIn := s.rstIn.tail })) ∧
  (∀ (i : Instr) (s : State) (st : Status), s.seq = 0 →
    guardTable i s.life s.rows.toNat s.cfg.height s.cfg.rowCountCheck = some st →
    exec i s = .next (s.answered st)) ∧
  (∀ (i : Instr) (s : State), s.seq = 0 →
    guardTable i s.life s.rows.toNat s.cfg.height s.cfg.rowCountCheck = none →
    exec i s = .next (s.afterFirst i)) ∧
  (∀ s : State, s.Inv → s.life = .poweringUp ∨ s.life = .poweringDown → s.busy = true ∧ s.seq ≠ 0)

/-- R201: a command answered at its first step is refused; nothing changes but `status`, `busy` and the `RSP` in the
trace, and only the two refusals of a legal byte occur; after the first step nothing is refused any more.  (The third
refusal, of an illegal byte, is in `IllegalBytes`.) -/
def Obligations.RefusalsArePrecise : Prop :=
  ∀ (i : Instr) (s t : State), s.busy = true → exec i s = .next t → t.busy = false →
    (s.seq = 0 → t = s.answered t.status ∧ (t.status = .protocolViolation ∨ t.status = .rowCountMismatch)) ∧
    (s.seq ≠ 0 → t.status = .ok ∨ t.status = .busTransactionFailure)

/-! ## ENABLE and DISABLE -/

/-- R147, R152: every step of ENABLE, completion included.  Off the abort path, step n emits event n of the list; the
last step makes the block `PoweredIdle` and responds `OK` (that seq and cmd stay there: assumptions 9 and 26). -/
def Obligations.EnableSteps : Prop :=
  (∀ (s : State) (a b c : Ack) (e : Event), (enableEvents a b c)[s.seq]? = some e →
    (s.seq = 0 → s.life = .unpowered) →
    (s.seq = 2 → s.twReport = some a) → (s.seq = 4 → s.twReport = some b) → (s.seq = 6 → s.twReport = some c) →
    (3 ≤ s.seq → s.seq ≤ 8 → s.nack = true → s.cfg.nackPolicy = .ignore) →
    exec .enable s = .next (s.afterPower .poweringUp e)) ∧
  (∀ s : State, s.seq = 16 → exec .enable s = .next { s.answered .ok with life := .poweredIdle })

/-- R148: under policy `Fault`, a NACK at seq 2, 4 or 6 is followed by `SET(WAKEUP, 0)` and then by the response
`BusTransactionFailure` in `Faulted`; no later WAIT, TW or CFG is emitted and no bus line changes. -/
def Obligations.EnableAborts : Prop :=
  ∀ (s : State) (v : Byte), (s.seq, v) ∈ [(2, 0x20#8), (4, 0xA0#8), (6, 0x3F#8)] →
    s.cfg.nackPolicy = .fault → s.nack = false → s.twReport = some .nack →
    ∃ t1 t2 t3, exec .enable s = .next t1 ∧ exec .enable t1 = .next t2 ∧ exec .enable t2 = .next t3 ∧
      t1.trace = s.trace ++ [.tw 0x01#8 v .nack] ∧ t1.nack = true ∧
      t2.trace = t1.trace ++ [.set .wakeup false] ∧
      t3.trace = t2.trace ++ [.rsp .busTransactionFailure] ∧ t3.life = .faulted ∧
      t3.status = .busTransactionFailure ∧ t3.busy = false ∧ t3.nack = true ∧
      t3.lines = s.lines.at .wakeup false ∧ t3.bus = s.bus

/-- R147: a whole ENABLE.  Offered to an idle, unpowered block, with every write acknowledged (or under policy
`Ignore`), it emits its 16 events and `RSP(OK)`, and leaves `PoweredIdle` with every line at its idle level. -/
def Obligations.EnableRuns : Prop :=
  ∀ (s : State) (rest : List Command) (a b c : Ack) (tw : List (Option Ack)),
    s.Offered .enable rest → s.life = .unpowered → s.twIn = some a :: some b :: some c :: tw →
    (s.cfg.nackPolicy = .ignore ∨ (a = .ack ∧ b = .ack ∧ c = .ack)) →
    ∃ t, run 18 s = .next t ∧ t.trace = s.trace ++ enableEvents a b c ++ [.rsp .ok] ∧
      t.life = .poweredIdle ∧ t.status = .ok ∧ t.busy = false ∧
      t.nack = (decide (a = .nack) || decide (b = .nack) || decide (c = .nack)) ∧
      t.lines = Lines.idle ∧ t.bus = { dir := .output, byte := 0x00#8 } ∧
      t.rows = s.rows ∧ t.host = rest ∧ t.twIn = tw ∧ t.cfg = s.cfg

/-- R150, R153: every step of DISABLE, completion included; a NACK never stops it (R151).  That seq and cmd stay at the
response: assumptions 9 and 26. -/
def Obligations.DisableSteps : Prop :=
  (∀ (s : State) (a b c : Ack) (e : Event), (disableEvents a b c)[s.seq]? = some e →
    (s.seq = 0 → s.life = .poweredIdle) →
    (s.seq = 8 → s.twReport = some a) → (s.seq = 10 → s.twReport = some b) → (s.seq = 12 → s.twReport = some c) →
    exec .disable s = .next (s.afterPower .poweringDown e)) ∧
  (∀ s : State, s.seq = 14 → s.nack = true → s.cfg.nackPolicy = .fault →
    exec .disable s = .next { s.answered .busTransactionFailure with life := .faulted }) ∧
  (∀ s : State, s.seq = 14 → (s.nack = false ∨ s.cfg.nackPolicy = .ignore) →
    exec .disable s = .next { s.answered .ok with life := .unpowered })

/-- R150, R151: a whole DISABLE.  Whatever the acknowledge bits, all 14 events are emitted; only the response and the
state it ends in depend on them. -/
def Obligations.DisableRuns : Prop :=
  ∀ (s : State) (rest : List Command) (a b c : Ack) (tw : List (Option Ack)),
    s.Offered .disable rest → s.life = .poweredIdle → s.twIn = some a :: some b :: some c :: tw →
    ∃ t, run 16 s = .next t ∧ t.trace = s.trace ++ disableEvents a b c ++ [.rsp t.status] ∧
      (if (a = .nack ∨ b = .nack ∨ c = .nack) ∧ s.cfg.nackPolicy = .fault
        then t.status = .busTransactionFailure ∧ t.life = .faulted
        else t.status = .ok ∧ t.life = .unpowered) ∧
      t.nack = (decide (a = .nack) || decide (b = .nack) || decide (c = .nack)) ∧ t.busy = false ∧
      (∀ p, p ≠ .wakeup → (t.lines.get p).dir = .input) ∧ t.bus.dir = .input ∧
      t.lines.wakeup = { dir := s.lines.wakeup.dir, level := false } ∧
      t.rows = s.rows ∧ t.host = rest ∧ t.twIn = tw ∧ t.cfg = s.cfg

/-- R146: a two-wire write whose transaction is not done leaves the block where it is, with nothing emitted, at every
poll; the master's report is all that is taken up. -/
def Obligations.UnfinishedWriteWaits : Prop :=
  (∀ s : State, s.seq = 2 ∨ ((s.seq = 4 ∨ s.seq = 6) ∧ (s.nack = false ∨ s.cfg.nackPolicy = .ignore)) →
    s.twReport = none → exec .enable s = .next { s with twIn := s.twIn.tail, draws := s.draws + 1 }) ∧
  (∀ s : State, s.seq = 8 ∨ s.seq = 10 ∨ s.seq = 12 → s.twReport = none →
    exec .disable s = .next { s with twIn := s.twIn.tail, draws := s.draws + 1 })

/-- R155, R156: ENABLE followed at once by DISABLE, every write acknowledged: exactly six writes, in order, and the
delays, whose sums are at least 32000 and 26000 microseconds. -/
def Obligations.EnableThenDisable : Prop :=
  ∀ (s : State) (rest : List Command) (tw : List (Option Ack)),
    s.Offered .enable (Instr.disable.command :: rest) → s.life = .unpowered →
    s.twIn = List.replicate 6 (some .ack) ++ tw →
    ∃ t new, run 34 s = .next t ∧ t.trace = s.trace ++ new ∧ t.life = .unpowered ∧ t.host = rest ∧
      responses new = [.ok, .ok] ∧
      twWrites new = [(0x01#8, 0x20#8), (0x01#8, 0xA0#8), (0x01#8, 0x3F#8),
                      (0x01#8, 0x2F#8), (0x01#8, 0x60#8), (0x01#8, 0x00#8)] ∧
      (waits (new.take 17)).sum = 32000 ∧ (waits (new.drop 17)).sum = 26000

/-- R95, R145: whatever the state, a two-wire write that a step emits is to device 0x68, register 0x01, with one of the
six values. -/
def Obligations.TwoWireWritesOnly : Prop :=
  ∀ (s t : State) (e : Event) (w : TwoWire), step s = .next t → t.trace = s.trace ++ [e] → e.twoWire = some w →
    w.device = 0x68#7 ∧
    ∃ v, w.bytes = [0x01#8, v] ∧ v ∈ [0x20#8, 0xA0#8, 0x3F#8, 0x2F#8, 0x60#8, 0x00#8]

/-- The frame of ENABLE and DISABLE: what one step of them leaves unchanged (R32, R33, R36; cmd at the response:
assumption 26). -/
def Obligations.PowerFrame : Prop :=
  ∀ (i : Instr) (s t : State), i = .enable ∨ i = .disable → exec i s = .next t →
    t.cfg = s.cfg ∧ t.rows = s.rows ∧ t.cmd = s.cmd ∧ t.host = s.host ∧ t.rstIn = s.rstIn ∧
    (∀ a, t.cmd.buf.read a = s.cmd.buf.read a) ∧
    (t.status = s.status ∧ t.busy = s.busy ∨ t.trace = s.trace ++ [.rsp t.status] ∧ t.busy = false) ∧
    (t.life = s.life ∨ s.seq = 0 ∨ t.trace = s.trace ++ [.rsp t.status]) ∧
    (t.nack = s.nack ∨ s.seq = 0 ∨ ∃ v, t.trace = s.trace ++ [.tw 0x01#8 v .nack]) ∧
    (t.twIn = s.twIn ∧ t.draws = s.draws ∨
      i = .enable ∧ (s.seq = 2 ∨ s.seq = 4 ∨ s.seq = 6) ∨ i = .disable ∧ (s.seq = 8 ∨ s.seq = 10 ∨ s.seq = 12)) ∧
    (∀ p, t.lines.get p = s.lines.get p ∨
      (∃ d, t.trace = s.trace ++ [.cfg p d]) ∨ (p = .wakeup ∧ t.trace = s.trace ++ [.set p false])) ∧
    (t.bus = s.bus ∨ ∃ d, t.trace = s.trace ++ [.cfgData d])

/-! ## BEGIN and END -/

/-- R173, R176: every step of BEGIN, completion included (that seq and cmd stay there: assumptions 9 and 26). -/
def Obligations.BeginSteps : Prop :=
  (∀ (s : State) (e : Event), (beginEvents s.cfg)[s.seq]? = some e → (s.seq = 0 → s.life = .poweredIdle) →
    exec .beginFrame s = .next (s.afterEvent e)) ∧
  (∀ s : State, s.seq = 7 →
    exec .beginFrame s = .next { s.answered .ok with life := .frameActive, rows := 0#10 })

/-- R175: every step of END, completion included (that seq and cmd stay there: assumptions 9 and 26). -/
def Obligations.EndSteps : Prop :=
  (∀ (s : State) (e : Event), endEvents[s.seq]? = some e →
    (s.seq = 0 → s.life = .frameActive ∧ (s.cfg.rowCountCheck = true → s.rows.toNat = s.cfg.height)) →
    exec .endFrame s = .next (s.afterEvent e)) ∧
  (∀ s : State, s.seq = 2 → exec .endFrame s = .next { s.answered .ok with life := .poweredIdle })

/-- R173, R175: a whole BEGIN and a whole END. -/
def Obligations.FrameCommandsRun : Prop :=
  (∀ (s : State) (rest : List Command), s.Offered .beginFrame rest → s.life = .poweredIdle →
    ∃ t, run 9 s = .next t ∧ t.trace = s.trace ++ beginEvents s.cfg ++ [.rsp .ok] ∧ t.life = .frameActive ∧
      t.rows = 0#10 ∧ t.status = .ok ∧ t.busy = false ∧ t.host = rest ∧ t.cfg = s.cfg ∧ t.nack = s.nack ∧
      t.lines = (((s.lines.at .oe true).at .mode true).at .ckv true).at .spv true ∧ t.bus = s.bus) ∧
  (∀ (s : State) (rest : List Command), s.Offered .endFrame rest → s.life = .frameActive →
    (s.cfg.rowCountCheck = true → s.rows.toNat = s.cfg.height) →
    ∃ t, run 4 s = .next t ∧ t.trace = s.trace ++ endEvents ++ [.rsp .ok] ∧ t.life = .poweredIdle ∧
      t.rows = s.rows ∧ t.status = .ok ∧ t.busy = false ∧ t.host = rest ∧ t.cfg = s.cfg ∧ t.nack = s.nack ∧
      t.lines = (s.lines.at .mode false).at .oe false ∧ t.bus = s.bus)

/-- The frame of BEGIN and END: what one step of them leaves unchanged (R173, R175; cmd at the response: assumption 26). -/
def Obligations.FrameCommandsFrame : Prop :=
  ∀ (i : Instr) (s t : State), i = .beginFrame ∨ i = .endFrame → exec i s = .next t →
    t.cfg = s.cfg ∧ t.bus = s.bus ∧ t.cmd = s.cmd ∧ t.nack = s.nack ∧ t.host = s.host ∧ t.rstIn = s.rstIn ∧
    t.twIn = s.twIn ∧ t.draws = s.draws ∧ (∀ a, t.cmd.buf.read a = s.cmd.buf.read a) ∧
    (∀ p, t.lines.get p = s.lines.get p ∨ p = .oe ∨ p = .mode ∨ (i = .beginFrame ∧ (p = .spv ∨ p = .ckv))) ∧
    (∀ p, (t.lines.get p).dir = (s.lines.get p).dir) ∧
    (t.rows = s.rows ∨ (i = .beginFrame ∧ s.seq = 7)) ∧
    (t.life = s.life ∨ s.seq = 7 ∨ (i = .endFrame ∧ s.seq = 2)) ∧
    (t.status = s.status ∧ t.busy = s.busy ∨ t.trace = s.trace ++ [.rsp t.status] ∧ t.busy = false)

/-! ## TRANSFER -/

/-- R121, R174: every step of XFER and XFER.E, completion included; the micro-program has 3G + 9 events, 777 at WIDTH
1024.  That seq and cmd stay at the response: assumptions 9 and 26. -/
def Obligations.TransferSteps : Prop :=
  (∀ (s : State) (buf : Memory) (e : Event), (rowEvents s.cfg buf false)[s.seq]? = some e →
    (s.seq = 0 → s.life = .frameActive ∧ (s.cfg.rowCountCheck = true → s.rows.toNat < s.cfg.height)) →
    exec (.xfer buf) s = .next (s.afterEvent e)) ∧
  (∀ (s : State) (buf : Memory) (e : Event), (rowEvents s.cfg buf true)[s.seq]? = some e →
    (s.seq = 0 → s.life = .frameActive ∧ (s.cfg.rowCountCheck = true → s.rows.toNat < s.cfg.height)) →
    exec (.xferE buf) s = .next (s.afterEvent e)) ∧
  (∀ (s : State) (buf : Memory), s.seq = 3 * s.cfg.groups + 9 →
    exec (.xfer buf) s = .next { s.answered .ok with rows := BitVec.ofNat 10 (min (s.rows.toNat + 1) 1023) } ∧
    exec (.xferE buf) s = .next { s.answered .ok with rows := BitVec.ofNat 10 (min (s.rows.toNat + 1) 1023) }) ∧
  (∀ (c : Config) (buf : Memory) (erase : Bool), (rowEvents c buf erase).length = 3 * c.groups + 9 ∧
    (c.width = 1024 → (rowEvents c buf erase).length = 777))

/-- R174, R131: a whole TRANSFER.  Offered to an idle block in a frame with rows to go, it emits the row's 3G + 9 events
and `RSP(OK)`, counts the row, and leaves STL = 1, CL = 0, LE = 0, CKV = 1 and the last group's byte on the data
lines. -/
def Obligations.TransferRuns : Prop :=
  ∀ (s : State) (rest : List Command) (buf : Memory) (erase : Bool) (i : Instr),
    i = (if erase then .xferE buf else .xfer buf) → s.Offered i rest → s.life = .frameActive →
    (s.cfg.rowCountCheck = true → s.rows.toNat < s.cfg.height) →
    ∃ t, run (3 * s.cfg.groups + 11) s = .next t ∧
      t.trace = s.trace ++ rowEvents s.cfg buf erase ++ [.rsp .ok] ∧ t.life = .frameActive ∧ t.status = .ok ∧
      t.busy = false ∧ t.rows = BitVec.ofNat 10 (min (s.rows.toNat + 1) 1023) ∧ t.host = rest ∧ t.cfg = s.cfg ∧
      t.nack = s.nack ∧ t.lines = (((s.lines.at .stl true).at .cl false).at .le false).at .ckv true ∧
      t.bus = { dir := s.bus.dir, byte := rowByte s.cfg buf erase (s.cfg.groups - 1) }

/-- R128: the counts of an admitted TRANSFER, and the order of its pulses: STL is low across the G data clocks and not
the flush clock; LE follows the last clock; CKV follows LE; nothing else of the block is touched. -/
def Obligations.RowPulseCounts : Prop :=
  ∀ (s : State) (rest : List Command) (buf : Memory) (erase : Bool) (i : Instr),
    i = (if erase then .xferE buf else .xfer buf) → s.Offered i rest → s.life = .frameActive →
    (s.cfg.rowCountCheck = true → s.rows.toNat < s.cfg.height) →
    ∃ t new, run (3 * s.cfg.groups + 11) s = .next t ∧ t.trace = s.trace ++ new ++ [.rsp .ok] ∧
      dataCount new = s.cfg.groups ∧
      setCount .cl true new = s.cfg.groups + 1 ∧ setCount .cl false new = s.cfg.groups + 1 ∧
      (s.cfg.width = 1024 → setCount .cl true new = 257) ∧
      setCount .le true new = 1 ∧ setCount .le false new = 1 ∧
      setCount .ckv false new = 1 ∧ setCount .ckv true new = 1 ∧
      setCount .stl false new = 1 ∧ setCount .stl true new = 1 ∧
      new = [.set .stl false] ++
        (List.range s.cfg.groups).flatMap
          (fun k => [.data (rowByte s.cfg buf erase k), .set .cl true, .set .cl false]) ++
        [.set .stl true, .set .cl true, .set .cl false, .set .le true, .set .le false, .set .ckv false,
         .wait s.cfg.tCkvLow, .set .ckv true] ∧
      (∀ e ∈ new, (∃ b, e = .data b) ∨ e = .wait s.cfg.tCkvLow ∨
        ∃ p v, e = .set p v ∧ (p = .stl ∨ p = .cl ∨ p = .le ∨ p = .ckv))

/-- R120, R174: the frame of XFER and XFER.E: what one step of them leaves unchanged (cmd at the response: assumption
26). -/
def Obligations.TransferFrame : Prop :=
  ∀ (i : Instr) (buf : Memory) (s t : State), i = .xfer buf ∨ i = .xferE buf → exec i s = .next t →
    t.cfg = s.cfg ∧ t.life = s.life ∧ t.cmd = s.cmd ∧ t.nack = s.nack ∧ t.host = s.host ∧ t.rstIn = s.rstIn ∧
    t.twIn = s.twIn ∧ t.draws = s.draws ∧ (∀ a, t.cmd.buf.read a = s.cmd.buf.read a) ∧
    (∀ p, t.lines.get p = s.lines.get p ∨ p = .stl ∨ p = .cl ∨ p = .le ∨ p = .ckv) ∧
    (∀ p, (t.lines.get p).dir = (s.lines.get p).dir) ∧ t.bus.dir = s.bus.dir ∧
    (t.bus.byte = s.bus.byte ∨ ∃ b, t.trace = s.trace ++ [.data b]) ∧
    (t.rows = s.rows ∨ s.seq = 3 * s.cfg.groups + 9) ∧
    (t.status = s.status ∧ t.busy = s.busy ∨ t.trace = s.trace ++ [.rsp t.status] ∧ t.busy = false)

/-- R129: with E = 1 no event depends on the operand: every data byte is 0xFF, and the list is the E = 0 list but for
those bytes; the operand is still read, the four indices of each group at its DATA step (one 10-bit port shown as the
list of its values in that step: assumption 22). -/
def Obligations.EraseIgnoresOperand : Prop :=
  (∀ (s : State) (buf buf' : Memory), exec (.xferE buf) s = exec (.xferE buf') s) ∧
  (∀ (c : Config) (buf : Memory), rowEvents c buf true = (rowEvents c buf false).map Event.erased) ∧
  (∀ (s : State) (buf : Memory) (k : Nat), s.rst = false → s.busy = true → s.fetch = .ok (.xferE buf) →
    k < s.cfg.groups → s.seq = 3 * k + 1 →
    s.portsOut.pxAddr = [4 * k, 4 * k + 1, 4 * k + 2, 4 * k + 3].map (BitVec.ofNat 10))

/-- R63: bits 7:1 of a scanline byte change no event and raise no error: two operands that agree on bit 0 everywhere
give the same step, in every state. -/
def Obligations.HighPixelBitsIgnored : Prop :=
  ∀ (s : State) (buf buf' : Memory), (∀ a, (buf.read a).getLsbD 0 = (buf'.read a).getLsbD 0) →
    exec (.xfer buf) s = exec (.xfer buf') s ∧ exec (.xferE buf) s = exec (.xferE buf') s

/-! ## The PixelEncoder -/

/-- R101, R102, R64: ENCODE for every table: the entry at index `{p0[0], p1[0], p2[0], p3[0]}`, p0 first and most
significant, and 0xFF when erasing; the rule's example gives 0xDF under the default table. -/
def Obligations.EncodeLooksUp : Prop :=
  (∀ (lut : Vector Byte 16) (p0 p1 p2 p3 : Byte),
    some (encodePixels lut p0 p1 p2 p3 false) = lut[8 * (p0.toNat % 2) + 4 * (p1.toNat % 2) + 2 * (p2.toNat % 2) +
      p3.toNat % 2]?) ∧
  (∀ (lut : Vector Byte 16) (p0 p1 p2 p3 : Byte), encodePixels lut p0 p1 p2 p3 true = 0xFF#8) ∧
  encodePixels defaultLut 0x01#8 0x00#8 0x01#8 0x01#8 false = 0xDF#8

/-- R105: ENCODE depends on five bits: inputs that agree on them give the same byte, for every table. -/
def Obligations.EncodeReadsFiveBits : Prop :=
  ∀ (lut : Vector Byte 16) (p0 p1 p2 p3 q0 q1 q2 q3 : Byte) (erase : Bool),
    p0.getLsbD 0 = q0.getLsbD 0 → p1.getLsbD 0 = q1.getLsbD 0 → p2.getLsbD 0 = q2.getLsbD 0 →
    p3.getLsbD 0 = q3.getLsbD 0 →
    encodePixels lut p0 p1 p2 p3 erase = encodePixels lut q0 q1 q2 q3 erase

/-- R104, R106: under the default table, `Lut(idx) = S(idx) | 0x55`; the even bits of every code are set and the odd
bits are the pixels' bits; the image is the table, to which the erase output adds nothing. -/
def Obligations.DefaultTableValues : Prop :=
  defaultConfig.lut = defaultLut ∧
  defaultLut.toList = [0x55#8, 0x57#8, 0x5D#8, 0x5F#8, 0x75#8, 0x77#8, 0x7D#8, 0x7F#8,
                       0xD5#8, 0xD7#8, 0xDD#8, 0xDF#8, 0xF5#8, 0xF7#8, 0xFD#8, 0xFF#8] ∧
  (∀ idx : BitVec 4, lutRead defaultLut idx = spreadIndex idx ||| 0x55#8) ∧
  (∀ (p0 p1 p2 p3 : Byte) (erase : Bool), encodePixels defaultLut p0 p1 p2 p3 erase ∈ defaultLut.toList ∧
    encodePixels defaultLut p0 p1 p2 p3 erase &&& 0x55#8 = 0x55#8) ∧
  (∀ p0 p1 p2 p3 : Byte,
    (encodePixels defaultLut p0 p1 p2 p3 false).getLsbD 7 = p0.getLsbD 0 ∧
    (encodePixels defaultLut p0 p1 p2 p3 false).getLsbD 5 = p1.getLsbD 0 ∧
    (encodePixels defaultLut p0 p1 p2 p3 false).getLsbD 3 = p2.getLsbD 0 ∧
    (encodePixels defaultLut p0 p1 p2 p3 false).getLsbD 1 = p3.getLsbD 0) ∧
  (∀ w ∈ defaultLut.toList, ∃ p0 p1 p2 p3, encodePixels defaultLut p0 p1 p2 p3 false = w)

/-- R92, R107: the four 2-bit lanes: under the default table lane j is `{pixel j, 1}`, and 0b11 when erasing. -/
def Obligations.WaveformLanes : Prop :=
  ∀ p0 p1 p2 p3 : Byte,
    (∀ j : Fin 4, waveField (encodePixels defaultLut p0 p1 p2 p3 false) j =
      BitVec.ofBool (([p0, p1, p2, p3].getD j 0x00#8).getLsbD 0) ++ 1#1) ∧
    (∀ (lut : Vector Byte 16) (j : Fin 4), waveField (encodePixels lut p0 p1 p2 p3 true) j = 0b11#2)

/-! ## Whole-machine rules -/

/-- R10, R31: exactly the well-formed configurations can be built. -/
def Obligations.ConfigurationsRefused : Prop :=
  ∀ p : Params, (Config.build p).isSome = true ↔
    p.width % 4 = 0 ∧ 4 ≤ p.width ∧ 1 ≤ p.height ∧ p.height ≤ 1023 ∧ 0 < p.tCkvLow ∧ 0 < p.tSync ∧
    p.pinMap.gpios.Nodup ∧ p.pinMap.gpios.length = 18 ∧ ∀ n ∈ p.pinMap.gpios, n < p.gpioCount

/-- R48, R207: the invariant holds after reset, whatever the configuration and the inputs to come. -/
def Obligations.InvariantAtReset : Prop :=
  State.reset.Inv ∧
  ∀ (c : Config) (host : List Command) (rstIn : List Bool) (twIn : List (Option Ack)) (n : Nat),
    (∀ o ∈ host, o.wf c.width = true) → (State.start c host rstIn twIn n).Inv

/-- R48, generalised to the middle of every command: every step keeps the invariant, from every state that has it,
whatever the two-wire master reports and whenever reset comes. -/
def Obligations.InvariantKept : Prop :=
  ∀ s t : State, s.Inv → step s = .next t → t.Inv

/-- R203, R215 ("Hang: none"): in a state with the invariant every step has a next state; no fault and no refusal.  For an
idle block with no offer and for an unfinished two-wire write, where R170 and R146 say that the block has no step, the
next state is that of the model's stuttering step (assumptions 6 and 8). -/
def Obligations.NoStepStops : Prop :=
  ∀ s : State, s.Inv → ∃ t, step s = .next t

/-- R48, whole: clauses (a) to (e) hold in every state that a run reaches from reset, for every configuration and every
list of inputs. -/
def Obligations.ReachableLevels : Prop :=
  ∀ (c : Config) (host : List Command) (rstIn : List Bool) (twIn : List (Option Ack)) (n k : Nat) (t : State),
    (∀ o ∈ host, o.wf c.width = true) → run k (State.start c host rstIn twIn n) = .next t →
    ((t.life = .poweredIdle ∨ t.life = .frameActive) → t.busy = false →
      (∀ p, (t.lines.get p).dir = .output) ∧ t.bus.dir = .output ∧ t.lines.wakeup.level = true) ∧
    (t.life = .frameActive → t.busy = false →
      t.lines.oe.level = true ∧ t.lines.mode.level = true ∧ t.lines.spv.level = true ∧ t.lines.ckv.level = true ∧
      t.lines.stl.level = true ∧ t.lines.le.level = false ∧ t.lines.cl.level = false) ∧
    (t.life = .poweredIdle → t.busy = false →
      t.lines.oe.level = false ∧ t.lines.mode.level = false ∧ t.lines.spv.level = true ∧
      t.lines.ckv.level = true ∧ t.lines.stl.level = true ∧ t.lines.le.level = false ∧
      t.lines.cl.level = false) ∧
    (t.life = .unpowered → t.busy = false →
      (∀ p, p ≠ .wakeup → (t.lines.get p).dir = .input) ∧ t.bus.dir = .input ∧
      (t.lines.wakeup.dir = .input ∨ t.lines.wakeup = { dir := .output, level := false })) ∧
    (t.cfg.rowCountCheck = true → t.rows.toNat ≤ t.cfg.height)

/-- R149, R236: no bus line is driven while the rails are not up: not before ENABLE's seq 8 is done, not once DISABLE's
seq 7 is, and not in `Unpowered` or `Faulted`. -/
def Obligations.NothingDrivenWithoutRails : Prop :=
  ∀ s : State, s.Inv →
    (s.life = .unpowered ∨ s.life = .faulted ∨ (s.life = .poweringUp ∧ s.seq ≤ 8) ∨
      (s.life = .poweringDown ∧ 8 ≤ s.seq)) →
    (∀ p, p ≠ .wakeup → (s.lines.get p).dir = .input) ∧ s.bus.dir = .input

/-- R91: no step emits `SET` or `DATA` to a line in the `In` direction. -/
def Obligations.OnlyOutputsChangeLevel : Prop :=
  ∀ s t : State, s.Inv → step s = .next t →
    (∀ p v, t.trace = s.trace ++ [.set p v] → (s.lines.get p).dir = .output) ∧
    (∀ b, t.trace = s.trace ++ [.data b] → s.bus.dir = .output)

/-- R172: the lifecycle changes only as the rule's table says, and `Faulted` is entered only under policy `Fault` with a
NACK recorded. -/
def Obligations.LifeTransitions : Prop :=
  ∀ s t : State, s.Inv → s.rst = false → step s = .next t → t.life ≠ s.life →
    (s.life = .unpowered ∧ t.life = .poweringUp ∧ s.fetch = .ok .enable) ∨
    (s.life = .poweringUp ∧ t.life = .poweredIdle ∧ s.fetch = .ok .enable ∧ t.status = .ok) ∨
    (s.life = .poweringUp ∧ t.life = .faulted ∧ s.fetch = .ok .enable ∧ s.nackFatal = true ∧
      t.status = .busTransactionFailure) ∨
    (s.life = .poweredIdle ∧ t.life = .frameActive ∧ s.fetch = .ok .beginFrame ∧ t.status = .ok) ∨
    (s.life = .frameActive ∧ t.life = .poweredIdle ∧ s.fetch = .ok .endFrame ∧ t.status = .ok) ∨
    (s.life = .poweredIdle ∧ t.life = .poweringDown ∧ s.fetch = .ok .disable) ∨
    (s.life = .poweringDown ∧ t.life = .unpowered ∧ s.fetch = .ok .disable ∧ t.status = .ok) ∨
    (s.life = .poweringDown ∧ t.life = .faulted ∧ s.fetch = .ok .disable ∧ s.nackFatal = true ∧
      t.status = .busTransactionFailure)

/-- R207: `Faulted` absorbs: a step without reset keeps it and every line, and answers a legal command with
`ProtocolViolation`; reset leaves it.  The lines are those the failing command left: bus lines high impedance, WAKEUP
driving 0. -/
def Obligations.FaultedAbsorbs : Prop :=
  ∀ s : State, s.Inv → s.life = .faulted →
    (∀ p, p ≠ .wakeup → (s.lines.get p).dir = .input) ∧ s.bus.dir = .input ∧
    s.lines.wakeup = { dir := .output, level := false } ∧
    (s.rst = false → ∃ t, step s = .next t ∧ t.life = .faulted ∧ t.lines = s.lines ∧ t.bus = s.bus ∧
      (s.busy = true → ∀ i, s.fetch = .ok i → t.trace = s.trace ++ [.rsp .protocolViolation]) ∧
      (s.busy = true → ∀ e, s.fetch = .error e → t.trace = s.trace ++ [.rsp .illegalCommand])) ∧
    (s.rst = true → ∃ t, step s = .next t ∧ t.life = .unpowered)

/-- R200 to R202, R206 (R215): the response that ends a command falls into one class.  A refused command has changed no
line, no bus line, not `life`, `rows` or `nack`; a faulted one leaves `Faulted`, with a NACK recorded under policy
`Fault`; a completed one does not. -/
def Obligations.OutcomesAreClassified : Prop :=
  ∀ s t : State, s.Inv → s.rst = false → step s = .next t → s.busy = true → t.busy = false →
    (t.status.outcome = some .completed ∧ t.status = .ok ∧ t.life ≠ .faulted) ∨
    (t.status.outcome = some .refused ∧ s.seq = 0 ∧ t.lines = s.lines ∧ t.bus = s.bus ∧ t.life = s.life ∧
      t.rows = s.rows ∧ t.nack = s.nack) ∨
    (t.status.outcome = some .faulted ∧ t.status = .busTransactionFailure ∧ t.life = .faulted ∧ t.nack = true ∧
      t.cfg.nackPolicy = .fault)

/-- R243, R232 say which resets are no hazard; what the lines are there follows from R147, R148, R150, R154 and R207: every
bus line is high impedance already, and WAKEUP is high impedance or drives 0. -/
def Obligations.ResetWithoutHazard : Prop :=
  ∀ s : State, s.Inv → s.resetHazard = false →
    s.busy = false ∧ (∀ p, p ≠ .wakeup → (s.lines.get p).dir = .input) ∧ s.bus.dir = .input ∧
    s.lines.wakeup ≠ { dir := .output, level := true }

/-- R38: what each step does to the row counter: BEGIN's completion clears it, a TRANSFER's completion counts up to
1023, nothing else changes it; a reset clears it. -/
def Obligations.RowCounter : Prop :=
  ∀ s t : State, step s = .next t →
    (s.rst = true ∧ t.rows = 0#10) ∨
    (s.rst = false ∧ s.busy = true ∧ s.fetch = .ok .beginFrame ∧ s.seq = 7 ∧ t.rows = 0#10) ∨
    (s.rst = false ∧ s.busy = true ∧ (∃ buf, s.fetch = .ok (.xfer buf) ∨ s.fetch = .ok (.xferE buf)) ∧
      s.seq = 3 * s.cfg.groups + 9 ∧ t.rows.toNat = min (s.rows.toNat + 1) 1023) ∨
    (s.rst = false ∧ t.rows = s.rows ∧
      ¬ (s.busy = true ∧ s.fetch = .ok .beginFrame ∧ s.seq = 7) ∧
      ¬ (s.busy = true ∧ (∃ buf, s.fetch = .ok (.xfer buf) ∨ s.fetch = .ok (.xferE buf)) ∧
        s.seq = 3 * s.cfg.groups + 9))

/-- R41: the source's PowerState and FrameState as views of `life`; both conditions for a bus transfer come down to
`FrameActive`. -/
def Obligations.PowerStateViews : Prop :=
  Life.powerState .unpowered = some .off ∧ Life.powerState .poweringUp = some .poweringUp ∧
  Life.powerState .poweredIdle = some .on ∧ Life.powerState .frameActive = some .on ∧
  Life.powerState .poweringDown = some .poweringDown ∧ Life.powerState .faulted = none ∧
  (∀ l : Life, l.frameState = .active ↔ l = .frameActive) ∧
  (∀ l : Life, l.frameState = .active ∧ l.powerState = some .on ↔ l = .frameActive)

/-- R37, R39, R84: the codes of `life` and `status`; no two states share one. -/
def Obligations.FieldCodes : Prop :=
  Life.code .unpowered = 0#3 ∧ Life.code .poweringUp = 1#3 ∧ Life.code .poweredIdle = 2#3 ∧
  Life.code .frameActive = 3#3 ∧ Life.code .poweringDown = 4#3 ∧ Life.code .faulted = 5#3 ∧
  Status.code .ok = 0#3 ∧ Status.code .protocolViolation = 1#3 ∧ Status.code .rowCountMismatch = 2#3 ∧
  Status.code .busTransactionFailure = 3#3 ∧ Status.code .illegalCommand = 4#3 ∧ Status.code .none = 7#3 ∧
  (∀ l m : Life, l.code = m.code → l = m) ∧ (∀ a b : Status, a.code = b.code → a = b)

/-- R66: at a step that emits a DATA event, data line D_i becomes bit i of its byte; all eight change together (R35,
R70), and no discrete line changes. -/
def Obligations.DataLinesCarryBits : Prop :=
  ∀ (s t : State) (b : Byte), s.bus.dir = .output → step s = .next t → t.trace = s.trace ++ [.data b] →
    (∀ i, i < 8 → t.dataLine i = some (b.getLsbD i)) ∧ t.lines = s.lines

/-- R46, R47 (`pin`, `data` unread), R39: no step of a command reads the trace, the lines or the last status.  From two
states that differ only there, it emits the same events and leaves states that again differ only there; the status is
the one it responds with, or the one it found. -/
def Obligations.TraceAndLinesUnread : Prop :=
  ∀ (i : Instr) (s t : State) (tr : List Event) (l : Lines) (b : Bus) (st : Status), exec i s = .next t →
    ∃ new, t.trace = s.trace ++ new ∧
      exec i { s with trace := tr, lines := l, bus := b, status := st } =
        .next { t with trace := tr ++ new, lines := new.foldl (fun m e => e.onLines m) l,
                       bus := new.foldl (fun m e => e.onBus m) b, status := (responses new).getLastD st }

/-- R215: with the two-wire master completing its writes and no reset, an accepted command responds, once, within
3G + 10 steps of the block, or within ENABLE's 17 on a panel so narrow that 3G + 10 is less (NOTES.md: G below 3).  The
polls at which a write is not yet done are no steps of the block (R146; assumption 8): there are `u` of them, and they are
counted apart. -/
def Obligations.EveryCommandResponds : Prop :=
  ∀ s : State, s.Inv → s.busy = true → s.seq = 0 → s.noReset → 3 ≤ s.twIn.countP Option.isSome →
    ∃ k t new st u, run k s = .next t ∧ t.trace = s.trace ++ new ∧ t.busy = false ∧ t.status = st ∧
      responses new = [st] ∧ t.draws = s.draws + (twWrites new).length + u ∧ u ≤ s.twIn.count none ∧
      k ≤ max 17 (3 * s.cfg.groups + 10) + u

/-- R177, R178: a complete frame, BEGIN, HEIGHT TRANSFERs of either kind and END, each `OK`, in a number of steps, with
the rule's pulse counts. -/
def Obligations.FramePulseCounts : Prop :=
  ∀ (s : State) (rows : List (Bool × Memory)) (rest : List Command), s.busy = false → s.noReset →
    s.life = .poweredIdle → rows.length = s.cfg.height → (∀ r ∈ rows, r.2.fits s.cfg.width = true) →
    s.host = Instr.beginFrame.command ::
      (rows.map fun r => (if r.1 then Instr.xferE r.2 else Instr.xfer r.2).command) ++
        Instr.endFrame.command :: rest →
    ∃ k t new, run k s = .next t ∧ t.trace = s.trace ++ new ∧ t.busy = false ∧ t.life = .poweredIdle ∧
      t.rows.toNat = s.cfg.height ∧ t.host = rest ∧
      responses new = List.replicate (s.cfg.height + 2) .ok ∧
      setCount .cl true new = s.cfg.height * (s.cfg.groups + 1) ∧
      setCount .le true new = s.cfg.height ∧ setCount .ckv false new = s.cfg.height + 1 ∧
      (s.cfg.width = 1024 → s.cfg.height = 758 →
        setCount .cl true new = 194806 ∧ setCount .le true new = 758 ∧ setCount .ckv false new = 759)

/-! ## Scanline reads, and a command that is stuck -/

/-- R121, R61, R64: the scanline reads of XFER and XFER.E: those of group k in index order at seq 3k+1, answered with the
operand's bytes (R240), and none at any other step.  One 10-bit address port and one 8-bit data port are shown as the
lists of their values in the step (assumption 22). -/
def Obligations.TransferReads : Prop :=
  ∀ (s : State) (buf : Memory), s.rst = false → s.busy = true →
    s.fetch = .ok (.xfer buf) ∨ s.fetch = .ok (.xferE buf) →
    (∀ k, k < s.cfg.groups → s.seq = 3 * k + 1 →
      s.portsOut.pxAddr = [4 * k, 4 * k + 1, 4 * k + 2, 4 * k + 3].map (BitVec.ofNat 10) ∧
      s.portsIn.pxData = [buf.read (4 * k), buf.read (4 * k + 1), buf.read (4 * k + 2), buf.read (4 * k + 3)]) ∧
    ((∀ k, k < s.cfg.groups → s.seq ≠ 3 * k + 1) → s.portsOut.pxAddr = [] ∧ s.portsIn.pxData = [])

/-- R215 (Stuck), R146: while the master reports a write not done, the command is stuck: no step of the block, `busy = 1`,
no response, at every step until it reports otherwise, and no other class.  It is stuck for good exactly when the master
never reports the write done; only reset moves the block then (`ResetAnywhere`).  The polls are the model's stuttering
steps (assumption 8). -/
def Obligations.StuckWithoutCompletion : Prop :=
  (∀ (s : State) (n : Nat) (tw : List (Option Ack)), s.noReset → s.writeRequest.isSome = true →
    s.twIn = List.replicate n none ++ tw → ∀ k, k ≤ n →
    ∃ t, run k s = .next t ∧ t.busy = true ∧ (k < n → t.outcome = some .stuck) ∧
      t = { s with rstIn := s.rstIn.drop k, twIn := List.replicate (n - k) none ++ tw, draws := s.draws + k }) ∧
  (∀ s : State, s.noReset → (s.Stuck ↔ ∀ k, ∃ t, run k s = .next t ∧ t.outcome = some .stuck))
end

