-- ==== Sys2Proof/Laws/Lines.lean ====
section
/-! SUPPORT. Reading a line after writing one, and what each event does to each line (spec/30_encoding.md R91). -/

namespace Sys2Proof.Machine

@[simp] theorem Lines.get_set_self (l : Lines) (p : Line) (x : Pad) : (l.set p x).get p = x := by
  cases p <;> rfl

theorem Lines.get_set_of_ne (l : Lines) {p q : Line} (x : Pad) (h : q ≠ p) : (l.set p x).get q = l.get q := by
  cases p <;> cases q <;> first | rfl | exact absurd rfl h

theorem Lines.get_set (l : Lines) (p q : Line) (x : Pad) :
    (l.set p x).get q = if q = p then x else l.get q := by
  split
  · next h => subst h; simp
  · next h => exact Lines.get_set_of_ne l x h

/-- Two banks of lines that read alike line by line are the same. -/
theorem Lines.ext_get {l m : Lines} (h : ∀ p, l.get p = m.get p) : l = m := by
  cases l
  cases m
  have h1 := h .spv
  have h2 := h .ckv
  have h3 := h .mode
  have h4 := h .stl
  have h5 := h .oe
  have h6 := h .le
  have h7 := h .cl
  have h8 := h .wakeup
  simp only [Lines.get] at h1 h2 h3 h4 h5 h6 h7 h8
  simp [*]

@[simp] theorem Lines.get_reset (p : Line) : Lines.reset.get p = Pad.reset := by
  cases p <;> rfl

/-! ## The effect of each event -/

@[simp] theorem Event.onLines_cfg_input (l : Lines) (p : Line) :
    (Event.cfg p .input).onLines l = l.set p { dir := .input, level := (l.get p).level } := rfl
@[simp] theorem Event.onLines_cfg_out (l : Lines) (p : Line) (v : Bool) :
    (Event.cfg p (.out v)).onLines l = l.set p { dir := .output, level := v } := rfl
@[simp] theorem Event.onLines_set (l : Lines) (p : Line) (v : Bool) :
    (Event.set p v).onLines l = l.set p { dir := (l.get p).dir, level := v } := rfl
@[simp] theorem Event.onLines_cfgData (l : Lines) (d : Drive Byte) : (Event.cfgData d).onLines l = l := rfl
@[simp] theorem Event.onLines_data (l : Lines) (b : Byte) : (Event.data b).onLines l = l := rfl
@[simp] theorem Event.onLines_wait (l : Lines) (t : Rat) : (Event.wait t).onLines l = l := rfl
@[simp] theorem Event.onLines_tw (l : Lines) (r v : Byte) (a : Ack) : (Event.tw r v a).onLines l = l := rfl
@[simp] theorem Event.onLines_rsp (l : Lines) (s : Status) : (Event.rsp s).onLines l = l := rfl

@[simp] theorem Event.onBus_cfg (b : Bus) (p : Line) (d : Drive Bool) : (Event.cfg p d).onBus b = b := rfl
@[simp] theorem Event.onBus_set (b : Bus) (p : Line) (v : Bool) : (Event.set p v).onBus b = b := rfl
@[simp] theorem Event.onBus_cfgData_input (b : Bus) :
    (Event.cfgData .input).onBus b = { dir := .input, byte := b.byte } := rfl
@[simp] theorem Event.onBus_cfgData_out (b : Bus) (v : Byte) :
    (Event.cfgData (.out v)).onBus b = { dir := .output, byte := v } := rfl
@[simp] theorem Event.onBus_data (b : Bus) (v : Byte) :
    (Event.data v).onBus b = { dir := b.dir, byte := v } := rfl
@[simp] theorem Event.onBus_wait (b : Bus) (t : Rat) : (Event.wait t).onBus b = b := rfl
@[simp] theorem Event.onBus_tw (b : Bus) (r v : Byte) (a : Ack) : (Event.tw r v a).onBus b = b := rfl
@[simp] theorem Event.onBus_rsp (b : Bus) (s : Status) : (Event.rsp s).onBus b = b := rfl

@[simp] theorem Pad.drive_output (v : Bool) : (Pad.mk .output v).drive = some v := rfl
@[simp] theorem Pad.drive_input (v : Bool) : (Pad.mk .input v).drive = none := rfl

/-- A line that drives a level is an output at that level. -/
theorem Pad.drive_eq_some {x : Pad} {v : Bool} : x.drive = some v ↔ x = { dir := .output, level := v } := by
  rcases x with ⟨d, w⟩
  cases d <;> simp [Pad.drive]

/-- A line that drives nothing is high impedance. -/
theorem Pad.drive_eq_none {x : Pad} : x.drive = none ↔ x.dir = .input := by
  rcases x with ⟨d, w⟩
  cases d <;> simp [Pad.drive]

end Sys2Proof.Machine
end

