-- ==== Sys2Proof/Laws/Memory.lean ====
section
/-! SUPPORT. The operand's canonical form: every operation that builds an operand keeps it, reading is what it should
be, and writing the bytes out and reading them back gives the operand again. -/

namespace Sys2Proof

theorem Memory.risesFrom_mono {m : Memory} {lo lo' : Nat} (h : lo' ≤ lo) (hm : m.risesFrom lo = true) :
    m.risesFrom lo' = true := by
  cases m with
  | nil => rfl
  | cons c m =>
    obtain ⟨a, b⟩ := c
    simp only [Memory.risesFrom, Bool.and_eq_true, decide_eq_true_eq] at hm ⊢
    exact ⟨⟨h.trans hm.1.1, hm.1.2⟩, hm.2⟩

theorem Memory.ofBytesFrom_risesFrom (bs : List Byte) (start : Nat) :
    (Memory.ofBytesFrom start bs).risesFrom start = true := by
  induction bs generalizing start with
  | nil => rfl
  | cons b bs ih =>
    unfold Memory.ofBytesFrom
    split
    · exact Memory.risesFrom_mono (Nat.le_succ start) (ih (start + 1))
    · simp_all [Memory.risesFrom]

/-- `ofBytes` builds a canonical operand, whatever the bytes. -/
theorem Memory.ofBytes_wf (bs : List Byte) : (Memory.ofBytes bs).wf = true :=
  Memory.ofBytesFrom_risesFrom bs 0

theorem Memory.ofBytesFrom_bound (bs : List Byte) (start : Nat) :
    ∀ c ∈ Memory.ofBytesFrom start bs, c.1 < start + bs.length := by
  induction bs generalizing start with
  | nil => simp [Memory.ofBytesFrom]
  | cons b bs ih =>
    intro c hc
    unfold Memory.ofBytesFrom at hc
    simp only [List.length_cons]
    split at hc
    · have := ih (start + 1) c hc
      omega
    · rcases List.mem_cons.1 hc with rfl | hc
      · simp
      · have := ih (start + 1) c hc
        omega

/-- WIDTH bytes make an operand of exactly WIDTH bytes (R62). -/
theorem Memory.ofBytes_fits (bs : List Byte) : (Memory.ofBytes bs).fits bs.length = true := by
  have h := Memory.ofBytesFrom_bound bs 0
  simp only [Memory.fits, Memory.ofBytes_wf, Bool.true_and, List.all_eq_true, decide_eq_true_eq]
  intro c hc
  simpa using h c hc

/-- The operand of no bytes fits every width. -/
@[simp] theorem Memory.nil_fits (width : Nat) : Memory.fits [] width = true := rfl

theorem Memory.read_of_risesFrom {m : Memory} {lo i : Nat} (hm : m.risesFrom lo = true) (hi : i < lo) :
    m.read i = 0#8 := by
  induction m generalizing lo with
  | nil => rfl
  | cons c m ih =>
    obtain ⟨a, b⟩ := c
    simp only [Memory.risesFrom, Bool.and_eq_true, decide_eq_true_eq] at hm
    have hne : a ≠ i := by omega
    simp only [Memory.read, hne, if_false]
    exact ih hm.2 (by omega)

@[simp] theorem Memory.bytesFrom_length (m : Memory) (start n : Nat) : (m.bytesFrom start n).length = n := by
  induction n generalizing start with
  | zero => rfl
  | succ n ih => simp [Memory.bytesFrom, ih]

@[simp] theorem Memory.toBytes_length (m : Memory) (width : Nat) : (m.toBytes width).length = width :=
  Memory.bytesFrom_length m 0 width

theorem Memory.bytesFrom_cons_lt {a : Nat} {b : Byte} {m : Memory} {start : Nat} (h : a < start) (n : Nat) :
    Memory.bytesFrom ((a, b) :: m) start n = m.bytesFrom start n := by
  induction n generalizing start with
  | zero => rfl
  | succ n ih =>
    have hne : a ≠ start := by omega
    simp [Memory.bytesFrom, Memory.read, hne, ih (start := start + 1) (by omega)]

/-- Writing out the `n` bytes from `start` and reading them back gives the operand, when they cover it. -/
theorem Memory.ofBytesFrom_bytesFrom {m : Memory} {start n : Nat} (hm : m.risesFrom start = true)
    (hb : ∀ c ∈ m, c.1 < start + n) : Memory.ofBytesFrom start (m.bytesFrom start n) = m := by
  induction n generalizing m start with
  | zero =>
    cases m with
    | nil => rfl
    | cons c m =>
      have := hb c (by simp)
      simp only [Memory.risesFrom, Bool.and_eq_true, decide_eq_true_eq] at hm
      omega
  | succ n ih =>
    cases m with
    | nil =>
      have := ih (m := []) (start := start + 1) rfl (by simp)
      simpa [Memory.bytesFrom, Memory.ofBytesFrom, Memory.read] using this
    | cons c m =>
      obtain ⟨a, b⟩ := c
      have hm' := hm
      simp only [Memory.risesFrom, Bool.and_eq_true, decide_eq_true_eq, bne_iff_ne] at hm
      obtain ⟨⟨hle, hb0⟩, hrest⟩ := hm
      rcases Nat.eq_or_lt_of_le hle with heq | hlt
      · subst heq
        have key := ih (m := m) (start := start + 1) hrest
          (fun c hc => by have := hb c (by simp [hc]); omega)
        have hread : Memory.read ((start, b) :: m) start = b := by simp [Memory.read]
        simp only [Memory.bytesFrom, hread, Memory.ofBytesFrom, hb0, if_false,
          Memory.bytesFrom_cons_lt (Nat.lt_succ_self start), key]
      · have hread : Memory.read ((a, b) :: m) start = 0#8 :=
          Memory.read_of_risesFrom (lo := start + 1) (by
            simp only [Memory.risesFrom, Bool.and_eq_true, decide_eq_true_eq, bne_iff_ne]
            exact ⟨⟨hlt, hb0⟩, hrest⟩) (Nat.lt_succ_self start)
        have key := ih (m := (a, b) :: m) (start := start + 1)
          (by simp only [Memory.risesFrom, Bool.and_eq_true, decide_eq_true_eq, bne_iff_ne]
              exact ⟨⟨hlt, hb0⟩, hrest⟩)
          (fun c hc => by have := hb c hc; omega)
        simp [Memory.bytesFrom, Memory.ofBytesFrom, hread, key]

/-- What `fits` says, cell by cell. -/
theorem Memory.fits_iff {m : Memory} {width : Nat} :
    m.fits width = true ↔ m.wf = true ∧ ∀ c ∈ m, c.1 < width := by
  simp [Memory.fits, List.all_eq_true]

/-- A read of an existing scanline index answers the byte there (R61). -/
theorem Memory.memRead_eq {m : Memory} {width i : Nat} (h : i < width) : m.memRead width i = some (m.read i) := by
  simp [Memory.memRead, h]

end Sys2Proof
end

