-- ==== Sys2Proof/Laws/State.lean ====
section
/-! SUPPORT. One lemma per field per update of State, each true by rfl, so that no later proof unfolds a record
update. -/

namespace Sys2Proof.Machine

@[simp] theorem State.emit_cfg (s : State) (e : Event) : (s.emit e).cfg = s.cfg := rfl
@[simp] theorem State.emit_lines (s : State) (e : Event) : (s.emit e).lines = e.onLines s.lines := rfl
@[simp] theorem State.emit_bus (s : State) (e : Event) : (s.emit e).bus = e.onBus s.bus := rfl
@[simp] theorem State.emit_busy (s : State) (e : Event) : (s.emit e).busy = s.busy := rfl
@[simp] theorem State.emit_cmd (s : State) (e : Event) : (s.emit e).cmd = s.cmd := rfl
@[simp] theorem State.emit_seq (s : State) (e : Event) : (s.emit e).seq = s.seq := rfl
@[simp] theorem State.emit_life (s : State) (e : Event) : (s.emit e).life = s.life := rfl
@[simp] theorem State.emit_rows (s : State) (e : Event) : (s.emit e).rows = s.rows := rfl
@[simp] theorem State.emit_status (s : State) (e : Event) : (s.emit e).status = s.status := rfl
@[simp] theorem State.emit_nack (s : State) (e : Event) : (s.emit e).nack = s.nack := rfl
@[simp] theorem State.emit_trace (s : State) (e : Event) : (s.emit e).trace = s.trace ++ [e] := rfl
@[simp] theorem State.emit_host (s : State) (e : Event) : (s.emit e).host = s.host := rfl
@[simp] theorem State.emit_rstIn (s : State) (e : Event) : (s.emit e).rstIn = s.rstIn := rfl
@[simp] theorem State.emit_twIn (s : State) (e : Event) : (s.emit e).twIn = s.twIn := rfl
@[simp] theorem State.emit_draws (s : State) (e : Event) : (s.emit e).draws = s.draws := rfl

@[simp] theorem State.advance_cfg (s : State) : s.advance.cfg = s.cfg := rfl
@[simp] theorem State.advance_lines (s : State) : s.advance.lines = s.lines := rfl
@[simp] theorem State.advance_bus (s : State) : s.advance.bus = s.bus := rfl
@[simp] theorem State.advance_busy (s : State) : s.advance.busy = s.busy := rfl
@[simp] theorem State.advance_cmd (s : State) : s.advance.cmd = s.cmd := rfl
@[simp] theorem State.advance_seq (s : State) : s.advance.seq = s.seq + 1 := rfl
@[simp] theorem State.advance_life (s : State) : s.advance.life = s.life := rfl
@[simp] theorem State.advance_rows (s : State) : s.advance.rows = s.rows := rfl
@[simp] theorem State.advance_status (s : State) : s.advance.status = s.status := rfl
@[simp] theorem State.advance_nack (s : State) : s.advance.nack = s.nack := rfl
@[simp] theorem State.advance_trace (s : State) : s.advance.trace = s.trace := rfl
@[simp] theorem State.advance_host (s : State) : s.advance.host = s.host := rfl
@[simp] theorem State.advance_rstIn (s : State) : s.advance.rstIn = s.rstIn := rfl
@[simp] theorem State.advance_twIn (s : State) : s.advance.twIn = s.twIn := rfl
@[simp] theorem State.advance_draws (s : State) : s.advance.draws = s.draws := rfl

@[simp] theorem State.enter_cfg (s : State) (l : Life) : (s.enter l).cfg = s.cfg := rfl
@[simp] theorem State.enter_lines (s : State) (l : Life) : (s.enter l).lines = s.lines := rfl
@[simp] theorem State.enter_bus (s : State) (l : Life) : (s.enter l).bus = s.bus := rfl
@[simp] theorem State.enter_busy (s : State) (l : Life) : (s.enter l).busy = s.busy := rfl
@[simp] theorem State.enter_cmd (s : State) (l : Life) : (s.enter l).cmd = s.cmd := rfl
@[simp] theorem State.enter_seq (s : State) (l : Life) : (s.enter l).seq = s.seq := rfl
@[simp] theorem State.enter_life (s : State) (l : Life) : (s.enter l).life = l := rfl
@[simp] theorem State.enter_rows (s : State) (l : Life) : (s.enter l).rows = s.rows := rfl
@[simp] theorem State.enter_status (s : State) (l : Life) : (s.enter l).status = s.status := rfl
@[simp] theorem State.enter_nack (s : State) (l : Life) : (s.enter l).nack = false := rfl
@[simp] theorem State.enter_trace (s : State) (l : Life) : (s.enter l).trace = s.trace := rfl
@[simp] theorem State.enter_host (s : State) (l : Life) : (s.enter l).host = s.host := rfl
@[simp] theorem State.enter_rstIn (s : State) (l : Life) : (s.enter l).rstIn = s.rstIn := rfl
@[simp] theorem State.enter_twIn (s : State) (l : Life) : (s.enter l).twIn = s.twIn := rfl
@[simp] theorem State.enter_draws (s : State) (l : Life) : (s.enter l).draws = s.draws := rfl

@[simp] theorem State.noteAck_cfg (s : State) (a : Ack) : (s.noteAck a).cfg = s.cfg := rfl
@[simp] theorem State.noteAck_lines (s : State) (a : Ack) : (s.noteAck a).lines = s.lines := rfl
@[simp] theorem State.noteAck_bus (s : State) (a : Ack) : (s.noteAck a).bus = s.bus := rfl
@[simp] theorem State.noteAck_busy (s : State) (a : Ack) : (s.noteAck a).busy = s.busy := rfl
@[simp] theorem State.noteAck_cmd (s : State) (a : Ack) : (s.noteAck a).cmd = s.cmd := rfl
@[simp] theorem State.noteAck_seq (s : State) (a : Ack) : (s.noteAck a).seq = s.seq := rfl
@[simp] theorem State.noteAck_life (s : State) (a : Ack) : (s.noteAck a).life = s.life := rfl
@[simp] theorem State.noteAck_rows (s : State) (a : Ack) : (s.noteAck a).rows = s.rows := rfl
@[simp] theorem State.noteAck_status (s : State) (a : Ack) : (s.noteAck a).status = s.status := rfl
@[simp] theorem State.noteAck_nack (s : State) (a : Ack) : (s.noteAck a).nack = (s.nack || decide (a = .nack)) := rfl
@[simp] theorem State.noteAck_trace (s : State) (a : Ack) : (s.noteAck a).trace = s.trace := rfl
@[simp] theorem State.noteAck_host (s : State) (a : Ack) : (s.noteAck a).host = s.host := rfl
@[simp] theorem State.noteAck_rstIn (s : State) (a : Ack) : (s.noteAck a).rstIn = s.rstIn := rfl
@[simp] theorem State.noteAck_twIn (s : State) (a : Ack) : (s.noteAck a).twIn = s.twIn := rfl
@[simp] theorem State.noteAck_draws (s : State) (a : Ack) : (s.noteAck a).draws = s.draws := rfl

@[simp] theorem State.respond_cfg (s : State) (st : Status) : (s.respond st).cfg = s.cfg := rfl
@[simp] theorem State.respond_lines (s : State) (st : Status) : (s.respond st).lines = s.lines := rfl
@[simp] theorem State.respond_bus (s : State) (st : Status) : (s.respond st).bus = s.bus := rfl
@[simp] theorem State.respond_busy (s : State) (st : Status) : (s.respond st).busy = false := rfl
@[simp] theorem State.respond_cmd (s : State) (st : Status) : (s.respond st).cmd = s.cmd := rfl
@[simp] theorem State.respond_seq (s : State) (st : Status) : (s.respond st).seq = s.seq := rfl
@[simp] theorem State.respond_life (s : State) (st : Status) : (s.respond st).life = s.life := rfl
@[simp] theorem State.respond_rows (s : State) (st : Status) : (s.respond st).rows = s.rows := rfl
@[simp] theorem State.respond_status (s : State) (st : Status) : (s.respond st).status = st := rfl
@[simp] theorem State.respond_nack (s : State) (st : Status) : (s.respond st).nack = s.nack := rfl
@[simp] theorem State.respond_trace (s : State) (st : Status) : (s.respond st).trace = s.trace ++ [.rsp st] := rfl
@[simp] theorem State.respond_host (s : State) (st : Status) : (s.respond st).host = s.host := rfl
@[simp] theorem State.respond_rstIn (s : State) (st : Status) : (s.respond st).rstIn = s.rstIn := rfl
@[simp] theorem State.respond_twIn (s : State) (st : Status) : (s.respond st).twIn = s.twIn := rfl
@[simp] theorem State.respond_draws (s : State) (st : Status) : (s.respond st).draws = s.draws := rfl

@[simp] theorem State.settle_cfg (s : State) (l : Life) (r : BitVec 10) : (s.settle l r).cfg = s.cfg := rfl
@[simp] theorem State.settle_lines (s : State) (l : Life) (r : BitVec 10) : (s.settle l r).lines = s.lines := rfl
@[simp] theorem State.settle_bus (s : State) (l : Life) (r : BitVec 10) : (s.settle l r).bus = s.bus := rfl
@[simp] theorem State.settle_busy (s : State) (l : Life) (r : BitVec 10) : (s.settle l r).busy = s.busy := rfl
@[simp] theorem State.settle_cmd (s : State) (l : Life) (r : BitVec 10) : (s.settle l r).cmd = s.cmd := rfl
@[simp] theorem State.settle_seq (s : State) (l : Life) (r : BitVec 10) : (s.settle l r).seq = s.seq := rfl
@[simp] theorem State.settle_life (s : State) (l : Life) (r : BitVec 10) : (s.settle l r).life = l := rfl
@[simp] theorem State.settle_rows (s : State) (l : Life) (r : BitVec 10) : (s.settle l r).rows = r := rfl
@[simp] theorem State.settle_status (s : State) (l : Life) (r : BitVec 10) : (s.settle l r).status = s.status := rfl
@[simp] theorem State.settle_nack (s : State) (l : Life) (r : BitVec 10) : (s.settle l r).nack = s.nack := rfl
@[simp] theorem State.settle_trace (s : State) (l : Life) (r : BitVec 10) : (s.settle l r).trace = s.trace := rfl
@[simp] theorem State.settle_host (s : State) (l : Life) (r : BitVec 10) : (s.settle l r).host = s.host := rfl
@[simp] theorem State.settle_rstIn (s : State) (l : Life) (r : BitVec 10) : (s.settle l r).rstIn = s.rstIn := rfl
@[simp] theorem State.settle_twIn (s : State) (l : Life) (r : BitVec 10) : (s.settle l r).twIn = s.twIn := rfl
@[simp] theorem State.settle_draws (s : State) (l : Life) (r : BitVec 10) : (s.settle l r).draws = s.draws := rfl

@[simp] theorem State.poll_cfg (s : State) : s.poll.cfg = s.cfg := rfl
@[simp] theorem State.poll_lines (s : State) : s.poll.lines = s.lines := rfl
@[simp] theorem State.poll_bus (s : State) : s.poll.bus = s.bus := rfl
@[simp] theorem State.poll_busy (s : State) : s.poll.busy = s.busy := rfl
@[simp] theorem State.poll_cmd (s : State) : s.poll.cmd = s.cmd := rfl
@[simp] theorem State.poll_seq (s : State) : s.poll.seq = s.seq := rfl
@[simp] theorem State.poll_life (s : State) : s.poll.life = s.life := rfl
@[simp] theorem State.poll_rows (s : State) : s.poll.rows = s.rows := rfl
@[simp] theorem State.poll_status (s : State) : s.poll.status = s.status := rfl
@[simp] theorem State.poll_nack (s : State) : s.poll.nack = s.nack := rfl
@[simp] theorem State.poll_trace (s : State) : s.poll.trace = s.trace := rfl
@[simp] theorem State.poll_host (s : State) : s.poll.host = s.host := rfl
@[simp] theorem State.poll_rstIn (s : State) : s.poll.rstIn = s.rstIn := rfl
@[simp] theorem State.poll_twIn (s : State) : s.poll.twIn = s.twIn.tail := rfl
@[simp] theorem State.poll_draws (s : State) : s.poll.draws = s.draws + 1 := rfl

@[simp] theorem State.clock_cfg (s : State) : s.clock.cfg = s.cfg := rfl
@[simp] theorem State.clock_lines (s : State) : s.clock.lines = s.lines := rfl
@[simp] theorem State.clock_bus (s : State) : s.clock.bus = s.bus := rfl
@[simp] theorem State.clock_busy (s : State) : s.clock.busy = s.busy := rfl
@[simp] theorem State.clock_cmd (s : State) : s.clock.cmd = s.cmd := rfl
@[simp] theorem State.clock_seq (s : State) : s.clock.seq = s.seq := rfl
@[simp] theorem State.clock_life (s : State) : s.clock.life = s.life := rfl
@[simp] theorem State.clock_rows (s : State) : s.clock.rows = s.rows := rfl
@[simp] theorem State.clock_status (s : State) : s.clock.status = s.status := rfl
@[simp] theorem State.clock_nack (s : State) : s.clock.nack = s.nack := rfl
@[simp] theorem State.clock_trace (s : State) : s.clock.trace = s.trace := rfl
@[simp] theorem State.clock_host (s : State) : s.clock.host = s.host := rfl
@[simp] theorem State.clock_rstIn (s : State) : s.clock.rstIn = s.rstIn.tail := rfl
@[simp] theorem State.clock_twIn (s : State) : s.clock.twIn = s.twIn := rfl
@[simp] theorem State.clock_draws (s : State) : s.clock.draws = s.draws := rfl

@[simp] theorem State.accept_cfg (s : State) (c : Command) (rest : List Command) : (s.accept c rest).cfg = s.cfg := rfl
@[simp] theorem State.accept_lines (s : State) (c : Command) (rest : List Command) : (s.accept c rest).lines = s.lines := rfl
@[simp] theorem State.accept_bus (s : State) (c : Command) (rest : List Command) : (s.accept c rest).bus = s.bus := rfl
@[simp] theorem State.accept_busy (s : State) (c : Command) (rest : List Command) : (s.accept c rest).busy = true := rfl
@[simp] theorem State.accept_cmd (s : State) (c : Command) (rest : List Command) : (s.accept c rest).cmd = c := rfl
@[simp] theorem State.accept_seq (s : State) (c : Command) (rest : List Command) : (s.accept c rest).seq = 0 := rfl
@[simp] theorem State.accept_life (s : State) (c : Command) (rest : List Command) : (s.accept c rest).life = s.life := rfl
@[simp] theorem State.accept_rows (s : State) (c : Command) (rest : List Command) : (s.accept c rest).rows = s.rows := rfl
@[simp] theorem State.accept_status (s : State) (c : Command) (rest : List Command) : (s.accept c rest).status = s.status := rfl
@[simp] theorem State.accept_nack (s : State) (c : Command) (rest : List Command) : (s.accept c rest).nack = s.nack := rfl
@[simp] theorem State.accept_trace (s : State) (c : Command) (rest : List Command) : (s.accept c rest).trace = s.trace := rfl
@[simp] theorem State.accept_host (s : State) (c : Command) (rest : List Command) : (s.accept c rest).host = rest := rfl
@[simp] theorem State.accept_rstIn (s : State) (c : Command) (rest : List Command) : (s.accept c rest).rstIn = s.rstIn := rfl
@[simp] theorem State.accept_twIn (s : State) (c : Command) (rest : List Command) : (s.accept c rest).twIn = s.twIn := rfl
@[simp] theorem State.accept_draws (s : State) (c : Command) (rest : List Command) : (s.accept c rest).draws = s.draws := rfl

@[simp] theorem State.takeReset_cfg (s : State) : s.takeReset.cfg = s.cfg := rfl
@[simp] theorem State.takeReset_lines (s : State) : s.takeReset.lines = Lines.reset := rfl
@[simp] theorem State.takeReset_bus (s : State) : s.takeReset.bus = Bus.reset := rfl
@[simp] theorem State.takeReset_busy (s : State) : s.takeReset.busy = false := rfl
@[simp] theorem State.takeReset_cmd (s : State) : s.takeReset.cmd = Command.reset := rfl
@[simp] theorem State.takeReset_seq (s : State) : s.takeReset.seq = 0 := rfl
@[simp] theorem State.takeReset_life (s : State) : s.takeReset.life = .unpowered := rfl
@[simp] theorem State.takeReset_rows (s : State) : s.takeReset.rows = 0#10 := rfl
@[simp] theorem State.takeReset_status (s : State) : s.takeReset.status = .none := rfl
@[simp] theorem State.takeReset_nack (s : State) : s.takeReset.nack = false := rfl
@[simp] theorem State.takeReset_trace (s : State) : s.takeReset.trace = [] := rfl
@[simp] theorem State.takeReset_host (s : State) : s.takeReset.host = s.host := rfl
@[simp] theorem State.takeReset_rstIn (s : State) : s.takeReset.rstIn = s.rstIn := rfl
@[simp] theorem State.takeReset_twIn (s : State) : s.takeReset.twIn = s.twIn := rfl
@[simp] theorem State.takeReset_draws (s : State) : s.takeReset.draws = s.draws := rfl

end Sys2Proof.Machine
end

