-- ==== Sys2Proof/Laws/Ops.lean ====
section
/-! SUPPORT. What each shared operation can do, said once. -/

namespace Sys2Proof.Machine

/-! ## `perform` -/

@[simp] theorem perform_emit (e : Event) (s : State) : perform (.emit e) s = .next (s.emit e).advance := rfl
@[simp] theorem perform_enter (l : Life) (e : Event) (s : State) :
    perform (.enter l e) s = .next ((s.enter l).emit e).advance := rfl
@[simp] theorem perform_finish (l : Life) (r : BitVec 10) (st : Status) (s : State) :
    perform (.finish l r st) s = .next ((s.settle l r).respond st) := rfl

/-- A two-wire write whose transaction is done emits its event with the acknowledge bit (R146). -/
theorem perform_write_done {v : Byte} {s : State} {a : Ack} (h : s.twReport = some a) :
    perform (.write v) s = .next ((s.poll.noteAck a).emit (.tw twReg v a)).advance := by
  simp [perform, h]

/-- A two-wire write whose transaction is not done leaves the block where it is (R146). -/
theorem perform_write_waiting {v : Byte} {s : State} (h : s.twReport = none) :
    perform (.write v) s = .next s.poll := by
  simp [perform, h]

/-- Everything `perform` can do. -/
theorem perform_cases (a : Action) (s : State) :
    (∃ e, a = .emit e ∧ perform a s = .next (s.emit e).advance) ∨
    (∃ l e, a = .enter l e ∧ perform a s = .next ((s.enter l).emit e).advance) ∨
    (∃ v, a = .write v ∧ s.twReport = none ∧ perform a s = .next s.poll) ∨
    (∃ v k, a = .write v ∧ s.twReport = some k ∧
      perform a s = .next ((s.poll.noteAck k).emit (.tw twReg v k)).advance) ∨
    (∃ l r st, a = .finish l r st ∧ perform a s = .next ((s.settle l r).respond st)) := by
  cases a with
  | emit e => exact .inl ⟨e, rfl, rfl⟩
  | enter l e => exact .inr (.inl ⟨l, e, rfl, rfl⟩)
  | write v =>
    cases h : s.twReport with
    | none => exact .inr (.inr (.inl ⟨v, rfl, rfl, perform_write_waiting h⟩))
    | some k => exact .inr (.inr (.inr (.inl ⟨v, k, rfl, rfl, perform_write_done h⟩)))
  | finish l r st => exact .inr (.inr (.inr (.inr ⟨l, r, st, rfl, rfl⟩)))

/-- A micro-program step never stops the machine. -/
theorem perform_next (a : Action) (s : State) : ∃ t, perform a s = .next t := by
  rcases perform_cases a s with ⟨_, _, h⟩ | ⟨_, _, _, h⟩ | ⟨_, _, _, h⟩ | ⟨_, _, _, _, h⟩ | ⟨_, _, _, _, h⟩ <;>
    exact ⟨_, h⟩

/-! ## `runCommand` -/

theorem runCommand_refused {i : Instr} {act : Except Fault Action} {s : State} {st : Status}
    (h : refusalOf i s = some st) : runCommand i act s = .next (s.respond st) := by
  simp [runCommand, h]

theorem runCommand_admitted {i : Instr} {a : Action} {s : State} (h : refusalOf i s = none) :
    runCommand i (.ok a) s = perform a s := by
  simp [runCommand, h]

/-- Everything `runCommand` can do when it answers a next state. -/
theorem runCommand_next {i : Instr} {act : Except Fault Action} {s t : State} (h : runCommand i act s = .next t) :
    (∃ st, refusalOf i s = some st ∧ t = s.respond st) ∨
    (∃ a, refusalOf i s = none ∧ act = .ok a ∧ perform a s = .next t) := by
  cases hr : refusalOf i s with
  | some st =>
    rw [runCommand_refused hr] at h
    injection h with h
    exact .inl ⟨st, rfl, h.symm⟩
  | none =>
    cases act with
    | ok a =>
      rw [runCommand_admitted hr] at h
      exact .inr ⟨a, rfl, rfl, h⟩
    | error f => simp [runCommand, hr] at h

/-- `exec` is `runCommand` on the command's micro-program step. -/
theorem exec_eq (i : Instr) (s : State) : exec i s = runCommand i (actionOf i s) s := by
  cases i <;> rfl

/-- The guard is silent after the first step (R170). -/
theorem refusalOf_later {i : Instr} {s : State} (h : s.seq ≠ 0) : refusalOf i s = none := by
  simp [refusalOf, h]

/-- The guard admits a command at its first step in the right state with the right row count (R171). -/
theorem refusalOf_first {i : Instr} {s : State} (hl : s.life = neededLife i)
    (hr : s.cfg.rowCountCheck = true → wrongRows i s.rows.toNat s.cfg.height = false) : refusalOf i s = none := by
  cases hc : s.cfg.rowCountCheck <;> simp_all [refusalOf, guardStatus]

/-- A step that the guard lets through performs the micro-program step. -/
theorem exec_of_action {i : Instr} {a : Action} {s : State} (hr : refusalOf i s = none)
    (ha : actionOf i s = .ok a) : exec i s = perform a s := by
  rw [exec_eq, ha, runCommand_admitted hr]

/-- Everything `exec` can do when it answers a next state. -/
theorem exec_next {i : Instr} {s t : State} (h : exec i s = .next t) :
    (∃ st, refusalOf i s = some st ∧ t = s.respond st) ∨
    (∃ a, refusalOf i s = none ∧ actionOf i s = .ok a ∧ perform a s = .next t) := by
  rw [exec_eq] at h
  exact runCommand_next h

/-- The guard refuses with one of two statuses, at the first step only (R171). -/
theorem refusalOf_some {i : Instr} {s : State} {st : Status} (h : refusalOf i s = some st) :
    s.seq = 0 ∧ (st = .protocolViolation ∨ st = .rowCountMismatch) := by
  unfold refusalOf guardStatus at h
  split at h
  · refine ⟨by assumption, ?_⟩
    split at h
    · simp_all
    · split at h <;> simp_all
  · simp at h

/-! ## `step` -/

/-- Everything `step` can do when it answers a next state (R170). -/
theorem step_next {s t : State} (h : step s = .next t) :
    (s.rst = true ∧ t = s.clock.takeReset) ∨
    (s.rst = false ∧ s.busy = false ∧ s.host = [] ∧ t = s.clock) ∨
    (∃ c rest, s.rst = false ∧ s.busy = false ∧ s.host = c :: rest ∧ c.wf s.cfg.width = true ∧
      t = s.clock.accept c rest) ∨
    (∃ e, s.rst = false ∧ s.busy = true ∧ s.fetch = .error e ∧ t = s.clock.respond .illegalCommand) ∨
    (∃ i, s.rst = false ∧ s.busy = true ∧ s.fetch = .ok i ∧ exec i s.clock = .next t) := by
  unfold step stepWith at h
  cases hr : s.rst with
  | true =>
    simp only [hr, if_true] at h
    injection h with h
    exact .inl ⟨rfl, h.symm⟩
  | false =>
    cases hb : s.busy with
    | true =>
      simp only [hr, hb, if_true, Bool.false_eq_true, if_false] at h
      cases hf : s.fetch with
      | ok i =>
        simp only [hf] at h
        exact .inr (.inr (.inr (.inr ⟨i, rfl, rfl, rfl, h⟩)))
      | error e =>
        simp only [hf, illegal] at h
        injection h with h
        exact .inr (.inr (.inr (.inl ⟨e, rfl, rfl, rfl, h.symm⟩)))
    | false =>
      simp only [hr, hb, Bool.false_eq_true, if_false, idleStep, State.clock_host] at h
      cases hh : s.host with
      | nil =>
        simp only [hh] at h
        injection h with h
        exact .inr (.inl ⟨rfl, rfl, rfl, h.symm⟩)
      | cons c rest =>
        simp only [hh, State.clock_cfg] at h
        cases hw : c.wf s.cfg.width with
        | true =>
          simp only [hw, if_true] at h
          injection h with h
          exact .inr (.inr (.inl ⟨c, rest, rfl, rfl, rfl, hw, h.symm⟩))
        | false => simp [hw] at h

theorem step_reset {s : State} (h : s.rst = true) : step s = .next s.clock.takeReset := by
  simp [step, stepWith, h]

theorem step_busy {s : State} {i : Instr} (hr : s.rst = false) (hb : s.busy = true) (hf : s.fetch = .ok i) :
    step s = exec i s.clock := by
  simp [step, stepWith, hr, hb, hf]

theorem step_illegal {s : State} {e : DecodeError} (hr : s.rst = false) (hb : s.busy = true)
    (hf : s.fetch = .error e) : step s = .next (s.clock.respond .illegalCommand) := by
  simp [step, stepWith, hr, hb, hf, illegal]

theorem step_accept {s : State} {c : Command} {rest : List Command} (hr : s.rst = false) (hb : s.busy = false)
    (hh : s.host = c :: rest) (hw : c.wf s.cfg.width = true) : step s = .next (s.clock.accept c rest) := by
  simp [step, stepWith, hr, hb, idleStep, hh, hw]

theorem step_idle {s : State} (hr : s.rst = false) (hb : s.busy = false) (hh : s.host = []) :
    step s = .next s.clock := by
  simp [step, stepWith, hr, hb, idleStep, hh]

/-- Taking the sample of `rst` changes nothing a command reads. -/
@[simp] theorem State.clock_fetch (s : State) : s.clock.fetch = s.fetch := rfl
@[simp] theorem State.clock_twReport (s : State) : s.clock.twReport = s.twReport := rfl
@[simp] theorem State.clock_nackFatal (s : State) : s.clock.nackFatal = s.nackFatal := rfl
@[simp] theorem State.emit_nackFatal (s : State) (e : Event) : (s.emit e).nackFatal = s.nackFatal := rfl
@[simp] theorem State.advance_nackFatal (s : State) : s.advance.nackFatal = s.nackFatal := rfl
@[simp] theorem State.poll_nackFatal (s : State) : s.poll.nackFatal = s.nackFatal := rfl
@[simp] theorem State.respond_nackFatal (s : State) (st : Status) : (s.respond st).nackFatal = s.nackFatal := rfl
@[simp] theorem State.enter_nackFatal (s : State) (l : Life) : (s.enter l).nackFatal = false := rfl
@[simp] theorem refusalOf_clock (i : Instr) (s : State) : refusalOf i s.clock = refusalOf i s := by
  cases i <;> rfl
@[simp] theorem actionOf_clock (i : Instr) (s : State) : actionOf i s.clock = actionOf i s := by
  cases i <;> rfl

/-! ## What the ports ask for -/

/-- The micro-program step the block is at is the one its admitted command performs (R170). -/
theorem State.pending_some {s : State} {a : Action} : s.pending = some a ↔
    s.busy = true ∧ s.rst = false ∧ ∃ i, s.fetch = .ok i ∧ refusalOf i s = none ∧ actionOf i s = .ok a := by
  unfold State.pending
  cases s.busy with
  | false => simp
  | true =>
    cases s.rst with
    | true => simp
    | false =>
      cases s.fetch with
      | error e => simp
      | ok i => cases hr : refusalOf i s <;> cases ha : actionOf i s <;> simp [hr, ha]

/-- The next step performs the micro-program step the block is at. -/
theorem step_pending {s : State} {a : Action} (h : s.pending = some a) : step s = perform a s.clock := by
  obtain ⟨hb, hr, i, hf, hq, ha⟩ := State.pending_some.mp h
  rw [step_busy hr hb hf, exec_of_action (by simpa using hq) (by simpa using ha)]

theorem State.writeRequest_some {s : State} {r v : Byte} :
    s.writeRequest = some (r, v) ↔ s.pending = some (.write v) ∧ r = twReg := by
  unfold State.writeRequest
  split
  · rename_i h
    simp [h, and_comm, eq_comm]
  · rename_i h
    exact ⟨fun hn => absurd hn (by simp), fun hp => (h v hp.1).elim⟩

theorem State.waitRequest_some {s : State} {d : Rat} :
    s.waitRequest = some d ↔ s.pending = some (.emit (.wait d)) := by
  unfold State.waitRequest
  split
  · rename_i h
    simp [h]
  · rename_i h
    exact ⟨fun hn => absurd hn (by simp), fun hp => (h d hp).elim⟩

/-- With no write requested the master's inputs show nothing (assumption 28). -/
theorem State.twInput_idle {s : State} (h : s.writeRequest = none) : s.twInput = none := by
  simp [State.twInput, h]

/-- At a requested write the master's inputs show its report (R146). -/
theorem State.twInput_write {s : State} {w : Byte × Byte} (h : s.writeRequest = some w) :
    s.twInput = s.twReport := by
  simp [State.twInput, h]

/-- A write that is not done: the block stays where it is, and only the poll is taken (R146). -/
theorem step_unfinished {s : State} (h : s.unfinished = true) : step s = .next s.clock.poll := by
  unfold State.unfinished at h
  rw [Bool.and_eq_true, Option.isSome_iff_exists, Option.isNone_iff_eq_none] at h
  obtain ⟨⟨⟨r, v⟩, hv⟩, hn⟩ := h
  rw [step_pending (State.writeRequest_some.mp hv).1, perform_write_waiting (by simpa using hn)]

/-! ## Decoding -/

/-- The byte of an instruction decodes to it, with the operand that comes with it (R85). -/
theorem decodeByte_encodeByte (i : Instr) : decodeByte (encodeByte i) i.operand = .ok i := by
  cases i <;> simp [decodeByte, encodeByte, rsvField, opField, eraseField, Instr.operand]

/-! ## Operands -/

/-- Every group of a row lies inside the scanline (R61, R180), so its byte exists. -/
theorem groupByte_some {c : Config} {buf : Memory} {erase : Bool} {k : Nat} (hk : k < c.groups) :
    groupByte c buf erase k = some (encodePixels c.lut (buf.read (4 * k)) (buf.read (4 * k + 1))
      (buf.read (4 * k + 2)) (buf.read (4 * k + 3)) erase) := by
  have hw : 4 * k + 3 < c.width := by
    unfold Config.groups at hk
    omega
  have h0 : 4 * k < c.width := by omega
  have h1 : 4 * k + 1 < c.width := by omega
  have h2 : 4 * k + 2 < c.width := by omega
  simp [groupByte, Memory.memRead, hw, h0, h1, h2]

end Sys2Proof.Machine
end

