-- ==== Sys2Proof/Laws/PerInstr.lean ====
section
/-! SUPPORT. Statements about every instruction, one lemma per constructor. -/

namespace Sys2Proof.Laws.ByteRoundTrip

/-- R81, R85: the command byte of an instruction decodes, on the port with its operand, to the instruction; its reserved
bits are 0 and its E bit is set for XFER.E alone. -/
def Statement (i : Instr) : Prop :=
  decodeByte (encodeByte i) i.operand = .ok i ∧ rsvField (encodeByte i) = 0#4 ∧
    (eraseField (encodeByte i) = true ↔ ∃ buf, i = .xferE buf)

theorem enable : Statement .enable :=
  ⟨Machine.decodeByte_encodeByte _, by simp [rsvField, encodeByte], by simp [eraseField, encodeByte]⟩

theorem beginFrame : Statement .beginFrame :=
  ⟨Machine.decodeByte_encodeByte _, by simp [rsvField, encodeByte], by simp [eraseField, encodeByte]⟩

theorem xfer (buf : Memory) : Statement (.xfer buf) :=
  ⟨Machine.decodeByte_encodeByte _, by simp [rsvField, encodeByte], by simp [eraseField, encodeByte]⟩

theorem xferE (buf : Memory) : Statement (.xferE buf) :=
  ⟨Machine.decodeByte_encodeByte _, by simp [rsvField, encodeByte], by simp [eraseField, encodeByte]⟩

theorem endFrame : Statement .endFrame :=
  ⟨Machine.decodeByte_encodeByte _, by simp [rsvField, encodeByte], by simp [eraseField, encodeByte]⟩

theorem disable : Statement .disable :=
  ⟨Machine.decodeByte_encodeByte _, by simp [rsvField, encodeByte], by simp [eraseField, encodeByte]⟩

end Sys2Proof.Laws.ByteRoundTrip
end

