-- ==== Sys2Proof/Laws/Rows.lean ====
section
/-! SUPPORT. The row transfer: the LUT index as a number, the byte of each group, the event list of a row by its
index, and what the shift part of a row does to the lines (spec/41_parallel_bus.md). -/

namespace Sys2Proof.Machine

/-- A panel has at least one group (R10). -/
theorem Config.groups_pos (c : Config) : 0 < c.groups := by
  have := c.ok
  simp only [Params.wf, Bool.and_eq_true, decide_eq_true_eq, beq_iff_eq] at this
  unfold Config.groups
  omega

/-- Bit 0 of a byte is its parity. -/
theorem byte_mod_two (b : Byte) : b.toNat % 2 = (b.getLsbD 0).toNat := by
  simp [BitVec.getLsbD, Nat.testBit]
  have := Nat.mod_two_eq_zero_or_one b.toNat
  rcases this with h | h <;> simp [h]

/-- The LUT index as a number: the first pixel counts 8 (R64). -/
theorem lutIndex_toNat (p0 p1 p2 p3 : Byte) : (lutIndex p0 p1 p2 p3).toNat =
    8 * (p0.toNat % 2) + 4 * (p1.toNat % 2) + 2 * (p2.toNat % 2) + p3.toNat % 2 := by
  simp only [lutIndex, pixelBit, byte_mod_two]
  cases p0.getLsbD 0 <;> cases p1.getLsbD 0 <;> cases p2.getLsbD 0 <;> cases p3.getLsbD 0 <;> decide

/-- Bytes that agree on bit 0 encode alike (R105). -/
theorem encodePixels_congr (lut : Vector Byte 16) (p0 p1 p2 p3 q0 q1 q2 q3 : Byte) (erase : Bool)
    (h0 : p0.getLsbD 0 = q0.getLsbD 0) (h1 : p1.getLsbD 0 = q1.getLsbD 0) (h2 : p2.getLsbD 0 = q2.getLsbD 0)
    (h3 : p3.getLsbD 0 = q3.getLsbD 0) :
    encodePixels lut p0 p1 p2 p3 erase = encodePixels lut q0 q1 q2 q3 erase := by
  have : lutIndex p0 p1 p2 p3 = lutIndex q0 q1 q2 q3 := by simp only [lutIndex, pixelBit, h0, h1, h2, h3]
  simp [encodePixels, this]

/-- The byte that the micro-program computes is the rule's (R101, R121). -/
theorem groupByte_eq_rowByte {c : Config} {buf : Memory} {erase : Bool} {k : Nat} (h : k < c.groups) :
    groupByte c buf erase k = some (rowByte c buf erase k) := by
  rw [groupByte_some h]
  cases erase <;> simp [encodePixels, rowByte, lutRead, lutIndex_toNat, groupIndex]
  rw [Vector.getElem?_eq_getElem (by omega)]
  rfl

theorem shiftEvents_length (c : Config) (buf : Memory) (erase : Bool) (k n : Nat) :
    (shiftEvents c buf erase k n).length = 3 * n := by
  induction n generalizing k with
  | zero => rfl
  | succ n ih => simp [shiftEvents, ih]; omega

/-- The three events of the m-th group shifted. -/
theorem shiftEvents_get (c : Config) (buf : Memory) (erase : Bool) (k n m : Nat) (hm : m < n) :
    (shiftEvents c buf erase k n)[3 * m]? = some (.data (rowByte c buf erase (k + m))) ∧
    (shiftEvents c buf erase k n)[3 * m + 1]? = some (.set .cl true) ∧
    (shiftEvents c buf erase k n)[3 * m + 2]? = some (.set .cl false) := by
  induction n generalizing k m with
  | zero => omega
  | succ n ih =>
    cases m with
    | zero => simp [shiftEvents]
    | succ m =>
      have := ih (k + 1) m (by omega)
      rw [show k + 1 + m = k + (m + 1) by omega] at this
      simpa [shiftEvents, Nat.mul_add, Nat.add_right_comm] using this

/-- The micro-program's step at `seq` emits the row's event of that number (R121). -/
theorem rowAction_of_event {s : State} {buf : Memory} {erase : Bool} {e : Event}
    (he : (rowEvents s.cfg buf erase)[s.seq]? = some e) : rowAction erase buf s = .ok (.emit e) := by
  have hlt : s.seq < 3 * s.cfg.groups + 9 := by
    have := (List.getElem?_eq_some_iff.1 he).1
    simp [rowEvents, shiftEvents_length, closingEvents] at this
    omega
  unfold rowAction
  split
  · next h =>
    rw [h] at he
    simp [rowEvents] at he
    simp [he]
  · next h =>
    obtain ⟨n, hn⟩ : ∃ n, s.seq = n + 1 := ⟨s.seq - 1, by omega⟩
    rw [hn] at he ⊢
    simp only [rowEvents, List.getElem?_cons_succ] at he
    split
    · next h =>
      rw [List.getElem?_append_left (by rw [shiftEvents_length]; omega)] at he
      have hk : n / 3 < s.cfg.groups := by omega
      have := shiftEvents_get s.cfg buf erase 0 s.cfg.groups (n / 3) hk
      have hm : n % 3 = 0 ∨ n % 3 = 1 ∨ n % 3 = 2 := by omega
      simp only [Nat.add_sub_cancel]
      rcases hm with hm | hm | hm
      · rw [show 3 * (n / 3) = n by omega, he] at this
        rw [hm]
        simp only [groupAction, groupByte_eq_rowByte hk]
        simp at this
        simp [this.1]
      · rw [show 3 * (n / 3) + 1 = n by omega, he] at this
        rw [hm]
        simp only [groupAction]
        simp at this
        simp [this.2.1]
      · rw [show 3 * (n / 3) + 2 = n by omega, he] at this
        rw [hm]
        simp only [groupAction]
        simp at this
        simp [this.2.2]
    · next h =>
      rw [List.getElem?_append_right (by rw [shiftEvents_length]; omega), shiftEvents_length] at he
      rw [show n + 1 - (3 * s.cfg.groups + 1) = n - 3 * s.cfg.groups by omega]
      have : n - 3 * s.cfg.groups < 8 := by omega
      generalize n - 3 * s.cfg.groups = m at *
      interval_cases m <;> simp [closingEvents] at he <;> simp [closingAction, he]

/-- The shift part of a row leaves CL low and the other lines as they were. -/
theorem shiftEvents_lines (c : Config) (buf : Memory) (erase : Bool) (k n : Nat) (l : Lines) (h : 0 < n) :
    (shiftEvents c buf erase k n).foldl (fun l e => e.onLines l) l = l.at .cl false := by
  induction n generalizing k l with
  | zero => omega
  | succ n ih =>
    cases n with
    | zero => simp [shiftEvents, Lines.at, Lines.set, Lines.get]
    | succ n =>
      rw [shiftEvents, List.foldl_cons, List.foldl_cons, List.foldl_cons, ih _ _ (by omega)]
      simp [Lines.at, Lines.set, Lines.get]

/-- The shift part of a row leaves the last group's byte on the data lines. -/
theorem shiftEvents_bus (c : Config) (buf : Memory) (erase : Bool) (k n : Nat) (b : Bus) (h : 0 < n) :
    (shiftEvents c buf erase k n).foldl (fun b e => e.onBus b) b =
      { dir := b.dir, byte := rowByte c buf erase (k + n - 1) } := by
  induction n generalizing k b with
  | zero => omega
  | succ n ih =>
    cases n with
    | zero => simp [shiftEvents]
    | succ n =>
      rw [shiftEvents, List.foldl_cons, List.foldl_cons, List.foldl_cons, ih _ _ (by omega)]
      simp
      congr 1
      omega

end Sys2Proof.Machine
end

