-- ==== Sys2Proof/Laws/Run.lean ====
section
/-! SUPPORT. Runs of steps: one step at a time, a command's events one after another, and a whole command. -/

namespace Sys2Proof.Machine

@[simp] theorem run_zero (s : State) : run 0 s = .next s := rfl

/-- A run of at least one step, by the outcome of its first. -/
theorem run_step (k : Nat) (s : State) : run (k + 1) s =
    match step s with
    | .next t => run k t
    | .fault f => .fault f
    | .refused r => .refused r := by
  cases h : step s with
  | next t =>
    have h' : Sys2Proof.core.step s = .next t := h
    simp only [run, Host.Core.run, h']
    rfl
  | fault f =>
    have h' : Sys2Proof.core.step s = .fault f := h
    simp only [run, Host.Core.run, h']
    rfl
  | refused r =>
    have h' : Sys2Proof.core.step s = .refused r := h
    simp only [run, Host.Core.run, h']
    rfl

/-- One step of a run. -/
theorem run_succ {s t : State} (h : step s = .next t) (k : Nat) : run (k + 1) s = run k t := by
  rw [run_step, h]

/-- A run of `j` steps, then of `k`. -/
theorem run_add {j : Nat} {s t : State} (h : run j s = .next t) (k : Nat) : run (j + k) s = run k t := by
  induction j generalizing s with
  | zero =>
    have : s = t := by simpa using h
    rw [Nat.zero_add, this]
  | succ j ih =>
    rw [run_step] at h
    cases hs : step s with
    | next u =>
      rw [hs] at h
      rw [Nat.add_right_comm, run_succ hs, ih h]
    | fault r => simp [hs] at h
    | refused r => simp [hs] at h

/-- With no reset to come, `rst` is 0 at this step and none is to come after it. -/
theorem State.noReset_rst {s : State} (h : s.noReset) : s.rst = false := by
  unfold State.rst
  cases hr : s.rstIn with
  | nil => rfl
  | cons b bs => exact h b (by simp [hr])

theorem State.noReset_clock {s : State} (h : s.noReset) : s.clock.noReset :=
  fun b hb => h b (List.mem_of_mem_tail hb)

/-- One step of a busy block that no reset interrupts. -/
theorem run_busy {s t : State} {i : Instr} (hq : s.noReset) (hb : s.busy = true) (hf : s.fetch = .ok i)
    (he : exec i s.clock = .next t) (k : Nat) : run (k + 1) s = run k t :=
  run_succ (by rw [step_busy (State.noReset_rst hq) hb hf, he]) k

/-- An offered command is accepted, and is then the one the block runs (R83). -/
theorem run_offered {s : State} {i : Instr} {rest : List Command} (h : s.Offered i rest) (k : Nat) :
    run (k + 1) s = run k (s.clock.accept i.command rest) := by
  refine run_succ (step_accept (State.noReset_rst h.quiet) h.idle h.offer ?_) k
  have := h.fits
  cases i <;> simp_all [Instr.wf, Command.wf, Instr.command, Instr.operand, Memory.nil_fits]

theorem State.accept_fetch (s : State) (i : Instr) (rest : List Command) :
    (s.accept i.command rest).fetch = .ok i :=
  decodeByte_encodeByte i

/-! ## A whole command -/

/-- `k` steps of a command whose steps after the first emit the events `es`, from the middle of it. -/
theorem run_events {i : Instr} {es : List Event} {c : Config}
    (hstep : ∀ (s : State) (e : Event), s.cfg = c → s.seq ≠ 0 → es[s.seq]? = some e →
      exec i s = .next (s.afterEvent e)) :
    ∀ (k : Nat) (s : State), s.cfg = c → s.seq ≠ 0 → s.noReset → s.busy = true → s.fetch = .ok i →
      s.seq + k ≤ es.length →
      run k s = .next { s with
        rstIn := s.rstIn.drop k, seq := s.seq + k,
        trace := s.trace ++ (es.drop s.seq).take k,
        lines := ((es.drop s.seq).take k).foldl (fun l e => e.onLines l) s.lines,
        bus := ((es.drop s.seq).take k).foldl (fun b e => e.onBus b) s.bus } := by
  intro k
  induction k with
  | zero => intro s _ _ _ _ _ _; simp
  | succ k ih =>
    intro s hc h0 hq hb hf hl
    obtain ⟨e, he⟩ : ∃ e, es[s.seq]? = some e := ⟨_, List.getElem?_eq_getElem (by omega)⟩
    rw [run_busy hq hb hf (hstep s.clock e hc h0 he),
      ih (State.afterEvent e s.clock) hc (by simp [State.afterEvent]) (State.noReset_clock hq) hb hf
        (by simp [State.afterEvent]; omega)]
    have hd : es.drop s.seq = e :: es.drop (s.seq + 1) := by
      rw [List.drop_eq_getElem_cons (by omega)]
      congr
      rw [List.getElem?_eq_getElem (by omega)] at he
      simpa using he
    simp [State.afterEvent, State.clock, hd, Nat.add_assoc, Nat.add_comm 1 k]

/-- A whole command that emits the events `es` and then completes by `fin`, from its offer on: acceptance, one step an
event, completion. -/
theorem run_command {i : Instr} {es : List Event} {s : State} {rest : List Command} {fin : State → State}
    (ho : s.Offered i rest) (hne : es ≠ [])
    (hfirst : ∀ (t : State) (e : Event), t.cfg = s.cfg → t.life = s.life → t.rows = s.rows → t.seq = 0 →
      es[0]? = some e → exec i t = .next (t.afterEvent e))
    (hstep : ∀ (t : State) (e : Event), t.cfg = s.cfg → t.seq ≠ 0 → es[t.seq]? = some e →
      exec i t = .next (t.afterEvent e))
    (hfin : ∀ t : State, t.cfg = s.cfg → t.seq = es.length → exec i t = .next (fin t)) :
    run (es.length + 2) s = .next (fin { s with
        rstIn := s.rstIn.drop (es.length + 2), seq := es.length,
        busy := true, cmd := i.command, host := rest,
        trace := s.trace ++ es,
        lines := es.foldl (fun l e => e.onLines l) s.lines,
        bus := es.foldl (fun b e => e.onBus b) s.bus }) := by
  obtain ⟨e, es', rfl⟩ := List.exists_cons_of_ne_nil hne
  have hq1 : (s.clock.accept i.command rest).noReset := State.noReset_clock ho.quiet
  rw [run_offered ho, List.length_cons,
    run_busy hq1 rfl (State.accept_fetch _ _ _) (hfirst _ e rfl rfl rfl rfl rfl)]
  rw [run_add (j := es'.length) (run_events hstep es'.length
    (State.afterEvent e (s.clock.accept i.command rest).clock) rfl (by simp [State.afterEvent])
    (State.noReset_clock hq1) rfl (decodeByte_encodeByte i) (by simp [State.afterEvent]; omega)) 1]
  have last : ∀ u : State, u.noReset → u.busy = true → u.fetch = .ok i → u.cfg = s.cfg →
      u.seq = (e :: es').length → run 1 u = .next (fin u.clock) :=
    fun u h1 h2 h3 h4 h5 => run_busy h1 h2 h3 (hfin u.clock h4 h5) 0
  rw [last]
  · simp [State.afterEvent, State.clock, State.accept, Nat.add_comm 1]
  · intro b hb
    apply ho.quiet b
    simp only [State.afterEvent, State.clock, State.accept] at hb
    exact List.mem_of_mem_tail (List.mem_of_mem_tail (List.mem_of_mem_drop hb))
  · rfl
  · exact State.accept_fetch s i rest
  · rfl
  · simp [State.afterEvent]; omega

/-! ## ENABLE and DISABLE: their steps also write `life` and `nack` -/

@[simp] theorem State.afterPower_cfg (l : Life) (e : Event) (s : State) : (s.afterPower l e).cfg = s.cfg := rfl
@[simp] theorem State.afterPower_lines (l : Life) (e : Event) (s : State) :
    (s.afterPower l e).lines = e.onLines s.lines := rfl
@[simp] theorem State.afterPower_bus (l : Life) (e : Event) (s : State) :
    (s.afterPower l e).bus = e.onBus s.bus := rfl
@[simp] theorem State.afterPower_busy (l : Life) (e : Event) (s : State) : (s.afterPower l e).busy = s.busy := rfl
@[simp] theorem State.afterPower_cmd (l : Life) (e : Event) (s : State) : (s.afterPower l e).cmd = s.cmd := rfl
@[simp] theorem State.afterPower_seq (l : Life) (e : Event) (s : State) :
    (s.afterPower l e).seq = s.seq + 1 := rfl
@[simp] theorem State.afterPower_life (l : Life) (e : Event) (s : State) :
    (s.afterPower l e).life = if s.seq = 0 then l else s.life := rfl
@[simp] theorem State.afterPower_rows (l : Life) (e : Event) (s : State) : (s.afterPower l e).rows = s.rows := rfl
@[simp] theorem State.afterPower_status (l : Life) (e : Event) (s : State) :
    (s.afterPower l e).status = s.status := rfl
@[simp] theorem State.afterPower_nack (l : Life) (e : Event) (s : State) :
    (s.afterPower l e).nack = if s.seq = 0 then false else s.nack || e.isNack := rfl
@[simp] theorem State.afterPower_trace (l : Life) (e : Event) (s : State) :
    (s.afterPower l e).trace = s.trace ++ [e] := rfl
@[simp] theorem State.afterPower_host (l : Life) (e : Event) (s : State) : (s.afterPower l e).host = s.host := rfl
@[simp] theorem State.afterPower_rstIn (l : Life) (e : Event) (s : State) :
    (s.afterPower l e).rstIn = s.rstIn := rfl
@[simp] theorem State.afterPower_twIn (l : Life) (e : Event) (s : State) :
    (s.afterPower l e).twIn = if e.isWrite then s.twIn.tail else s.twIn := rfl
@[simp] theorem State.afterPower_draws (l : Life) (e : Event) (s : State) :
    (s.afterPower l e).draws = if e.isWrite then s.draws + 1 else s.draws := rfl

/-- The steps of `i` from `s` emit the events `es`, one after another. -/
def PowerChain (i : Instr) (l : Life) : State → List Event → Prop
  | _, [] => True
  | s, e :: es => exec i s.clock = .next (s.clock.afterPower l e) ∧ PowerChain i l (s.clock.afterPower l e) es

/-- The state after the steps of a `PowerChain`. -/
def powerEnd (l : Life) : State → List Event → State
  | s, [] => s
  | s, e :: es => powerEnd l (s.clock.afterPower l e) es

/-- Running a `PowerChain`, from inside the command. -/
theorem run_powerChain {i : Instr} {l : Life} : ∀ (es : List Event) (s : State), s.noReset → s.busy = true →
    s.fetch = .ok i → PowerChain i l s es →
    run es.length s = .next (powerEnd l s es) ∧ (powerEnd l s es).noReset ∧ (powerEnd l s es).busy = true ∧
      (powerEnd l s es).fetch = .ok i := by
  intro es
  induction es with
  | nil => intro s h1 h2 h3 _; exact ⟨rfl, h1, h2, h3⟩
  | cons e es ih =>
    intro s h1 h2 h3 h4
    rw [List.length_cons, run_busy h1 h2 h3 h4.1]
    have hx : ∀ u : State, u.noReset → (u.afterPower l e).noReset := fun u h b hb => h b hb
    exact ih _ (hx _ (State.noReset_clock h1)) h2 h3 h4.2

/-- A whole ENABLE or DISABLE from its offer on: acceptance, one step an event, completion by `fin`. -/
theorem run_powerCommand {i : Instr} {l : Life} {es : List Event} {s : State} {rest : List Command}
    {fin : State → State} (ho : s.Offered i rest) (hc : PowerChain i l (s.clock.accept i.command rest) es)
    (hf : exec i (powerEnd l (s.clock.accept i.command rest) es).clock =
      .next (fin (powerEnd l (s.clock.accept i.command rest) es).clock)) :
    run (es.length + 2) s = .next (fin (powerEnd l (s.clock.accept i.command rest) es).clock) := by
  rw [run_offered ho]
  have hq : (s.clock.accept i.command rest).noReset := State.noReset_clock ho.quiet
  obtain ⟨h1, h2, h3, h4⟩ :=
    run_powerChain es (s.clock.accept i.command rest) hq rfl (State.accept_fetch _ _ _) hc
  rw [run_add h1 1]
  have := run_busy h2 h3 h4 hf 0
  rw [this, run_zero]

end Sys2Proof.Machine
end

