-- ==== Sys2Proof/Machine/Assembler.lean ====
section
/-! DEFINITION. The assembler of spec/30_encoding.md R89: what each line expands to.  The block never sees a
pseudo-instruction (R181). -/

namespace Sys2Proof.Machine

/-- `REP n, l`: the expansion of `l`, n times. -/
def repeatList (n : Nat) (l : List Instr) : List Instr := (List.replicate n l).flatten

/-- The instructions a line expands to, for a panel of `height` rows (R89).  FRAME names its HEIGHT buffers itself. -/
def AsmLine.expand (height : Nat) : AsmLine → List Instr
  | .instr i => [i]
  | .comment _ => []
  | .clearRow buf => [.xferE buf]
  | .frame rows => .beginFrame :: rows.map .xfer ++ [.endFrame]
  | .eraseFrame buf => .beginFrame :: List.replicate height (.xferE buf) ++ [.endFrame]
  | .rep n line => repeatList n (AsmLine.expand height line)

/-- A line that R89 admits: FRAME has HEIGHT buffers, and every operand fits. -/
def AsmLine.ok (width height : Nat) : AsmLine → Bool
  | .instr i => i.wf width
  | .comment _ => true
  | .clearRow buf => buf.fits width
  | .frame rows => rows.length == height && rows.all (·.fits width)
  | .eraseFrame buf => buf.fits width
  | .rep _ line => AsmLine.ok width height line

/-- The commands the host sends for a program (R246: one after another). -/
def commands (height : Nat) (lines : List AsmLine) : List Command :=
  (lines.flatMap (AsmLine.expand height)).map Instr.command

end Sys2Proof.Machine
end

