-- ==== Sys2Proof/Tests/Slice0.lean ====
section
/-! SUPPORT. Tests, every expected value from spec/95_test_vectors.md or the rule named, and one named witness for each
hypothesis set (and each clause) of the obligations. -/

namespace Sys2Proof.Tests

open Sys2Proof Sys2Proof.Machine

/-! ## A small panel: the test geometry of R132 and program P1, WIDTH 8 and HEIGHT 2 -/

def smallParams : Params :=
  { defaultParams with width := 8, height := 2, tCkvLow := 1, tSync := 1 }

theorem smallParams_wf : smallParams.wf = true := by decide

def small : Config := { toParams := smallParams, ok := smallParams_wf }

/-- The same panel with the source's current behaviour (program P6). -/
def lax : Config := { toParams := { smallParams with nackPolicy := .ignore, rowCountCheck := false }, ok := by decide }

/-- Scanline A of program P1: (1,0,0,0, 0,0,0,1). -/
def rowA : Memory := [(0, 0x01#8), (7, 0x01#8)]

/-- Scanline B of program P1: (0xFF,0x01,0x00,0x00, 0x01,0x01,0x01,0x01). -/
def rowB : Memory := Memory.ofBytes [0xFF#8, 0x01#8, 0x00#8, 0x00#8, 0x01#8, 0x01#8, 0x01#8, 0x01#8]

/-- The small panel's lines in a frame between commands (R48(b)). -/
def frameLines : Lines :=
  { Lines.idle with oe := { dir := .output, level := true }, mode := { dir := .output, level := true } }

/-- A state of the small panel between commands, after reset. -/
def off : State := { State.reset with cfg := small }

/-- Powered and idle, outside a frame. -/
def idle : State :=
  { off with life := .poweredIdle, lines := Lines.idle, bus := { dir := .output, byte := 0x00#8 } }

/-- In a frame, with `r` rows done. -/
def inFrame (r : Nat) : State := { idle with life := .frameActive, rows := BitVec.ofNat 10 r, lines := frameLines }

/-- Faulted (R207): bus lines released, WAKEUP driving 0. -/
def faulted : State := { off with life := .faulted, lines := { Lines.reset with wakeup := { dir := .output, level := false } } }

/-- `s` in the middle of command `i`, at step `n`. -/
def during (i : Instr) (n : Nat) (s : State) : State := { s with busy := true, cmd := i.command, seq := n }

/-- What the step's outcome answers to a question about the next state. -/
def nextIs (o : Host.Outcome State Fault Refusal) (f : State → Bool) : Bool :=
  match o with
  | .next t => f t
  | .fault _ => false
  | .refused _ => false

/-! ## WellFormed: each check refuses an ill-formed term -/

theorem test_operand_zero_cell_refused : Memory.wf [(0, 0x00#8)] = false := by decide
theorem test_operand_order_refused : Memory.wf [(2, 0x01#8), (1, 0x01#8)] = false := by decide
theorem test_operand_repeat_refused : Memory.wf [(1, 0x01#8), (1, 0x02#8)] = false := by decide
theorem test_operand_outside_refused : Memory.fits [(8, 0x01#8)] 8 = false := by decide
theorem test_operand_last_index_fits : Memory.fits [(7, 0x01#8)] 8 = true := by decide
theorem test_xfer_long_operand_refused : (Instr.xfer [(8, 0x01#8)]).wf 8 = false := by decide
theorem test_xferE_long_operand_refused : (Instr.xferE [(8, 0x01#8)]).wf 8 = false := by decide
theorem test_command_long_operand_refused : Command.wf 8 { byte := 0x03#8, buf := [(8, 0x01#8)] } = false := by decide

/-- S10: WIDTH 1022 is refused. -/
theorem test_width_1022_refused : Config.build { smallParams with width := 1022 } = none := by decide
theorem test_width_0_refused : Config.build { smallParams with width := 0 } = none := by decide
theorem test_height_0_refused : Config.build { smallParams with height := 0 } = none := by decide
theorem test_height_1024_refused : Config.build { smallParams with height := 1024 } = none := by decide
theorem test_height_1023_accepted : (Config.build { smallParams with height := 1023 }).isSome = true := by decide
theorem test_tCkvLow_0_refused : Config.build { smallParams with tCkvLow := 0 } = none := by decide
theorem test_tSync_0_refused : Config.build { smallParams with tSync := 0 } = none := by decide
/-- R31: a GPIO inside the data bus's eight lines (D0 is 7, so D0+7 is 14). -/
theorem test_pin_in_bus_refused :
    Config.build { smallParams with pinMap := { defaultPinMap with sda := 14 } } = none := by decide
theorem test_pin_beyond_count_refused : Config.build { smallParams with gpioCount := 17 } = none := by decide

/-! ## Decoding, bit by bit (R81, R85, R86; vectors 2.2) -/

theorem test_decode_enable : decodeByte 0b00000001#8 [] = .ok .enable := by decide
theorem test_decode_begin : decodeByte 0b00000010#8 [] = .ok .beginFrame := by decide
theorem test_decode_xfer : decodeByte 0b00000011#8 rowA = .ok (.xfer rowA) := by decide
theorem test_decode_xferE : decodeByte 0b00001011#8 rowA = .ok (.xferE rowA) := by decide
theorem test_decode_end : decodeByte 0b00000100#8 [] = .ok .endFrame := by decide
theorem test_decode_disable : decodeByte 0b00000101#8 [] = .ok .disable := by decide
theorem test_decode_00 : decodeByte 0x00#8 [] = .error .unusedOp := by decide
theorem test_decode_06 : decodeByte 0x06#8 [] = .error .unusedOp := by decide
theorem test_decode_07 : decodeByte 0x07#8 [] = .error .unusedOp := by decide
theorem test_decode_08 : decodeByte 0x08#8 [] = .error .unusedOp := by decide
theorem test_decode_09 : decodeByte 0x09#8 [] = .error .eraseWithoutTransfer := by decide
theorem test_decode_0A : decodeByte 0x0A#8 [] = .error .eraseWithoutTransfer := by decide
theorem test_decode_0D : decodeByte 0x0D#8 [] = .error .eraseWithoutTransfer := by decide
theorem test_decode_0F : decodeByte 0x0F#8 [] = .error .unusedOp := by decide
theorem test_decode_13 : decodeByte 0x13#8 [] = .error .reservedBits := by decide
theorem test_decode_83 : decodeByte 0x83#8 [] = .error .reservedBits := by decide
theorem test_decode_FF : decodeByte 0xFF#8 [] = .error .reservedBits := by decide

theorem test_decode_no_byte : decode 8 [] = .error .noByte := by decide
theorem test_decode_short_operand : decode 8 [0x03#8, 0x01#8] = .error .operandLength := by decide
theorem test_decode_operand_of_begin : decode 8 [0x02#8, 0x01#8] = .error .operandLength := by decide
theorem test_encode_xfer :
    encode 8 (.xfer rowA) = [0x03#8, 0x01#8, 0#8, 0#8, 0#8, 0#8, 0#8, 0#8, 0x01#8] := by decide

/-- The opcode table's rows, by their numbers. -/
theorem test_table_words : decodeTableWord 8 0x01 = some .enable ∧ decodeTableWord 8 0x02 = some .beginFrame ∧
    decodeTableWord 8 0x03 = some (.xfer []) ∧ decodeTableWord 8 0x0B = some (.xferE []) ∧
    decodeTableWord 8 0x04 = some .endFrame ∧ decodeTableWord 8 0x05 = some .disable ∧
    decodeTableWord 8 0x06 = none := by decide

/-! ## The first step after reset (vectors G1 to G5, 2.2) -/

theorem test_fetch_enable : nextIs (step (State.reset.withFetchWord 8 0x01)) (fun t =>
    decide (t.trace = [.cfg .wakeup (.out true)] ∧ t.life = .poweringUp ∧ t.seq = 1)) = true := by decide
theorem test_fetch_begin : nextIs (step (State.reset.withFetchWord 8 0x02)) (fun t =>
    decide (t.trace = [.rsp .protocolViolation] ∧ t.life = .unpowered ∧ t.busy = false)) = true := by decide
theorem test_fetch_xfer : nextIs (step (State.reset.withFetchWord 8 0x03)) (fun t =>
    decide (t.trace = [.rsp .protocolViolation] ∧ t.life = .unpowered)) = true := by decide
theorem test_fetch_xferE : nextIs (step (State.reset.withFetchWord 8 0x0B)) (fun t =>
    decide (t.trace = [.rsp .protocolViolation] ∧ t.life = .unpowered)) = true := by decide
theorem test_fetch_end : nextIs (step (State.reset.withFetchWord 8 0x04)) (fun t =>
    decide (t.trace = [.rsp .protocolViolation] ∧ t.life = .unpowered)) = true := by decide
theorem test_fetch_disable : nextIs (step (State.reset.withFetchWord 8 0x05)) (fun t =>
    decide (t.trace = [.rsp .protocolViolation] ∧ t.life = .unpowered)) = true := by decide
theorem test_fetch_illegal : nextIs (step (State.reset.withFetchWord 8 0x13)) (fun t =>
    decide (t.trace = [.rsp .illegalCommand] ∧ t.status = .illegalCommand)) = true := by decide

/-! ## The encoder (vectors E1 to E5) -/

/-- E1, some rows of the table. -/
theorem test_encode_E1 : encodePixels defaultLut 0#8 0#8 0#8 0#8 false = 0x55#8 ∧
    encodePixels defaultLut 0#8 0#8 0#8 1#8 false = 0x57#8 ∧ encodePixels defaultLut 0#8 0#8 1#8 0#8 false = 0x5D#8 ∧
    encodePixels defaultLut 0#8 1#8 0#8 0#8 false = 0x75#8 ∧ encodePixels defaultLut 1#8 0#8 0#8 0#8 false = 0xD5#8 ∧
    encodePixels defaultLut 1#8 1#8 1#8 0#8 false = 0xFD#8 := by decide
theorem test_encode_E2 : encodePixels defaultLut 0x80#8 0x7E#8 0x02#8 0xFE#8 true = 0xFF#8 := by decide
theorem test_encode_E3 : encodePixels defaultLut 0xFE#8 0x01#8 0x80#8 0x03#8 false = 0x77#8 ∧
    encodePixels defaultLut 0x02#8 0x02#8 0x02#8 0x02#8 false = 0x55#8 ∧
    encodePixels defaultLut 0x81#8 0x00#8 0x00#8 0x00#8 false = 0xD5#8 := by decide
theorem test_encode_E4 : encodePixels defaultLut 0x03#8 0x04#8 0x05#8 0x06#8 false = 0xDD#8 := by decide
theorem test_fields_E5 : waveField 0x77#8 0 = 0b01#2 ∧ waveField 0x77#8 1 = 0b11#2 ∧ waveField 0x77#8 2 = 0b01#2 ∧
    waveField 0x77#8 3 = 0b11#2 := by decide

/-! ## One step of each instruction -/

/-- P-N1: under policy Fault a NACK at seq 2 is recorded and the sequence goes on to its abort. -/
theorem test_enable_nack : nextIs (exec .enable { during .enable 2 off with life := .poweringUp, twIn := [some .nack] })
    (fun t => decide (t.trace = [.tw 0x01#8 0x20#8 .nack] ∧ t.nack = true ∧ t.seq = 3)) = true := by decide
/-- P-E: the last event of ENABLE. -/
theorem test_enable_data : nextIs (exec .enable { during .enable 15 off with life := .poweringUp })
    (fun t => decide (t.trace = [.cfgData (.out 0x00#8)] ∧ t.bus = { dir := .output, byte := 0x00#8 })) = true := by
  decide
/-- B1: the start pulse falls before the row clock. -/
theorem test_begin_spv : nextIs (exec .beginFrame (during .beginFrame 2 idle))
    (fun t => decide (t.trace = [.set .spv false] ∧ t.lines.spv = { dir := .output, level := false })) = true := by
  decide
/-- G9: BEGIN's completion clears `rows`. -/
theorem test_begin_rows : nextIs (exec .beginFrame { during .beginFrame 7 idle with rows := 758#10 })
    (fun t => decide (t.trace = [.rsp .ok] ∧ t.rows = 0#10 ∧ t.life = .frameActive)) = true := by decide
/-- T1: group 1 of scanline A is 0x57 on the data lines. -/
theorem test_xfer_group : nextIs (exec (.xfer rowA) (during (.xfer rowA) 4 (inFrame 0)))
    (fun t => decide (t.trace = [.data 0x57#8] ∧ t.bus.byte = 0x57#8)) = true := by decide
/-- G15: the (HEIGHT+1)-th TRANSFER is refused. -/
theorem test_xfer_row_count : nextIs (exec (.xfer rowA) (during (.xfer rowA) 0 (inFrame 2)))
    (fun t => decide (t.trace = [.rsp .rowCountMismatch] ∧ t.rows = 2#10)) = true := by decide
/-- T2: with E = 1 the byte is 0xFF. -/
theorem test_xferE_group : nextIs (exec (.xferE rowA) (during (.xferE rowA) 1 (inFrame 0)))
    (fun t => decide (t.trace = [.data 0xFF#8])) = true := by decide
/-- T6: `rows` saturates at 1023. -/
theorem test_xferE_saturates :
    nextIs (exec (.xferE rowA) (during (.xferE rowA) 15 { inFrame 1023 with cfg := lax }))
      (fun t => decide (t.rows = 1023#10 ∧ t.status = .ok)) = true := by decide
/-- G17: END before HEIGHT rows is refused; nothing changes on the lines. -/
theorem test_end_row_count : nextIs (exec .endFrame (during .endFrame 0 (inFrame 1)))
    (fun t => decide (t.trace = [.rsp .rowCountMismatch] ∧ t.lines = frameLines ∧ t.life = .frameActive)) = true := by
  decide
/-- B2: END de-asserts MODE first. -/
theorem test_end_mode : nextIs (exec .endFrame (during .endFrame 0 (inFrame 2)))
    (fun t => decide (t.trace = [.set .mode false])) = true := by decide
/-- P-N5: the third write of DISABLE goes out after a NACK. -/
theorem test_disable_after_nack :
    nextIs (exec .disable { during .disable 12 off with life := .poweringDown, nack := true, twIn := [some .ack] })
      (fun t => decide (t.trace = [.tw 0x01#8 0x00#8 .ack] ∧ t.nack = true)) = true := by decide
/-- P-N6: under policy Ignore DISABLE completes with a NACK recorded. -/
theorem test_disable_ignore :
    nextIs (exec .disable { during .disable 14 off with cfg := lax, life := .poweringDown, nack := true })
      (fun t => decide (t.trace = [.rsp .ok] ∧ t.life = .unpowered ∧ t.nack = true)) = true := by decide

/-- R-3: a reset in the middle of a TRANSFER. -/
theorem test_reset_in_transfer :
    nextIs (step { during (.xfer rowA) 5 (inFrame 0) with rstIn := [true], trace := [.data 0xD5#8] })
      (fun t => decide (t.lines = Lines.reset ∧ t.life = .unpowered ∧ t.trace = [] ∧ t.busy = false)) = true := by
  decide
/-- G21: an illegal byte is answered IllegalCommand in Faulted too. -/
theorem test_illegal_when_faulted : nextIs (step { faulted with busy := true, cmd := { byte := 0x00#8, buf := [] } })
    (fun t => decide (t.trace = [.rsp .illegalCommand] ∧ t.life = .faulted)) = true := by decide
/-- R80: the longest wait asks the timer for 25000 microseconds. -/
theorem test_wait_port : ({ during .enable 5 off with life := .poweringUp } : State).portsOut.waitUs = some 25000#15 := by
  decide

/-- P1's bytes: 01 02 03 03 04 05. -/
theorem test_assembler_P1 : ((commands 2 [.instr .enable, .frame [rowA, rowB], .comment "end of frame",
    .instr .disable]).map (·.byte)) = [0x01#8, 0x02#8, 0x03#8, 0x03#8, 0x04#8, 0x05#8] := by decide
/-- P5's bytes: 02 0B 0B 04 03. -/
theorem test_assembler_P5 : ((commands 2 [.eraseFrame rowB, .instr (.xfer rowB)]).map (·.byte)) =
    [0x02#8, 0x0B#8, 0x0B#8, 0x04#8, 0x03#8] := by decide
/-- R89: CLEARROW and REP. -/
theorem test_assembler_rep : commands 2 [.rep 3 (.clearRow rowA)] =
    List.replicate 3 (Instr.xferE rowA).command := by decide
/-- R89: FRAME needs HEIGHT buffers. -/
theorem test_assembler_frame_size : AsmLine.ok 8 2 (.frame [rowA]) = false := by decide

/-! ## States that meet the invariant -/

theorem off_inv : off.Inv where
  operand := by decide
  offers := by decide
  rows := by decide
  rest := fun _ => ⟨⟨fun p _ => by cases p <;> rfl, rfl⟩, .inl rfl⟩
  running := fun h => absurd h (by decide)

theorem idle_inv : idle.Inv where
  operand := by decide
  offers := by decide
  rows := by decide
  rest := fun _ => ⟨fun p => by cases p <;> rfl, rfl⟩
  running := fun h => absurd h (by decide)

theorem frame_inv : (inFrame 2).Inv where
  operand := by decide
  offers := by decide
  rows := by decide
  rest := fun _ => ⟨fun p => by cases p <;> rfl, rfl⟩
  running := fun h => absurd h (by decide)

theorem faulted_inv : faulted.Inv where
  operand := by decide
  offers := by decide
  rows := by decide
  rest := fun _ => ⟨⟨fun p hp => by cases p <;> first | rfl | exact absurd rfl hp, rfl⟩, rfl⟩
  running := fun h => absurd h (by decide)

/-- A powered block with the first step of a command to come. -/
theorem starting_inv : (during .disable 0 idle).Inv where
  operand := by decide
  offers := by decide
  rows := by decide
  rest := fun _ => ⟨fun p => by cases p <;> rfl, rfl⟩
  running := fun _ h => absurd rfl h

/-- ENABLE with its eight power steps done: WAKEUP driving 1, every bus line still high impedance (R149). -/
def rising : State :=
  { during .enable 8 off with
    life := .poweringUp, lines := { Lines.reset with wakeup := { dir := .output, level := true } } }

theorem rising_inv : rising.Inv where
  operand := by decide
  offers := by decide
  rows := by decide
  rest := fun h => by rcases h with h | h <;> exact absurd h (by decide)
  running := fun _ _ => ⟨.enable, by decide,
    ⟨rfl, by decide, fun p => by cases p <;> decide, rfl, fun _ h => absurd h (by decide), fun _ => rfl⟩⟩

/-- DISABLE with every bus line released and no rail write made yet (R150). -/
def falling : State :=
  { during .disable 8 off with
    life := .poweringDown, lines := { Lines.reset with wakeup := { dir := .output, level := true } } }

theorem falling_inv : falling.Inv where
  operand := by decide
  offers := by decide
  rows := by decide
  rest := fun h => by rcases h with h | h <;> exact absurd h (by decide)
  running := fun _ _ => ⟨.disable, by decide,
    ⟨rfl, by decide, fun p => by cases p <;> decide, rfl, fun h => absurd h (by decide), fun _ => rfl⟩⟩

/-- XFER A in a frame, at the DATA event of group 1. -/
def shifting : State :=
  { during (.xfer rowA) 4 (inFrame 1) with
    bus := { dir := .output, byte := 0xD5#8 },
    lines := { frameLines with stl := { dir := .output, level := false } } }

theorem shifting_inv : shifting.Inv where
  operand := by decide
  offers := by decide
  rows := by decide
  rest := fun h => by rcases h with h | h <;> exact absurd h (by decide)
  running := fun _ _ => ⟨.xfer rowA, by decide,
    ⟨rfl, by decide, fun p => by cases p <;> decide, rfl, fun h => absurd h (by decide), fun _ => rfl⟩⟩

/-! ## Witnesses: for each obligation with hypotheses, a concrete case that meets all of them -/

theorem witness_DecodeOfEncode : (Instr.xfer rowA).wf 8 = true ∧ Instr.enable.wf 8 = true := by decide
theorem witness_EncodeOfDecode :
    decode 8 [0x0B#8, 0x01#8, 0#8, 0#8, 0#8, 0#8, 0#8, 0#8, 0x01#8] = .ok (.xferE rowA) := by decide
theorem witness_IllegalBytes : ∃ (s : State) (c : Command) (rest : List Command), s.rst = false ∧ s.busy = false ∧
    s.host = c :: rest ∧ c.wf s.cfg.width = true ∧ ∃ e, decodeByte c.byte c.buf = .error e :=
  ⟨{ off with host := [{ byte := 0x13#8, buf := [] }] }, _, _, rfl, rfl, rfl, by decide, _, rfl⟩
theorem witness_CommandAccepted : ∃ (s : State) (c : Command) (rest : List Command), s.rst = false ∧ s.busy = false ∧
    s.host = c :: rest ∧ c.wf s.cfg.width = true :=
  ⟨{ off with host := [Instr.enable.command] }, _, _, rfl, rfl, rfl, by decide⟩
theorem witness_CommandAccepted_busy : ∃ s t : State, s.busy = true ∧ step s = .next t ∧ s.rst = false :=
  ⟨during .enable 1 off, _, rfl, rfl, rfl⟩
theorem witness_StepRunsInstruction : ∃ (s : State) (i : Instr), s.rst = false ∧ s.busy = true ∧
    decodeByte s.cmd.byte s.cmd.buf = .ok i :=
  ⟨during (.xfer rowA) 4 (inFrame 0), _, rfl, rfl, rfl⟩
theorem witness_IdleStepChangesNothing : idle.rst = false ∧ idle.busy = false ∧ idle.host = [] := by decide
theorem witness_ResetAnywhere : ({ shifting with rstIn := [true] } : State).rst = true := by decide
theorem witness_ResetValues : Instr.enable.command.wf State.reset.cfg.width = true := by decide
theorem witness_OneEventPerStep_event : ∃ t, step shifting = .next t := ⟨_, rfl⟩
theorem witness_OneEventPerStep_reset : ∃ t, step { shifting with rstIn := [true] } = .next t := ⟨_, rfl⟩
theorem witness_OneResponse_ends : ∃ s t : State, s.rst = false ∧ step s = .next t ∧ s.busy = true ∧ t.busy = false :=
  ⟨during .endFrame 2 (inFrame 2), _, rfl, rfl, rfl, rfl⟩
theorem witness_OneResponse_goes_on : ∃ s t : State, s.rst = false ∧ step s = .next t ∧ t.busy = true :=
  ⟨during .endFrame 1 (inFrame 2), _, rfl, rfl, rfl⟩
theorem witness_OneResponse_idle : ∃ t, idle.rst = false ∧ step idle = .next t ∧ idle.busy = false :=
  ⟨_, rfl, rfl, rfl⟩
theorem witness_StatusIsLastResponse : ∃ s t : State, s.status = (responses s.trace).getLastD .none ∧
    step s = .next t ∧ s.status = .ok :=
  ⟨{ during .beginFrame 0 idle with status := .ok, trace := [.rsp .ok] }, _, rfl, rfl, rfl⟩
theorem witness_ConfigReadOnly : ∃ t, step shifting = .next t := ⟨_, rfl⟩
theorem witness_Ports_response : ∃ (s t : State) (c : BitVec 3), step s = .next t ∧ s.portsOut.rspStatus = some c :=
  ⟨during .endFrame 2 (inFrame 2), _, _, rfl, rfl⟩
theorem witness_Ports_write_done : ∃ (s t : State) (r v : Byte) (a : Ack), step s = .next t ∧
    s.portsOut.twReq = some (r, v) ∧ s.twReport = some a :=
  ⟨{ during .enable 2 off with life := .poweringUp, twIn := [some .ack] }, _, _, _, _, rfl, rfl, rfl⟩
theorem witness_Ports_write_waits : ∃ (s t : State) (r v : Byte), step s = .next t ∧
    s.portsOut.twReq = some (r, v) ∧ s.twReport = none :=
  ⟨{ during .enable 2 off with life := .poweringUp, twIn := [none] }, _, _, _, rfl, rfl, rfl⟩
/-- The converses: a step that responds, one that emits a write, one that emits a delay of whole microseconds. -/
theorem witness_Ports_response_event : ∃ (s t : State) (st : Status), step s = .next t ∧
    t.trace = s.trace ++ [.rsp st] ∧ st = .rowCountMismatch :=
  ⟨during (.xfer rowA) 0 (inFrame 2), _, _, rfl, rfl, rfl⟩
theorem witness_Ports_write_event : ∃ (s t : State) (r v : Byte) (a : Ack), step s = .next t ∧
    t.trace = s.trace ++ [.tw r v a] ∧ v = 0x00#8 ∧ a = .nack :=
  ⟨{ during .disable 12 off with twIn := [some .nack] }, _, _, _, _, rfl, rfl, rfl, rfl⟩
theorem witness_Ports_wait : ∃ (s t : State) (w : BitVec 15), step s = .next t ∧ s.portsOut.waitUs = some w ∧
    t.trace = s.trace ++ [.wait (25000 : Nat)] :=
  ⟨during .disable 11 off, _, _, rfl, rfl, rfl⟩
theorem witness_Ports_no_response : ∃ t, step shifting = .next t ∧ shifting.rst = false ∧ shifting.busy = true ∧
    shifting.portsOut.rspStatus = none :=
  ⟨_, rfl, rfl, rfl, by decide⟩
theorem witness_GuardDecides_illegal : ∃ (s : State) (e : DecodeError), s.rst = false ∧ s.busy = true ∧ s.seq = 0 ∧
    decodeByte s.cmd.byte s.cmd.buf = .error e :=
  ⟨{ off with busy := true, cmd := { byte := 0x0A#8, buf := [] } }, _, rfl, rfl, rfl, rfl⟩
theorem witness_GuardDecides_refuses : ∃ (i : Instr) (s : State) (st : Status), s.seq = 0 ∧
    guardTable i s.life s.rows.toNat s.cfg.height s.cfg.rowCountCheck = some st ∧ st = .rowCountMismatch :=
  ⟨.endFrame, inFrame 1, _, rfl, rfl, rfl⟩
/-- The boundary: `rows = HEIGHT` is too late for a TRANSFER, `rows = HEIGHT - 1` is not. -/
theorem witness_GuardDecides_rows : guardTable (.xfer []) .frameActive 2 2 true = some .rowCountMismatch ∧
    guardTable (.xfer []) .frameActive 1 2 true = none ∧ guardTable (.xferE []) .frameActive 2 2 false = none ∧
    guardTable .endFrame .frameActive 2 2 true = none := by decide
theorem witness_GuardDecides_admits : ∃ (i : Instr) (s : State), s.seq = 0 ∧
    guardTable i s.life s.rows.toNat s.cfg.height s.cfg.rowCountCheck = none :=
  ⟨.endFrame, inFrame 2, rfl, rfl⟩
theorem witness_GuardDecides_middle : rising.Inv ∧ rising.life = .poweringUp := ⟨rising_inv, rfl⟩
theorem witness_GuardDecides_middle_down : falling.Inv ∧ falling.life = .poweringDown := ⟨falling_inv, rfl⟩
theorem witness_RefusalsArePrecise_first : ∃ (i : Instr) (s t : State), s.busy = true ∧ exec i s = .next t ∧
    t.busy = false ∧ s.seq = 0 :=
  ⟨.endFrame, during .endFrame 0 (inFrame 1), _, rfl, rfl, rfl, rfl⟩
theorem witness_RefusalsArePrecise_later : ∃ (i : Instr) (s t : State), s.busy = true ∧ exec i s = .next t ∧
    t.busy = false ∧ s.seq ≠ 0 :=
  ⟨.endFrame, during .endFrame 2 (inFrame 2), _, rfl, rfl, rfl, by decide⟩

/-- ENABLE at its first, a write and its last event, and at its completion. -/
theorem witness_EnableSteps_first : ∃ e, (enableEvents .ack .ack .ack)[off.seq]? = some e ∧ off.life = .unpowered ∧
    off.seq = 0 :=
  ⟨_, rfl, rfl, rfl⟩
theorem witness_EnableSteps_write : ∃ (s : State) (e : Event), (enableEvents .ack .nack .ack)[s.seq]? = some e ∧
    s.seq = 4 ∧ s.twReport = some .nack ∧ s.nack = false :=
  ⟨{ during .enable 4 off with twIn := [some .nack] }, _, rfl, rfl, rfl, rfl⟩
theorem witness_EnableSteps_last : ∃ (s : State) (e : Event), (enableEvents .ack .ack .ack)[s.seq]? = some e ∧
    s.seq = 15 :=
  ⟨during .enable 15 off, _, rfl, rfl⟩
theorem witness_EnableSteps_ignore : ∃ (s : State) (e : Event), (enableEvents .ack .ack .nack)[s.seq]? = some e ∧
    s.seq = 8 ∧ s.nack = true ∧ s.cfg.nackPolicy = .ignore :=
  ⟨{ during .enable 8 off with cfg := lax, nack := true }, _, rfl, rfl, rfl, rfl⟩
theorem witness_EnableSteps_completes : (during .enable 16 off).seq = 16 := rfl
theorem witness_EnableAborts : ∃ s : State, (s.seq, 0x3F#8) ∈ [(2, 0x20#8), (4, 0xA0#8), (6, 0x3F#8)] ∧
    s.cfg.nackPolicy = .fault ∧ s.nack = false ∧ s.twReport = some .nack :=
  ⟨{ during .enable 6 off with twIn := [some .nack] }, by decide, rfl, rfl, rfl⟩
theorem witness_EnableRuns : ∃ (s : State) (rest : List Command) (tw : List (Option Ack)), s.Offered .enable rest ∧
    s.life = .unpowered ∧ s.twIn = some .ack :: some .ack :: some .ack :: tw :=
  ⟨{ off with host := [Instr.enable.command], twIn := [some .ack, some .ack, some .ack] }, [], [],
    ⟨rfl, rfl, rfl, fun _ h => absurd h (by simp [off, State.reset])⟩, rfl, rfl⟩
theorem witness_EnableRuns_ignore : ∃ (s : State) (rest : List Command) (tw : List (Option Ack)),
    s.Offered .enable rest ∧ s.life = .unpowered ∧ s.twIn = some .ack :: some .ack :: some .nack :: tw ∧
    s.cfg.nackPolicy = .ignore :=
  ⟨{ off with cfg := lax, host := [Instr.enable.command], twIn := [some .ack, some .ack, some .nack] }, [], [],
    ⟨rfl, rfl, rfl, fun _ h => absurd h (by simp [off, State.reset])⟩, rfl, rfl, rfl⟩
theorem witness_DisableSteps_first : ∃ e, (disableEvents .ack .ack .ack)[idle.seq]? = some e ∧
    idle.life = .poweredIdle ∧ idle.seq = 0 :=
  ⟨_, rfl, rfl, rfl⟩
theorem witness_DisableSteps_write : ∃ (s : State) (e : Event), (disableEvents .nack .ack .nack)[s.seq]? = some e ∧
    s.seq = 12 ∧ s.twReport = some .nack :=
  ⟨{ during .disable 12 off with twIn := [some .nack] }, _, rfl, rfl, rfl⟩
theorem witness_DisableSteps_faults : ∃ s : State, s.seq = 14 ∧ s.nack = true ∧ s.cfg.nackPolicy = .fault :=
  ⟨{ during .disable 14 off with nack := true }, rfl, rfl, rfl⟩
theorem witness_DisableSteps_completes : ∃ s : State, s.seq = 14 ∧ s.nack = false :=
  ⟨during .disable 14 off, rfl, rfl⟩
theorem witness_DisableRuns : ∃ (s : State) (rest : List Command) (tw : List (Option Ack)), s.Offered .disable rest ∧
    s.life = .poweredIdle ∧ s.twIn = some .ack :: some .nack :: some .ack :: tw :=
  ⟨{ idle with host := [Instr.disable.command], twIn := [some .ack, some .nack, some .ack] }, [], [],
    ⟨rfl, rfl, rfl, fun _ h => absurd h (by simp [idle, off, State.reset])⟩, rfl, rfl⟩
theorem witness_UnfinishedWriteWaits_enable : ∃ s : State, s.seq = 6 ∧ s.nack = false ∧ s.twReport = none :=
  ⟨{ during .enable 6 off with twIn := [none] }, rfl, rfl, rfl⟩
theorem witness_UnfinishedWriteWaits_disable : ∃ s : State, s.seq = 8 ∧ s.twReport = none :=
  ⟨{ during .disable 8 off with twIn := [none] }, rfl, rfl⟩
theorem witness_EnableThenDisable : ∃ (s : State) (rest : List Command) (tw : List (Option Ack)),
    s.Offered .enable (Instr.disable.command :: rest) ∧ s.life = .unpowered ∧
    s.twIn = List.replicate 6 (some .ack) ++ tw :=
  ⟨{ off with host := [Instr.enable.command, Instr.disable.command], twIn := List.replicate 6 (some .ack) }, [], [],
    ⟨rfl, rfl, rfl, fun _ h => absurd h (by simp [off, State.reset])⟩, rfl, rfl⟩
theorem witness_TwoWireWritesOnly : ∃ (s t : State) (e : Event) (w : TwoWire), step s = .next t ∧
    t.trace = s.trace ++ [e] ∧ e.twoWire = some w :=
  ⟨{ during .disable 12 off with twIn := [some .ack] }, _, _, _, rfl, rfl, rfl⟩
theorem witness_PowerFrame_enable : ∃ t, exec .enable rising = .next t := ⟨_, rfl⟩
theorem witness_PowerFrame_disable : ∃ t, exec .disable { falling with twIn := [some .nack] } = .next t := ⟨_, rfl⟩

theorem witness_BeginSteps_first : ∃ e, (beginEvents idle.cfg)[idle.seq]? = some e ∧ idle.seq = 0 ∧
    idle.life = .poweredIdle :=
  ⟨_, rfl, rfl, rfl⟩
theorem witness_BeginSteps_last : ∃ e, (beginEvents small)[(during .beginFrame 6 idle).seq]? = some e := ⟨_, rfl⟩
theorem witness_BeginSteps_completes : (during .beginFrame 7 idle).seq = 7 := rfl
theorem witness_EndSteps_first : ∃ e, endEvents[(inFrame 2).seq]? = some e ∧ (inFrame 2).life = .frameActive ∧
    (inFrame 2).rows.toNat = (inFrame 2).cfg.height :=
  ⟨_, rfl, rfl, rfl⟩
theorem witness_EndSteps_completes : (during .endFrame 2 (inFrame 2)).seq = 2 := rfl
theorem witness_FrameCommandsRun_begin : ∃ (s : State) (rest : List Command), s.Offered .beginFrame rest ∧
    s.life = .poweredIdle :=
  ⟨{ idle with host := [Instr.beginFrame.command] }, [],
    ⟨rfl, rfl, rfl, fun _ h => absurd h (by simp [idle, off, State.reset])⟩, rfl⟩
theorem witness_FrameCommandsRun_end : ∃ (s : State) (rest : List Command), s.Offered .endFrame rest ∧
    s.life = .frameActive ∧ s.rows.toNat = s.cfg.height :=
  ⟨{ inFrame 2 with host := [Instr.endFrame.command] }, [],
    ⟨rfl, rfl, rfl, fun _ h => absurd h (by simp [inFrame, idle, off, State.reset])⟩, rfl, rfl⟩
theorem witness_FrameCommandsFrame_begin : ∃ t, exec .beginFrame (during .beginFrame 7 idle) = .next t := ⟨_, rfl⟩
theorem witness_FrameCommandsFrame_end : ∃ t, exec .endFrame (during .endFrame 2 (inFrame 2)) = .next t := ⟨_, rfl⟩

theorem witness_TransferSteps_first : ∃ e, (rowEvents small rowA false)[(inFrame 1).seq]? = some e ∧
    (inFrame 1).life = .frameActive ∧ (inFrame 1).rows.toNat < (inFrame 1).cfg.height :=
  ⟨_, rfl, rfl, by decide⟩
theorem witness_TransferSteps_last : ∃ e, (rowEvents small rowA true)[(during (.xferE rowA) 14 (inFrame 1)).seq]? =
    some e := ⟨_, rfl⟩
theorem witness_TransferSteps_completes : (during (.xfer rowA) 15 (inFrame 1)).seq = 3 * small.groups + 9 := by decide
theorem witness_TransferSteps_width : defaultConfig.width = 1024 := rfl
theorem witness_TransferRuns : ∃ (s : State) (rest : List Command), s.Offered (.xfer rowA) rest ∧
    s.life = .frameActive ∧ s.rows.toNat < s.cfg.height :=
  ⟨{ inFrame 1 with host := [(Instr.xfer rowA).command] }, [],
    ⟨rfl, rfl, by decide, fun _ h => absurd h (by simp [inFrame, idle, off, State.reset])⟩, rfl, by decide⟩
theorem witness_TransferRuns_erase : ∃ (s : State) (rest : List Command), s.Offered (.xferE rowB) rest ∧
    s.life = .frameActive ∧ s.rows.toNat < s.cfg.height :=
  ⟨{ inFrame 0 with host := [(Instr.xferE rowB).command] }, [],
    ⟨rfl, rfl, by decide, fun _ h => absurd h (by simp [inFrame, idle, off, State.reset])⟩, rfl, by decide⟩
theorem witness_RowPulseCounts_1024 : ∃ (s : State) (rest : List Command), s.Offered (.xfer []) rest ∧
    s.life = .frameActive ∧ s.rows.toNat < s.cfg.height ∧ s.cfg.width = 1024 :=
  ⟨{ State.reset with life := .frameActive, host := [(Instr.xfer []).command] }, [],
    ⟨rfl, rfl, by decide, fun _ h => absurd h (by simp [State.reset])⟩, rfl, by decide, rfl⟩
theorem witness_TransferFrame_xfer : ∃ t, exec (.xfer rowA) shifting = .next t := ⟨_, rfl⟩
theorem witness_TransferFrame_xferE : ∃ t, exec (.xferE rowB) (during (.xferE rowB) 15 (inFrame 1)) = .next t :=
  ⟨_, rfl⟩
theorem witness_EraseIgnoresOperand_reads : ∃ (s : State) (buf : Memory), s.rst = false ∧ s.busy = true ∧
    s.fetch = .ok (.xferE buf) ∧ 1 < s.cfg.groups ∧ s.seq = 3 * 1 + 1 :=
  ⟨during (.xferE rowA) 4 (inFrame 0), rowA, rfl, rfl, rfl, by decide, rfl⟩
theorem witness_HighPixelBitsIgnored : ∀ a, (Memory.read [(0, 0x81#8), (1, 0x02#8)] a).getLsbD 0 =
    (Memory.read [(0, 0x01#8)] a).getLsbD 0 := by
  intro a
  match a with
  | 0 => decide
  | 1 => decide
  | _ + 2 => simp [Memory.read]
theorem witness_EncodeReadsFiveBits : (0x03#8).getLsbD 0 = (0x01#8).getLsbD 0 ∧ (0x04#8).getLsbD 0 = (0x00#8).getLsbD 0 ∧
    (0x05#8).getLsbD 0 = (0x01#8).getLsbD 0 ∧ (0x06#8).getLsbD 0 = (0x00#8).getLsbD 0 := by decide
theorem witness_DefaultTableValues : 0x55#8 ∈ defaultLut.toList ∧ 0xFF#8 ∈ defaultLut.toList := by decide
theorem witness_ConfigurationsRefused : (Config.build smallParams).isSome = true ∧
    (Config.build { smallParams with width := 6 }).isSome = false := by decide

theorem witness_InvariantAtReset : ∀ o ∈ [Instr.enable.command, (Instr.xfer rowA).command], o.wf small.width = true := by
  decide
theorem witness_InvariantKept : shifting.Inv ∧ ∃ t, step shifting = .next t := ⟨shifting_inv, _, rfl⟩
theorem witness_NoStepStops : shifting.Inv := shifting_inv

/-- ENABLE, BEGIN on the small panel: a run to `PoweredIdle`, and one to `FrameActive`, for the clauses of
ReachableLevels. -/
theorem witness_ReachableLevels_unpowered : ∃ t,
    run 0 (State.start small [Instr.enable.command] [] [] 0) = .next t ∧ t.life = .unpowered ∧ t.busy = false :=
  ⟨_, rfl, rfl, rfl⟩
theorem witness_ReachableLevels_idle : nextIs (run 18 (State.start small [Instr.enable.command] []
    [some .ack, some .ack, some .ack] 0)) (fun t => decide (t.life = .poweredIdle ∧ t.busy = false)) = true := by decide
theorem witness_ReachableLevels_frame : nextIs (run 27 (State.start small
    [Instr.enable.command, Instr.beginFrame.command] [] [some .ack, some .ack, some .ack] 0))
    (fun t => decide (t.life = .frameActive ∧ t.busy = false ∧ t.cfg.rowCountCheck = true)) = true := by decide

theorem witness_NothingDriven_unpowered : off.Inv ∧ off.life = .unpowered := ⟨off_inv, rfl⟩
theorem witness_NothingDriven_faulted : faulted.Inv ∧ faulted.life = .faulted := ⟨faulted_inv, rfl⟩
theorem witness_NothingDriven_rising : rising.Inv ∧ rising.life = .poweringUp ∧ rising.seq ≤ 8 :=
  ⟨rising_inv, rfl, by decide⟩
theorem witness_NothingDriven_falling : falling.Inv ∧ falling.life = .poweringDown ∧ 8 ≤ falling.seq :=
  ⟨falling_inv, rfl, by decide⟩
theorem witness_OnlyOutputs_data : shifting.Inv ∧ ∃ t b, step shifting = .next t ∧ t.trace = shifting.trace ++ [.data b] :=
  ⟨shifting_inv, _, _, rfl, rfl⟩
theorem witness_OnlyOutputs_set : (during .disable 0 idle).Inv ∧ ∃ (s t : State) (p : Line) (v : Bool), s.Inv ∧
    step s = .next t ∧ t.trace = s.trace ++ [.set p v] :=
  ⟨starting_inv, { inFrame 2 with busy := true, cmd := Instr.endFrame.command }, _, _, _,
    ⟨by decide, by decide, by decide, fun _ => ⟨fun p => by cases p <;> rfl, rfl⟩, fun _ h => absurd rfl h⟩, rfl, rfl⟩
theorem witness_LifeTransitions : (during .disable 0 idle).Inv ∧ (during .disable 0 idle).rst = false ∧
    ∃ t, step (during .disable 0 idle) = .next t ∧ t.life ≠ (during .disable 0 idle).life :=
  ⟨starting_inv, rfl, _, rfl, by decide⟩
theorem witness_FaultedAbsorbs : faulted.Inv ∧ faulted.life = .faulted ∧ faulted.rst = false := ⟨faulted_inv, rfl, rfl⟩
/-- A legal command and an illegal byte before their first step, and a reset, in `Faulted`. -/
theorem witness_FaultedAbsorbs_clauses :
    (∃ i, ({ faulted with busy := true, cmd := Instr.enable.command } : State).fetch = .ok i) ∧
    (∃ e, ({ faulted with busy := true } : State).fetch = .error e) ∧
    ({ faulted with rstIn := [true] } : State).rst = true :=
  ⟨⟨_, rfl⟩, ⟨_, rfl⟩, rfl⟩
theorem witness_Outcomes_completed : (during .disable 0 idle).Inv ∧ ∃ s t : State, s.Inv ∧ s.rst = false ∧
    step s = .next t ∧ s.busy = true ∧ t.busy = false ∧ t.status = .ok :=
  ⟨starting_inv, { during .endFrame 2 idle with life := .frameActive, rows := 2#10 }, _,
    ⟨by decide, by decide, by decide, fun h => by rcases h with h | h <;> exact absurd h (by decide),
      fun _ _ => ⟨.endFrame, by decide, ⟨rfl, by decide, fun p => by cases p <;> decide, rfl,
        fun h => absurd h (by decide), fun _ => by decide⟩⟩⟩, rfl, rfl, rfl, rfl, rfl⟩
theorem witness_Outcomes_refused : ∃ s t : State, s.Inv ∧ s.rst = false ∧ step s = .next t ∧ s.busy = true ∧
    t.busy = false ∧ t.status = .protocolViolation :=
  ⟨{ during .endFrame 0 idle with rows := 0#10 }, _,
    ⟨by decide, by decide, by decide, fun _ => ⟨fun p => by cases p <;> rfl, rfl⟩, fun _ h => absurd rfl h⟩,
    rfl, rfl, rfl, rfl, rfl⟩
/-- The last step of the ENABLE abort path. -/
theorem witness_Outcomes_faulted : ∃ s t : State, s.Inv ∧ s.rst = false ∧ step s = .next t ∧ s.busy = true ∧
    t.busy = false ∧ t.status = .busTransactionFailure :=
  ⟨{ during .enable 4 off with
      life := .poweringUp, nack := true,
      lines := { Lines.reset with wakeup := { dir := .output, level := false } } }, _,
    ⟨by decide, by decide, by decide, fun h => by rcases h with h | h <;> exact absurd h (by decide),
      fun _ _ => ⟨.enable, by decide, ⟨rfl, by decide, fun p => by cases p <;> decide, rfl,
        fun _ _ => by decide, fun _ => rfl⟩⟩⟩, rfl, rfl, rfl, rfl, rfl⟩
theorem witness_ResetWithoutHazard_off : off.Inv ∧ off.resetHazard = false := ⟨off_inv, rfl⟩
theorem witness_ResetWithoutHazard_faulted : faulted.Inv ∧ faulted.resetHazard = false := ⟨faulted_inv, rfl⟩
theorem test_reset_hazard : idle.resetHazard = true ∧ (during .enable 0 off).resetHazard = true := by decide
theorem witness_RowCounter_counts : ∃ t, step (during (.xfer rowA) 15 (inFrame 1)) = .next t := ⟨_, rfl⟩
theorem witness_RowCounter_clears : ∃ t, step (during .beginFrame 7 idle) = .next t := ⟨_, rfl⟩
theorem witness_DataLinesCarryBits : shifting.bus.dir = .output ∧ ∃ t b, step shifting = .next t ∧
    t.trace = shifting.trace ++ [.data b] ∧ b = 0x57#8 :=
  ⟨rfl, _, _, rfl, rfl, rfl⟩
theorem witness_TraceAndLinesUnread : ∃ t, exec (.xfer rowA) shifting = .next t := ⟨_, rfl⟩
theorem witness_EveryCommandResponds : ∃ s : State, s.Inv ∧ s.busy = true ∧ s.seq = 0 ∧ s.noReset ∧
    3 ≤ s.twIn.countP Option.isSome ∧ s.twIn.count none = 1 :=
  ⟨{ during .disable 0 idle with twIn := [some .ack, none, some .nack, some .ack] },
    ⟨by decide, by decide, by decide, fun _ => ⟨fun p => by cases p <;> rfl, rfl⟩, fun _ h => absurd rfl h⟩,
    rfl, rfl, fun _ h => absurd h (by simp [during, idle, off, State.reset]), by decide, by decide⟩
theorem witness_FramePulseCounts : ∃ (s : State) (rows : List (Bool × Memory)), s.busy = false ∧ s.noReset ∧
    s.life = .poweredIdle ∧ rows.length = s.cfg.height ∧ (∀ r ∈ rows, r.2.fits s.cfg.width = true) ∧
    s.host = Instr.beginFrame.command ::
      (rows.map fun r => (if r.1 then Instr.xferE r.2 else Instr.xfer r.2).command) ++ Instr.endFrame.command :: [] :=
  ⟨{ idle with host := [Instr.beginFrame.command, (Instr.xfer rowA).command, (Instr.xferE rowB).command,
                        Instr.endFrame.command] }, [(false, rowA), (true, rowB)], rfl,
    fun _ h => absurd h (by simp [idle, off, State.reset]), rfl, rfl, by decide, rfl⟩

/-- Groups 0 and 1 are both there at WIDTH 8: the DATA step of the last group, with and without erase. -/
theorem witness_TransferReads_xfer : ∃ s : State, s.rst = false ∧ s.busy = true ∧ s.fetch = .ok (.xfer rowA) ∧
    1 < s.cfg.groups ∧ s.seq = 3 * 1 + 1 :=
  ⟨shifting, rfl, rfl, rfl, by decide, rfl⟩
theorem witness_TransferReads_xferE : ∃ s : State, s.rst = false ∧ s.busy = true ∧ s.fetch = .ok (.xferE rowB) ∧
    0 < s.cfg.groups ∧ s.seq = 3 * 0 + 1 :=
  ⟨during (.xferE rowB) 1 (inFrame 0), rfl, rfl, rfl, by decide, rfl⟩
/-- The flush clock's first step, which is at 3G+1: no group is read there. -/
theorem witness_TransferReads_none : ∃ s : State, s.rst = false ∧ s.busy = true ∧ s.fetch = .ok (.xfer rowA) ∧
    ∀ k, k < s.cfg.groups → s.seq ≠ 3 * k + 1 :=
  ⟨during (.xfer rowA) 7 (inFrame 0), rfl, rfl, rfl, by decide⟩
theorem witness_StuckWithoutCompletion : ∃ s : State, s.noReset ∧ s.writeRequest.isSome = true ∧
    s.twIn = List.replicate 2 none ++ [some .ack] :=
  ⟨{ during .enable 2 off with life := .poweringUp, twIn := [none, none, some .ack] },
    fun _ h => absurd h (by simp [during, off, State.reset]), rfl, rfl⟩

/-- T1, R61: pixels 4 to 7 of scanline A are read for group 1, and only pixel 7 is 1. -/
theorem test_pixel_ports : shifting.portsOut.pxAddr = [4#10, 5#10, 6#10, 7#10] ∧
    shifting.portsIn.pxData = [0x00#8, 0x00#8, 0x00#8, 0x01#8] := by decide
/-- R146, R211 (assumption 28): a listed report is shown at the write, and not at a step that requests none. -/
theorem test_tw_inputs :
    ({ during .enable 2 off with twIn := [some .nack] } : State).portsIn.twAck = some .nack ∧
    ({ during .enable 1 off with twIn := [some .nack] } : State).portsIn.twDone = false ∧
    ({ idle with twIn := [some .nack] } : State).portsIn.twDone = false ∧
    ({ shifting with twIn := [some .nack] } : State).portsIn.twAck = none := by decide
/-- R215: a write that is not done is Stuck; one that is done is not; after the response the class is that of the status. -/
theorem test_outcome_classes :
    ({ during .enable 2 off with life := .poweringUp, twIn := [none] } : State).outcome = some .stuck ∧
    ({ during .enable 2 off with life := .poweringUp, twIn := [some .nack] } : State).outcome = none ∧
    ({ idle with status := .ok } : State).outcome = some .completed ∧
    ({ faulted with status := .busTransactionFailure } : State).outcome = some .faulted := by decide

end Sys2Proof.Tests
end

