-- ==== Sys2Proof/Proofs/Scope.lean ====
section
/-! PROOFS. The statements of spec/00_scope.md: which configurations can be built (R10), and that a step is one event
at most (R13). -/

namespace Sys2Proof

/-! ## Well-formed configurations -/

/-- The model's own check for repeated numbers is `List.Nodup`. -/
theorem allDistinct_iff_nodup (ns : List Nat) : allDistinct ns = true ↔ ns.Nodup := by
  induction ns with
  | nil => simp [allDistinct]
  | cons n ns ih => simp [allDistinct, ih]

/-- A map names 18 GPIO numbers (R31). -/
@[simp] theorem PinMap.length_gpios (m : PinMap) : m.gpios.length = 18 := rfl

/-- R31: the GPIO numbers are below GPIO_COUNT and pairwise distinct. -/
theorem PinMap.valid_iff (m : PinMap) (gpioCount : Nat) :
    m.valid gpioCount = true ↔ (∀ n ∈ m.gpios, n < gpioCount) ∧ m.gpios.Nodup := by
  simp only [PinMap.valid, Bool.and_eq_true, List.all_eq_true, decide_eq_true_eq, allDistinct_iff_nodup]

/-- R10, each condition as a proposition. -/
theorem Params.wf_iff (p : Params) : p.wf = true ↔
    p.width % 4 = 0 ∧ 4 ≤ p.width ∧ 1 ≤ p.height ∧ p.height ≤ 1023 ∧ 0 < p.tCkvLow ∧ 0 < p.tSync ∧
    (∀ n ∈ p.pinMap.gpios, n < p.gpioCount) ∧ p.pinMap.gpios.Nodup := by
  simp only [Params.wf, Bool.and_eq_true, beq_iff_eq, decide_eq_true_eq, PinMap.valid_iff, and_assoc]

/-- Building succeeds on exactly the well-formed parameters (R10). -/
theorem Config.build_isSome (p : Params) : (Config.build p).isSome = true ↔ p.wf = true := by
  unfold Config.build
  split <;> simp [*]

/-- Settles O40: the check that `Config.build` makes, read condition by condition. -/
theorem configurationsRefused : Obligations.ConfigurationsRefused := by
  intro p
  rw [Config.build_isSome, Params.wf_iff]
  simp only [PinMap.length_gpios, true_and, and_comm (a := p.pinMap.gpios.Nodup)]

end Sys2Proof

namespace Sys2Proof.Machine

/-! ## One event per step -/

/-- A micro-program step emits its event, or none while it waits for the two-wire master (R146). -/
theorem perform_trace {a : Action} {s t : State} (h : perform a s = .next t) :
    t.trace = s.trace ∨ ∃ e, t.trace = s.trace ++ [e] := by
  rcases perform_cases a s with
    ⟨e, _, hp⟩ | ⟨_, e, _, hp⟩ | ⟨_, _, _, hp⟩ | ⟨v, k, _, _, hp⟩ | ⟨_, _, st, _, hp⟩ <;>
    obtain rfl := Host.Outcome.next.inj (hp.symm.trans h)
  · exact .inr ⟨e, rfl⟩
  · exact .inr ⟨e, rfl⟩
  · exact .inl rfl
  · exact .inr ⟨.tw twReg v k, rfl⟩
  · exact .inr ⟨.rsp st, rfl⟩

/-- A step of a command emits at most one event: the guard's refusal, or what the micro-program step emits. -/
theorem exec_trace {i : Instr} {s t : State} (h : exec i s = .next t) :
    t.trace = s.trace ∨ ∃ e, t.trace = s.trace ++ [e] := by
  rcases exec_next h with ⟨st, _, rfl⟩ | ⟨_, _, _, hp⟩
  · exact .inr ⟨.rsp st, rfl⟩
  · exact perform_trace hp

/-- Settles O10, by the cases of R170: reset, idle, acceptance, an illegal byte, a step of a command. -/
theorem oneEventPerStep : Obligations.OneEventPerStep := by
  intro s t h
  rcases step_next h with
    ⟨hr, rfl⟩ | ⟨hr, _, _, rfl⟩ | ⟨_, _, hr, _, _, _, rfl⟩ | ⟨_, hr, _, _, rfl⟩ | ⟨_, hr, _, _, he⟩
  · exact .inl ⟨hr, rfl⟩
  · exact .inr ⟨hr, .inl rfl⟩
  · exact .inr ⟨hr, .inl rfl⟩
  · exact .inr ⟨hr, .inr ⟨.rsp .illegalCommand, rfl⟩⟩
  · exact .inr ⟨hr, by simpa using exec_trace he⟩

end Sys2Proof.Machine
end

