-- ==== Sys2Proof/Proofs/State.lean ====
section
/-! PROOFS. The statements of spec/10_state.md: the views and codes of the control fields (R37, R39, R41), the
configuration (R30, R42), the invariant at reset (R47, R48), what the steps of a command do not read (R46, R47), the
status (R39) and the row counter (R38). -/

namespace Sys2Proof.Machine

/-! ## Views and codes of the control fields -/

/-- R41: FrameState is Active in `FrameActive` only. -/
theorem Life.frameState_eq_active {l : Life} : l.frameState = .active ↔ l = .frameActive := by
  cases l <;> simp [Life.frameState]

/-- Settles O52: the table of R41, then the two views together. -/
theorem powerStateViews : Obligations.PowerStateViews := by
  refine ⟨rfl, rfl, rfl, rfl, rfl, rfl, fun _ => Life.frameState_eq_active, fun l => ?_⟩
  rw [Life.frameState_eq_active]
  exact ⟨fun h => h.1, fun h => ⟨h, h ▸ rfl⟩⟩

/-- The lifecycle state of a code; 6 and 7 are reserved (R37). -/
def Life.ofCode (c : BitVec 3) : Option Life :=
  match c.toNat with
  | 0 => some .unpowered
  | 1 => some .poweringUp
  | 2 => some .poweredIdle
  | 3 => some .frameActive
  | 4 => some .poweringDown
  | 5 => some .faulted
  | _ => none

theorem Life.ofCode_code (l : Life) : Life.ofCode l.code = some l := by
  cases l <;> rfl

theorem Life.code_injective : Function.Injective Life.code := fun l m h => by
  simpa [Life.ofCode_code] using congrArg Life.ofCode h

/-- The status of a code; 5 and 6 are never held (R39). -/
def Status.ofCode (c : BitVec 3) : Option Status :=
  match c.toNat with
  | 0 => some .ok
  | 1 => some .protocolViolation
  | 2 => some .rowCountMismatch
  | 3 => some .busTransactionFailure
  | 4 => some .illegalCommand
  | 7 => some .none
  | _ => Option.none

theorem Status.ofCode_code (st : Status) : Status.ofCode st.code = some st := by
  cases st <;> rfl

theorem Status.code_injective : Function.Injective Status.code := fun a b h => by
  simpa [Status.ofCode_code] using congrArg Status.ofCode h

/-- Settles O53: the tables of R37 and R39, each with a reader that takes its codes back. -/
theorem fieldCodes : Obligations.FieldCodes :=
  ⟨rfl, rfl, rfl, rfl, rfl, rfl, rfl, rfl, rfl, rfl, rfl, rfl,
    fun _ _ h => Life.code_injective h, fun _ _ h => Status.code_injective h⟩

/-! ## The invariant at reset -/

/-- R47: every bus line is high impedance, and WAKEUP with them, so the lines are those of `Unpowered` (R48(d)). -/
theorem State.start_restOk (c : Config) (host : List Command) (rstIn : List Bool) (twIn : List (Option Ack))
    (n : Nat) : (State.start c host rstIn twIn n).restOk :=
  ⟨⟨fun p _ => Pad.drive_eq_none.mpr (congrArg Pad.dir (Lines.get_reset p)), rfl⟩, .inl rfl⟩

theorem State.start_inv {c : Config} {host : List Command} (rstIn : List Bool) (twIn : List (Option Ack)) (n : Nat)
    (h : ∀ o ∈ host, o.wf c.width = true) : (State.start c host rstIn twIn n).Inv where
  operand := Memory.nil_fits c.width
  offers := h
  rows := fun _ => Nat.zero_le c.height
  rest := fun _ => State.start_restOk c host rstIn twIn n
  running := fun hb => absurd hb (by simp [State.start, State.reset])

/-- Settles O41: `State.reset` is the start with the default configuration and no input listed. -/
theorem invariantAtReset : Obligations.InvariantAtReset :=
  ⟨State.start_inv (c := defaultConfig) [] [] 0 (by simp), fun _ _ rstIn twIn n h => State.start_inv rstIn twIn n h⟩

/-! ## The configuration -/

theorem perform_cfg {a : Action} {s t : State} (h : perform a s = .next t) : t.cfg = s.cfg := by
  rcases perform_cases a s with
    ⟨_, _, hp⟩ | ⟨_, _, _, hp⟩ | ⟨_, _, _, hp⟩ | ⟨_, _, _, _, hp⟩ | ⟨_, _, _, _, hp⟩ <;>
    obtain rfl := Host.Outcome.next.inj (hp.symm.trans h) <;> rfl

theorem exec_cfg {i : Instr} {s t : State} (h : exec i s = .next t) : t.cfg = s.cfg := by
  rcases exec_next h with ⟨_, _, rfl⟩ | ⟨_, _, _, hp⟩
  · rfl
  · exact perform_cfg hp

/-- Settles O13, by the cases of R170. -/
theorem configReadOnly : Obligations.ConfigReadOnly := by
  intro s t h
  rcases step_next h with
    ⟨_, rfl⟩ | ⟨_, _, _, rfl⟩ | ⟨_, _, _, _, _, _, rfl⟩ | ⟨_, _, _, _, rfl⟩ | ⟨_, _, _, _, he⟩
  · rfl
  · rfl
  · rfl
  · rfl
  · exact (exec_cfg he).trans s.clock_cfg

/-! ## How a command goes on and how it ends -/

/-- A micro-program step after which its command goes on: it emits no response. -/
def Action.goesOn : Action → Prop
  | .emit e => responses [e] = []
  | .enter _ e => responses [e] = []
  | .write _ => True
  | .finish _ _ _ => False

/-- The row counter after the step that ends command `i` (R38, R173, R174). -/
def rowsAtEnd (i : Instr) (s : State) : BitVec 10 :=
  match i with
  | .enable => s.rows
  | .beginFrame => 0#10
  | .xfer _ => nextRows s.rows
  | .xferE _ => nextRows s.rows
  | .endFrame => s.rows
  | .disable => s.rows

theorem lastSeq_pos (g : Nat) (i : Instr) : 0 < lastSeq g i := by
  cases i <;> simp [lastSeq]

/-- R147, R148: ENABLE goes on before seq 16; it ends there, or before on its abort path, and leaves `rows`. -/
theorem enableAction_cases {s : State} {a : Action} (h : enableAction s = .ok a) :
    (a.goesOn ∧ s.seq ≠ 16) ∨ ∃ l st, a = .finish l s.rows st := by
  unfold enableAction at h
  split at h
  · next ha =>
    cases h
    exact .inl ⟨rfl, fun hq => by simp [hq] at ha⟩
  · split at h
    · cases h
      exact .inr ⟨_, _, rfl⟩
    · split at h <;> cases h <;> simp [Action.goesOn, responses, *]

/-- R150: DISABLE goes on before seq 14 and ends there, with or without a NACK recorded. -/
theorem disableAction_cases {s : State} {a : Action} (h : disableAction s = .ok a) :
    (a.goesOn ∧ s.seq ≠ 14) ∨ (s.seq = 14 ∧ ∃ l st, a = .finish l s.rows st) := by
  unfold disableAction at h
  split at h
  -- seq 14, where the NACK decides between the two responses
  case h_15 hq => split at h <;> cases h <;> exact .inr ⟨hq, _, _, rfl⟩
  all_goals cases h <;> simp [Action.goesOn, responses, *]

/-- R173: BEGIN goes on before seq 7 and ends there. -/
theorem beginAction_cases {s : State} {a : Action} (h : beginAction s = .ok a) :
    (a.goesOn ∧ s.seq ≠ 7) ∨ (s.seq = 7 ∧ a = .finish .frameActive 0#10 .ok) := by
  unfold beginAction at h
  split at h <;> cases h <;> simp [Action.goesOn, responses, *]

/-- R175: END goes on before seq 2 and ends there. -/
theorem endAction_cases {s : State} {a : Action} (h : endAction s = .ok a) :
    (a.goesOn ∧ s.seq ≠ 2) ∨ (s.seq = 2 ∧ a = .finish .poweredIdle s.rows .ok) := by
  unfold endAction at h
  split at h <;> cases h <;> simp [Action.goesOn, responses, *]

/-- R121: none of the three steps of a group ends the row. -/
theorem groupAction_goesOn {erase : Bool} {buf : Memory} {s : State} {k n : Nat} {a : Action}
    (h : groupAction erase buf s k n = .ok a) : a.goesOn := by
  unfold groupAction at h
  split at h
  · split at h <;> cases h
    rfl
  · cases h
    rfl
  · cases h
    rfl

/-- R121, R174: of the nine closing steps the last one ends the row. -/
theorem closingAction_cases {s : State} {n : Nat} {a : Action} (h : closingAction s n = .ok a) :
    (a.goesOn ∧ n ≠ 8) ∨ (n = 8 ∧ a = .finish s.life (nextRows s.rows) .ok) := by
  unfold closingAction at h
  split at h <;> cases h <;> simp [Action.goesOn, responses]

/-- R121, R174: a TRANSFER goes on before seq 3G+9 and ends there. -/
theorem rowAction_cases {erase : Bool} {buf : Memory} {s : State} {a : Action} (h : rowAction erase buf s = .ok a) :
    (a.goesOn ∧ s.seq ≠ 3 * s.cfg.groups + 9) ∨
    (s.seq = 3 * s.cfg.groups + 9 ∧ a = .finish s.life (nextRows s.rows) .ok) := by
  unfold rowAction at h
  split at h
  · cases h
    exact .inl ⟨rfl, by omega⟩
  · split at h
    · exact .inl ⟨groupAction_goesOn h, by omega⟩
    · rcases closingAction_cases h with ⟨ha, _⟩ | ⟨_, ha⟩
      · exact .inl ⟨ha, by omega⟩
      · exact .inr ⟨by omega, ha⟩

/-- A micro-program step goes on, or ends its command and leaves the row counter that R38 gives it; at the last seq it
ends the command. -/
theorem actionOf_cases {i : Instr} {s : State} {a : Action} (h : actionOf i s = .ok a) :
    (a.goesOn ∧ s.seq ≠ lastSeq s.cfg.groups i) ∨
    ((s.seq = lastSeq s.cfg.groups i ∨ i = .enable) ∧ ∃ l st, a = .finish l (rowsAtEnd i s) st) := by
  cases i with
  | enable => exact (enableAction_cases h).imp id fun ha => ⟨.inr rfl, ha⟩
  | beginFrame => exact (beginAction_cases h).imp id fun ⟨hq, ha⟩ => ⟨.inl hq, _, _, ha⟩
  | xfer buf => exact (rowAction_cases h).imp id fun ⟨hq, ha⟩ => ⟨.inl hq, _, _, ha⟩
  | xferE buf => exact (rowAction_cases h).imp id fun ⟨hq, ha⟩ => ⟨.inl hq, _, _, ha⟩
  | endFrame => exact (endAction_cases h).imp id fun ⟨hq, ha⟩ => ⟨.inl hq, _, _, ha⟩
  | disable => exact (disableAction_cases h).imp id fun ⟨hq, ha⟩ => ⟨.inl hq, ha⟩

/-! ## The trace, the lines and the status are not read -/

/-- `s` with another trace, other lines and another last status: what R46 and R47 say no command reads. -/
def State.showing (tr : List Event) (l : Lines) (b : Bus) (st : Status) (s : State) : State :=
  { s with trace := tr, lines := l, bus := b, status := st }

/-- The guard and the micro-programs read none of it. -/
@[simp] theorem refusalOf_showing (i : Instr) (s : State) (tr : List Event) (l : Lines) (b : Bus) (st : Status) :
    refusalOf i (s.showing tr l b st) = refusalOf i s := by
  cases i <;> rfl
@[simp] theorem actionOf_showing (i : Instr) (s : State) (tr : List Event) (l : Lines) (b : Bus) (st : Status) :
    actionOf i (s.showing tr l b st) = actionOf i s := by
  cases i <;> rfl
@[simp] theorem State.showing_twReport (s : State) (tr : List Event) (l : Lines) (b : Bus) (st : Status) :
    (s.showing tr l b st).twReport = s.twReport := rfl

/-- `t` is `s` with the events `new` emitted by a step that reads neither trace nor lines nor status: it joins them to
whatever trace it finds, they act on whatever lines it finds (R91), and the status is that of the last response among
them, or the one found (R39). -/
def Unread (f : State → Host.Outcome State Fault Refusal) (s t : State) : Prop :=
  ∃ new, t.trace = s.trace ++ new ∧ ∀ tr l b st, f (s.showing tr l b st) =
    .next (t.showing (tr ++ new) (new.foldl (fun m e => e.onLines m) l) (new.foldl (fun m e => e.onBus m) b)
      ((responses new).getLastD st))

/-- A step that goes on emits its event, if it has one, and no response. -/
theorem perform_unread {a : Action} {s t : State} (ha : a.goesOn) (h : perform a s = .next t) :
    Unread (perform a) s t := by
  rcases perform_cases a s with
    ⟨e, rfl, hp⟩ | ⟨l, e, rfl, hp⟩ | ⟨v, rfl, hw, hp⟩ | ⟨v, k, rfl, hw, hp⟩ | ⟨l, r, st, rfl, _⟩
  case inr.inr.inr.inr => exact ha.elim
  all_goals obtain rfl := Host.Outcome.next.inj (hp.symm.trans h)
  · have hn : responses [e] = [] := ha
    exact ⟨[e], rfl, fun tr l b st => by rw [hn]; rfl⟩
  · have hn : responses [e] = [] := ha
    exact ⟨[e], rfl, fun tr l b st => by rw [hn]; rfl⟩
  · exact ⟨[], (List.append_nil _).symm, fun tr l b st => by
      rw [perform_write_waiting (by simpa using hw), List.append_nil]; rfl⟩
  · exact ⟨[.tw twReg v k], rfl, fun tr l b st => by rw [perform_write_done (by simpa using hw)]; rfl⟩

/-- A step of a command reads neither trace nor lines nor status: refused, going on, or at its end. -/
theorem exec_unread {i : Instr} {s t : State} (h : exec i s = .next t) : Unread (exec i) s t := by
  rcases exec_next h with ⟨st, hr, rfl⟩ | ⟨a, hr, ha, hp⟩
  · exact ⟨[.rsp st], rfl, fun _ _ _ _ => by rw [exec_eq, runCommand_refused (by simpa using hr)]; rfl⟩
  · have he : ∀ tr l b st, exec i (s.showing tr l b st) = perform a (s.showing tr l b st) := fun _ _ _ _ =>
      exec_of_action (by simpa using hr) (by simpa using ha)
    simp only [Unread, he]
    rcases actionOf_cases ha with ⟨hg, _⟩ | ⟨_, l, st, rfl⟩
    · exact perform_unread hg hp
    · obtain rfl := Host.Outcome.next.inj hp
      exact ⟨[.rsp st], rfl, fun _ _ _ _ => rfl⟩

/-- Settles O55: what R46 and R47 say of every step of a command, written out field by field. -/
theorem traceAndLinesUnread : Obligations.TraceAndLinesUnread := by
  intro i s t tr l b st h
  obtain ⟨new, htr, hnew⟩ := exec_unread h
  exact ⟨new, htr, hnew tr l b st⟩

/-! ## The status -/

@[simp] theorem responses_append (tr new : List Event) : responses (tr ++ new) = responses tr ++ responses new :=
  List.filterMap_append

/-- R39: a step of a command leaves the status of its response, or the one it found. -/
theorem exec_status {i : Instr} {s t : State} (h : exec i s = .next t) :
    ∃ new, t.trace = s.trace ++ new ∧ t.status = (responses new).getLastD s.status := by
  obtain ⟨new, htr, hnew⟩ := exec_unread h
  have hs : exec i s = _ := hnew s.trace s.lines s.bus s.status
  exact ⟨new, htr, congrArg State.status (Host.Outcome.next.inj (h.symm.trans hs))⟩

/-- Settles O12, by the cases of R170: a reset empties the trace, and a response joins it. -/
theorem statusIsLastResponse : Obligations.StatusIsLastResponse := by
  intro s t hs h
  rcases step_next h with
    ⟨_, rfl⟩ | ⟨_, _, _, rfl⟩ | ⟨_, _, _, _, _, _, rfl⟩ | ⟨_, _, _, _, rfl⟩ | ⟨_, _, _, _, he⟩
  · rfl
  · exact hs
  · exact hs
  · simp [responses]
  · obtain ⟨new, htr, hst⟩ := exec_status he
    simp [hst, htr, hs, List.getLastD_eq_getLast?, List.getLast?_append]

/-! ## The row counter -/

@[simp] theorem State.clock_rowsAtEnd (i : Instr) (s : State) : rowsAtEnd i s.clock = rowsAtEnd i s := by
  cases i <;> rfl

/-- The counter saturates at the greatest value of its 10 bits (R38). -/
theorem nextRows_toNat (r : BitVec 10) : (nextRows r).toNat = min (r.toNat + 1) 1023 := by
  simp only [nextRows, BitVec.toNat_ofNat]
  omega

/-- Only the end of a command writes the row counter. -/
theorem perform_rows {a : Action} {s t : State} (ha : a.goesOn) (h : perform a s = .next t) : t.rows = s.rows := by
  rcases perform_cases a s with
    ⟨_, _, hp⟩ | ⟨_, _, _, hp⟩ | ⟨_, _, _, hp⟩ | ⟨_, _, _, _, hp⟩ | ⟨_, _, _, rfl, _⟩
  case inr.inr.inr.inr => exact ha.elim
  all_goals obtain rfl := Host.Outcome.next.inj (hp.symm.trans h)
  all_goals rfl

/-- R38: the step that ends a command leaves the row counter of its end, and no other step changes it. -/
theorem exec_rows {i : Instr} {s t : State} (h : exec i s = .next t) :
    t.rows = if s.seq = lastSeq s.cfg.groups i then rowsAtEnd i s else s.rows := by
  rcases exec_next h with ⟨st, hr, rfl⟩ | ⟨a, _, ha, hp⟩
  · have hq : s.seq ≠ lastSeq s.cfg.groups i := by
      rw [(refusalOf_some hr).1]
      exact (lastSeq_pos _ i).ne
    rw [if_neg hq, State.respond_rows]
  · rcases actionOf_cases ha with ⟨hg, hq⟩ | ⟨hq, l, st, rfl⟩
    · rw [if_neg hq, perform_rows hg hp]
    · obtain rfl := Host.Outcome.next.inj hp
      rcases hq with hq | rfl
      · simp [hq]
      · simp [rowsAtEnd]

/-- Settles O51, by the cases of R170; the step of a command by the command and by whether it is its last. -/
theorem rowCounter : Obligations.RowCounter := by
  intro s t h
  rcases step_next h with
    ⟨hr, rfl⟩ | ⟨hr, hb, _, rfl⟩ | ⟨_, _, hr, hb, _, _, rfl⟩ | ⟨_, hr, _, hf, rfl⟩ | ⟨i, hr, hb, hf, he⟩
  · exact .inl ⟨hr, rfl⟩
  · simp [hr, hb]
  · simp [hr, hb]
  · simp [hr, hf]
  · have hrows := exec_rows he
    simp only [State.clock_seq, State.clock_cfg, State.clock_rowsAtEnd, State.clock_rows] at hrows
    cases i with
    | enable | endFrame | disable => simp [hrows, hr, hf, rowsAtEnd]
    | beginFrame =>
      by_cases hq : s.seq = 7
      · exact .inr (.inl ⟨hr, hb, hf, hq, by simp [hrows, hq, lastSeq, rowsAtEnd]⟩)
      · simp [hrows, hr, hf, hq, lastSeq]
    | xfer buf | xferE buf =>
      by_cases hq : s.seq = 3 * s.cfg.groups + 9
      · have hcount : t.rows.toNat = min (s.rows.toNat + 1) 1023 := by
          simp [hrows, hq, lastSeq, rowsAtEnd, nextRows_toNat]
        exact .inr (.inr (.inl ⟨hr, hb, ⟨buf, by simp [hf]⟩, hq, hcount⟩))
      · simp [hrows, hr, hf, hq, lastSeq]

end Sys2Proof.Machine
end

