-- ==== Sys2Proof/Proofs/Memory.lean ====
section
/-! PROOFS. The statements of spec/20_memory.md: a TRANSFER sees bit 0 of a scanline byte and no other (R63), and the
data lines carry the bits of the waveform byte (R66). -/

namespace Sys2Proof.Machine

/-! ## Bits 7:1 of a scanline byte -/

/-- Operands that agree on bit 0 give a group of the row the same waveform byte. -/
theorem groupByte_congr {c : Config} {buf buf' : Memory} {erase : Bool} {k : Nat}
    (h : ∀ a, (buf.read a).getLsbD 0 = (buf'.read a).getLsbD 0) (hk : k < c.groups) :
    groupByte c buf erase k = groupByte c buf' erase k := by
  rw [groupByte_some hk, groupByte_some hk]
  exact congrArg some (encodePixels_congr c.lut _ _ _ _ _ _ _ _ erase (h _) (h _) (h _) (h _))

/-- Of the three parts of a row (R121), only the groups read the operand, through `groupByte`. -/
theorem rowAction_congr {erase : Bool} {buf buf' : Memory} {s : State}
    (h : ∀ a, (buf.read a).getLsbD 0 = (buf'.read a).getLsbD 0) :
    rowAction erase buf s = rowAction erase buf' s := by
  unfold rowAction
  by_cases h0 : s.seq = 0
  · rw [if_pos h0, if_pos h0]
  · by_cases hg : s.seq ≤ 3 * s.cfg.groups
    · have hk : (s.seq - 1) / 3 < s.cfg.groups := by omega
      simp only [groupAction, groupByte_congr h hk]
    · simp only [if_neg h0, if_neg hg]

/-- Two TRANSFERs of one kind whose operands agree on bit 0 step alike: the guard sees no operand (R171), and the
micro-program sees bit 0. -/
theorem exec_transfer_congr {buf buf' : Memory} (s : State)
    (h : ∀ a, (buf.read a).getLsbD 0 = (buf'.read a).getLsbD 0) :
    exec (.xfer buf) s = exec (.xfer buf') s ∧ exec (.xferE buf) s = exec (.xferE buf') s := by
  have hact : ∀ erase, rowAction erase buf s = rowAction erase buf' s := fun _ => rowAction_congr h
  constructor
  · exact congrArg (fun act => runCommand (.xfer buf) act s) (hact false)
  · exact congrArg (fun act => runCommand (.xferE buf) act s) (hact true)

/-- Settles O35. -/
theorem highPixelBitsIgnored : Obligations.HighPixelBitsIgnored := fun s _ _ h => exec_transfer_congr s h

/-! ## The data lines -/

/-- R91: a step of a command changes the lines by the events it emits, and in no other way. -/
theorem exec_effect {i : Instr} {s t : State} (h : exec i s = .next t) :
    ∃ new, t.trace = s.trace ++ new ∧ t.lines = new.foldl (fun l e => e.onLines l) s.lines ∧
      t.bus = new.foldl (fun b e => e.onBus b) s.bus := by
  obtain ⟨new, htr, hnew⟩ := exec_unread h
  have hs : exec i s = _ := hnew s.trace s.lines s.bus s.status
  have ht := Host.Outcome.next.inj (h.symm.trans hs)
  exact ⟨new, htr, congrArg State.lines ht, congrArg State.bus ht⟩

/-- A step that emits DATA(b) puts b on the data lines in their direction, and leaves the discrete lines: of the cases
of R170 only a step of a command emits DATA. -/
theorem step_data {s t : State} {b : Byte} (h : step s = .next t) (htr : t.trace = s.trace ++ [.data b]) :
    t.lines = s.lines ∧ t.bus = { dir := s.bus.dir, byte := b } := by
  rcases step_next h with
    ⟨_, rfl⟩ | ⟨_, _, _, rfl⟩ | ⟨_, _, _, _, _, _, rfl⟩ | ⟨_, _, _, _, rfl⟩ | ⟨_, _, _, _, he⟩
  · simp at htr
  · simp at htr
  · simp at htr
  · simp at htr
  · obtain ⟨new, hnew, hlines, hbus⟩ := exec_effect he
    have hdata : new = [.data b] := List.append_cancel_left (hnew.symm.trans htr)
    simp [hlines, hbus, hdata]

/-- Driven data lines: line D_i drives bit i of the byte (R35, R66). -/
theorem State.dataLine_output {s : State} {b : Byte} (h : s.bus = { dir := .output, byte := b }) (i : Nat) :
    s.dataLine i = some (b.getLsbD i) := by
  simp [State.dataLine, Bus.drive, h]

/-- Settles O54. -/
theorem dataLinesCarryBits : Obligations.DataLinesCarryBits := by
  intro s t b hdir h htr
  obtain ⟨hlines, hbus⟩ := step_data h htr
  exact ⟨fun i _ => State.dataLine_output (hdir ▸ hbus) i, hlines⟩

end Sys2Proof.Machine
end

