-- ==== Sys2Proof/Proofs/Encoding.lean ====
section
/-! PROOFS. The statements of spec/30_encoding.md: a command as bytes (R81, R85, R86, R88), acceptance (R83), the one
response of a command (R84), the ports (R80), SET and DATA (R91), the lanes of a waveform byte (R92). -/

namespace Sys2Proof

/-! ## Operands written out as bytes -/

theorem Memory.read_ofBytesFrom_lt {bs : List Byte} {start i : Nat} (h : i < start) :
    (Memory.ofBytesFrom start bs).read i = 0#8 :=
  Memory.read_of_risesFrom (Memory.ofBytesFrom_risesFrom bs start) h

/-- Reading bytes in and writing them out gives them back: the other half of `Memory.ofBytesFrom_bytesFrom`. -/
theorem Memory.bytesFrom_ofBytesFrom (bs : List Byte) (start : Nat) :
    (Memory.ofBytesFrom start bs).bytesFrom start bs.length = bs := by
  induction bs generalizing start with
  | nil => rfl
  | cons b bs ih =>
    unfold Memory.ofBytesFrom
    split
    · next hb =>
      rw [List.length_cons, Memory.bytesFrom, Memory.read_ofBytesFrom_lt (Nat.lt_succ_self start), ih, hb]
      rfl
    · rw [List.length_cons, Memory.bytesFrom, Memory.bytesFrom_cons_lt (Nat.lt_succ_self start), ih]
      simp [Memory.read]

theorem Memory.toBytes_ofBytes (bs : List Byte) : (Memory.ofBytes bs).toBytes bs.length = bs :=
  Memory.bytesFrom_ofBytesFrom bs 0

/-- A scanline is given back by its bytes (R62). -/
theorem Memory.ofBytes_toBytes {m : Memory} {width : Nat} (h : m.fits width = true) :
    Memory.ofBytes (m.toBytes width) = m := by
  obtain ⟨hwf, hlt⟩ := Memory.fits_iff.mp h
  exact Memory.ofBytesFrom_bytesFrom hwf (by simpa using hlt)

/-- An instruction is well-formed when its operand is as long as its command says (R62). -/
theorem Instr.wf_iff_operand_fits {width : Nat} {i : Instr} :
    i.wf width = true ↔ i.operand.fits (operandLength width i) = true := by
  cases i <;> simp [Instr.wf, Instr.operand, operandLength]

/-- Settles O1: the operand comes back from its bytes, and the command byte decodes with it. -/
theorem decodeOfEncode : Obligations.DecodeOfEncode := by
  intro width i hwf
  have hbuf := Memory.ofBytes_toBytes (Instr.wf_iff_operand_fits.mp hwf)
  simp [encode, decode, hbuf, Machine.decodeByte_encodeByte]

/-! ## The command byte -/

/-- Settles O3: each byte's fields compute, whatever the buffer. -/
theorem legalBytesDecode : Obligations.LegalBytesDecode := fun _ => ⟨rfl, rfl, rfl, rfl, rfl, rfl⟩

/-- A byte with its reserved bits 0 is `{E, op}` (R81). -/
theorem toNat_of_rsvField {c : Byte} (h : rsvField c = 0#4) :
    c.toNat = 8 * (eraseField c).toNat + (opField c).toNat := by
  revert c
  decide

/-- R62, R82, R88: the command byte decodes, and the operand is as long as the command says. -/
theorem decode_cons_ok {width : Nat} {c : Byte} {px : List Byte} {i : Instr} (h : decode width (c :: px) = .ok i) :
    decodeByte c (Memory.ofBytes px) = .ok i ∧ px.length = operandLength width i := by
  unfold decode at h
  cases hc : decodeByte c (Memory.ofBytes px) with
  | error e => simp [hc] at h
  | ok j =>
    by_cases hlen : px.length = operandLength width j
    · simp_all
    · simp [hc, hlen] at h

/-- The only byte that decodes to an instruction is its encoding; its operand is the buffer, if it takes one (R82). -/
theorem eq_encodeByte_of_decodeByte {c : Byte} {buf : Memory} {i : Instr} (h : decodeByte c buf = .ok i) :
    c = encodeByte i ∧ (i.operand = buf ∨ i.operand = [] ∧ ∀ width, operandLength width i = 0) := by
  unfold decodeByte at h
  split at h
  · cases h
  · next hr =>
    have hc := toNat_of_rsvField (not_not.mp hr)
    split at h <;> cases h
    all_goals
      rename_i hop he
      rw [hop, he] at hc
      simp [BitVec.toNat_eq, hc, encodeByte, Instr.operand, operandLength]

/-- Settles O2: the command byte is the encoding's, and the operand bytes come back from the operand they make. -/
theorem encodeOfDecode : Obligations.EncodeOfDecode := by
  intro width bs i h
  cases bs with
  | nil => cases h
  | cons c px =>
    obtain ⟨hc, hlen⟩ := decode_cons_ok h
    obtain ⟨rfl, hop⟩ := eq_encodeByte_of_decodeByte hc
    have hbuf : i.operand = Memory.ofBytes px := by
      rcases hop with hbuf | ⟨hnil, h0⟩
      · exact hbuf
      · rw [hnil, List.length_eq_zero_iff.mp (hlen.trans (h0 width))]
        rfl
    rw [Instr.wf_iff_operand_fits, encode, ← hlen, hbuf, Memory.toBytes_ofBytes]
    exact ⟨rfl, Memory.ofBytes_fits px⟩

/-- The six command bytes of R85. -/
def legalBytes : List Byte := [0x01#8, 0x02#8, 0x03#8, 0x0B#8, 0x04#8, 0x05#8]

/-- R86: the bytes that decode are the six of R85, whatever the buffer. -/
theorem exists_decodeByte_ok_iff {c : Byte} {buf : Memory} : (∃ i, decodeByte c buf = .ok i) ↔
    c ∈ legalBytes := by
  constructor
  · rintro ⟨i, h⟩
    rw [(eq_encodeByte_of_decodeByte h).1]
    cases i <;> simp [encodeByte, legalBytes]
  · intro h
    obtain ⟨h1, h2, h3, hB, h4, h5⟩ := legalBytesDecode buf
    simp only [legalBytes, List.mem_cons, List.not_mem_nil, or_false] at h
    rcases h with rfl | rfl | rfl | rfl | rfl | rfl
    exacts [⟨_, h1⟩, ⟨_, h2⟩, ⟨_, h3⟩, ⟨_, hB⟩, ⟨_, h4⟩, ⟨_, h5⟩]

theorem exists_decodeByte_error_iff {c : Byte} {buf : Memory} : (∃ e, decodeByte c buf = .error e) ↔
    c ∉ legalBytes := by
  rw [← exists_decodeByte_ok_iff (buf := buf)]
  cases decodeByte c buf <;> simp

/-- R86, field by field. -/
theorem not_mem_legal_iff (c : Byte) : c ∉ legalBytes ↔
    (c.extractLsb' 4 4 ≠ 0#4 ∨ c.extractLsb' 0 3 = 0#3 ∨ c.extractLsb' 0 3 = 6#3 ∨ c.extractLsb' 0 3 = 7#3 ∨
      (c.getLsbD 3 = true ∧ c.extractLsb' 0 3 ≠ 3#3)) := by
  revert c
  decide

theorem toNat_lt_of_mem_legalBytes {c : Byte} (h : c ∈ legalBytes) : c.toNat < 16 := by
  revert c
  decide

/-- R86: 250 of the 256 bytes are illegal: ten whose reserved bits are 0, and all 240 whose reserved bits are not. -/
theorem countP_illegal :
    ((List.range 256).countP fun n => (decodeByte (BitVec.ofNat 8 n) []).toOption.isNone) = 250 := by
  have hreserved : ∀ n ∈ (List.range 240).map (16 + ·),
      (decodeByte (BitVec.ofNat 8 n) []).toOption.isNone = true := by
    simp only [List.forall_mem_map, List.mem_range]
    intro k hk
    have hbyte : (BitVec.ofNat 8 (16 + k)).toNat = 16 + k := Nat.mod_eq_of_lt (by omega)
    obtain ⟨e, he⟩ : ∃ e, decodeByte (BitVec.ofNat 8 (16 + k)) [] = .error e :=
      exists_decodeByte_error_iff.mpr fun hmem => by
        have := toNat_lt_of_mem_legalBytes hmem
        omega
    rw [he]
    rfl
  rw [show List.range 256 = List.range 16 ++ (List.range 240).map (16 + ·) from List.range_add (n := 16) (m := 240),
    List.countP_append, List.countP_eq_length.mpr hreserved, List.length_map, List.length_range]
  decide

end Sys2Proof

namespace Sys2Proof.Machine

/-! ## Acceptance -/

/-- No step of a command takes an offer or changes the latched command (R83). -/
theorem perform_command {a : Action} {s t : State} (h : perform a s = .next t) :
    t.host = s.host ∧ t.cmd = s.cmd := by
  rcases perform_cases a s with
    ⟨_, _, hp⟩ | ⟨_, _, _, hp⟩ | ⟨_, _, _, hp⟩ | ⟨_, _, _, _, hp⟩ | ⟨_, _, _, _, hp⟩ <;>
    obtain rfl := Host.Outcome.next.inj (hp.symm.trans h) <;> exact ⟨rfl, rfl⟩

theorem exec_command {i : Instr} {s t : State} (h : exec i s = .next t) : t.host = s.host ∧ t.cmd = s.cmd := by
  rcases exec_next h with ⟨_, _, rfl⟩ | ⟨_, _, _, hp⟩
  · exact ⟨rfl, rfl⟩
  · exact perform_command hp

/-- R83: while the block is busy the offer stands, and the latched command stays (reset aside, which ends it). -/
theorem step_busy_command {s t : State} (hb : s.busy = true) (h : step s = .next t) :
    t.host = s.host ∧ (t.busy = true → t.cmd = s.cmd) := by
  rcases step_next h with
    ⟨_, rfl⟩ | ⟨_, hidle, _, _⟩ | ⟨_, _, _, hidle, _, _, _⟩ | ⟨_, _, _, _, rfl⟩ | ⟨_, _, _, _, he⟩
  · exact ⟨rfl, fun hbusy => absurd hbusy (by simp)⟩
  · simp [hb] at hidle
  · simp [hb] at hidle
  · exact ⟨rfl, fun _ => rfl⟩
  · obtain ⟨hhost, hcmd⟩ := exec_command he
    exact ⟨hhost, fun _ => hcmd⟩

/-- R86: an illegal command is accepted, and the step after answers it. -/
theorem step_accept_illegal {s : State} {c : Command} {rest : List Command} (hr : s.rst = false)
    (hb : s.busy = false) (hh : s.host = c :: rest) (hw : c.wf s.cfg.width = true)
    (he : ∃ e, decodeByte c.byte c.buf = .error e) :
    ∃ t, step s = .next t ∧ t.busy = true ∧ t.seq = 0 ∧ t.trace = s.trace ∧
      (t.rst = false → step t = .next
        { s with seq := 0, cmd := c, host := rest, rstIn := s.rstIn.tail.tail, busy := false,
                 status := .illegalCommand, trace := s.trace ++ [.rsp .illegalCommand] }) := by
  obtain ⟨e, he⟩ := he
  exact ⟨_, step_accept hr hb hh hw, rfl, rfl, rfl, fun ht => step_illegal ht rfl he⟩

/-- Settles O4: the legal bytes by R85, the illegal ones as the others, then the two steps of an illegal command. -/
theorem illegalBytes : Obligations.IllegalBytes :=
  ⟨fun c _ => exists_decodeByte_error_iff.trans (not_mem_legal_iff c), fun _ _ => exists_decodeByte_ok_iff,
    countP_illegal, fun _ _ _ hr hb hh hw he => step_accept_illegal hr hb hh hw he⟩

/-- Settles O5: acceptance, the ready port, and what a busy block keeps. -/
theorem commandAccepted : Obligations.CommandAccepted :=
  ⟨fun _ _ _ hr hb hh hw => step_accept hr hb hh hw, fun _ => rfl, fun _ _ hb h => step_busy_command hb h⟩

/-! ## What the micro-programs emit -/

/-- ENABLE and DISABLE, the commands that run without driven bus lines. -/
def isPower : Instr → Bool
  | .enable => true
  | .beginFrame => false
  | .xfer _ => false
  | .xferE _ => false
  | .endFrame => false
  | .disable => true

/-- The micro-program steps that R121, R147, R148, R150, R173 and R175 write: an `emit` makes no TW and no RSP, which
`write` and `finish` make, and in ENABLE and DISABLE no SET but of WAKEUP and no DATA; an `enter` makes a CFG; a
`finish` answers a status that is not `None`. -/
def Action.Written (power : Bool) : Action → Prop
  | .emit (.set p _) => power = true → p = .wakeup
  | .emit (.data _) => power = false
  | .emit (.tw _ _ _) => False
  | .emit (.rsp _) => False
  | .emit (.cfg _ _) => True
  | .emit (.cfgData _) => True
  | .emit (.wait _) => True
  | .enter _ e => (∃ p d, e = .cfg p d) ∨ ∃ d, e = .cfgData d
  | .write _ => True
  | .finish _ _ st => st ≠ .none

theorem enableAction_written {s : State} {a : Action} (h : enableAction s = .ok a) : a.Written true := by
  unfold enableAction at h
  split at h
  · cases h
    exact fun _ => rfl
  · split at h
    · cases h
      simp [Action.Written]
    · split at h <;> cases h <;> simp [Action.Written]

theorem disableAction_written {s : State} {a : Action} (h : disableAction s = .ok a) : a.Written true := by
  unfold disableAction at h
  split at h
  -- seq 14, where the NACK decides between the two responses
  case h_15 => split at h <;> cases h <;> simp [Action.Written]
  all_goals cases h <;> simp [Action.Written]

theorem beginAction_written {s : State} {a : Action} (h : beginAction s = .ok a) : a.Written false := by
  unfold beginAction at h
  split at h <;> cases h <;> simp [Action.Written]

theorem endAction_written {s : State} {a : Action} (h : endAction s = .ok a) : a.Written false := by
  unfold endAction at h
  split at h <;> cases h <;> simp [Action.Written]

theorem groupAction_written {erase : Bool} {buf : Memory} {s : State} {k n : Nat} {a : Action}
    (h : groupAction erase buf s k n = .ok a) : a.Written false := by
  unfold groupAction at h
  split at h
  · split at h <;> cases h
    rfl
  · cases h
    simp [Action.Written]
  · cases h
    simp [Action.Written]

theorem closingAction_written {s : State} {n : Nat} {a : Action} (h : closingAction s n = .ok a) :
    a.Written false := by
  unfold closingAction at h
  split at h <;> cases h <;> simp [Action.Written]

theorem rowAction_written {erase : Bool} {buf : Memory} {s : State} {a : Action}
    (h : rowAction erase buf s = .ok a) : a.Written false := by
  unfold rowAction at h
  split at h
  · cases h
    simp [Action.Written]
  · split at h
    · exact groupAction_written h
    · exact closingAction_written h

theorem actionOf_written {i : Instr} {s : State} {a : Action} (h : actionOf i s = .ok a) : a.Written (isPower i) := by
  cases i with
  | enable => exact enableAction_written h
  | beginFrame => exact beginAction_written h
  | xfer buf => exact rowAction_written h
  | xferE buf => exact rowAction_written h
  | endFrame => exact endAction_written h
  | disable => exact disableAction_written h

/-! ## What the ports show -/

theorem State.pending_written {s : State} {a : Action} (h : s.pending = some a) : ∃ power, a.Written power := by
  obtain ⟨_, _, _, _, _, ha⟩ := State.pending_some.mp h
  exact ⟨_, actionOf_written ha⟩

/-- The block responds at a step to an illegal byte, by the guard's refusal, or by the end of its command (R84). -/
theorem State.responding_some {s : State} {st : Status} : s.responding = some st ↔
    s.busy = true ∧ s.rst = false ∧
      ((∃ e, s.fetch = .error e ∧ st = .illegalCommand) ∨ (∃ i, s.fetch = .ok i ∧ refusalOf i s = some st) ∨
        ∃ l r, s.pending = some (.finish l r st)) := by
  unfold State.responding State.pending
  cases s.busy with
  | false => simp
  | true =>
    cases s.rst with
    | true => simp
    | false =>
      cases s.fetch with
      | error e => simp [eq_comm]
      | ok i =>
        cases hr : refusalOf i s with
        | some st' => simp [hr]
        | none =>
          cases ha : actionOf i s with
          | error f => simp [hr, ha]
          | ok a => cases a <;> simp [hr, ha]

/-- The step at which the block responds emits RSP and ends the command (R84). -/
theorem step_responding {s t : State} {st : Status} (hresp : s.responding = some st) (h : step s = .next t) :
    t.trace = s.trace ++ [.rsp st] ∧ t.status = st ∧ t.busy = false := by
  obtain ⟨hb, hr, ⟨_, hf, rfl⟩ | ⟨i, hf, hq⟩ | ⟨l, r, hp⟩⟩ := State.responding_some.mp hresp
  · rw [step_illegal hr hb hf] at h
    cases h
    exact ⟨rfl, rfl, rfl⟩
  · rw [step_busy hr hb hf, exec_eq, runCommand_refused (by simpa using hq)] at h
    cases h
    exact ⟨rfl, rfl, rfl⟩
  · rw [step_pending hp] at h
    cases h
    exact ⟨rfl, rfl, rfl⟩

theorem State.responding_ne_none {s : State} {st : Status} (h : s.responding = some st) : st ≠ .none := by
  obtain ⟨_, _, ⟨_, _, rfl⟩ | ⟨i, _, hq⟩ | ⟨l, r, hp⟩⟩ := State.responding_some.mp h
  · simp
  · rcases (refusalOf_some hq).2 with rfl | rfl <;> simp
  · obtain ⟨_, hst⟩ := State.pending_written hp
    exact hst

/-- The cases of R170 as the ports show them: reset, a step of an idle block, a response, a micro-program step after
which the command goes on. -/
theorem step_shown {s t : State} (h : step s = .next t) :
    (s.rst = true ∧ t.trace = []) ∨
    (s.rst = false ∧ s.busy = false ∧ t.trace = s.trace ∧ t.status = s.status) ∨
    (∃ st, s.responding = some st) ∨
    ∃ a, s.pending = some a ∧ a.goesOn := by
  rcases step_next h with
    ⟨hr, rfl⟩ | ⟨hr, hb, _, rfl⟩ | ⟨_, _, hr, hb, _, _, rfl⟩ | ⟨e, hr, hb, hf, _⟩ | ⟨i, hr, hb, hf, he⟩
  · exact .inl ⟨hr, rfl⟩
  · exact .inr (.inl ⟨hr, hb, rfl, rfl⟩)
  · exact .inr (.inl ⟨hr, hb, rfl, rfl⟩)
  · exact .inr (.inr (.inl ⟨_, State.responding_some.mpr ⟨hb, hr, .inl ⟨e, hf, rfl⟩⟩⟩))
  · rcases exec_next he with ⟨st, hq, _⟩ | ⟨a, hq, ha, _⟩
    · exact .inr (.inr (.inl ⟨st, State.responding_some.mpr ⟨hb, hr, .inr (.inl ⟨i, hf, by simpa using hq⟩)⟩⟩))
    · rw [refusalOf_clock] at hq
      rw [actionOf_clock] at ha
      have hp : s.pending = some a := State.pending_some.mpr ⟨hb, hr, i, hf, hq, ha⟩
      rcases actionOf_cases ha with ⟨hg, _⟩ | ⟨_, l, st, rfl⟩
      · exact .inr (.inr (.inr ⟨a, hp, hg⟩))
      · exact .inr (.inr (.inl ⟨st, State.responding_some.mpr ⟨hb, hr, .inr (.inr ⟨l, _, hp⟩)⟩⟩))

/-- A micro-program step after which the command goes on answers nothing. -/
theorem perform_goesOn {a : Action} {s t : State} (ha : a.goesOn) (h : perform a s = .next t) :
    t.busy = s.busy ∧ t.status = s.status ∧ responses t.trace = responses s.trace := by
  rcases perform_cases a s with
    ⟨e, rfl, hp⟩ | ⟨l, e, rfl, hp⟩ | ⟨v, rfl, hw, hp⟩ | ⟨v, k, rfl, hw, hp⟩ | ⟨l, r, st, rfl, _⟩
  case inr.inr.inr.inr => exact ha.elim
  all_goals obtain rfl := Host.Outcome.next.inj (hp.symm.trans h)
  · have hn : responses [e] = [] := ha
    simp [hn]
  · have hn : responses [e] = [] := ha
    simp [hn]
  · simp
  · simp [responses]

/-- Settles O11, by what the ports show of the step. -/
theorem oneResponsePerCommand : Obligations.OneResponsePerCommand := by
  intro s t hr h
  rcases step_shown h with ⟨hrst, _⟩ | ⟨_, hb, htr, hst⟩ | ⟨st, hresp⟩ | ⟨a, hp, hg⟩
  · simp [hr] at hrst
  · exact ⟨fun hbusy => absurd hbusy (by simp [hb]), fun _ => ⟨hst, congrArg responses htr⟩⟩
  · obtain ⟨htr, rfl, hidle⟩ := step_responding hresp h
    have hb : s.busy = true := (State.responding_some.mp hresp).1
    exact ⟨fun _ _ => ⟨htr, State.responding_ne_none hresp⟩, fun hn => absurd hn (by simp [hb, hidle])⟩
  · have hb : s.busy = true := (State.pending_some.mp hp).1
    obtain ⟨hbusy, hst, hresp⟩ := perform_goesOn hg ((step_pending hp).symm.trans h)
    exact ⟨fun _ hn => absurd hn (by simp [hbusy, hb]), fun _ => ⟨hst, hresp⟩⟩

/-- Where the event of a step comes from: a response, a micro-program step that emits it, or a finished write. -/
theorem step_event {s t : State} {e : Event} (h : step s = .next t) (htr : t.trace = s.trace ++ [e]) :
    (∃ st, e = .rsp st ∧ s.responding = some st) ∨
    s.pending = some (.emit e) ∨
    (∃ l, s.pending = some (.enter l e)) ∨
    ∃ v k, e = .tw twReg v k ∧ s.pending = some (.write v) ∧ s.twReport = some k := by
  rcases step_shown h with ⟨_, hnil⟩ | ⟨_, _, hsame, _⟩ | ⟨st, hresp⟩ | ⟨a, hp, hg⟩
  · simp [hnil] at htr
  · simp [hsame] at htr
  · obtain ⟨hrsp, _, _⟩ := step_responding hresp h
    exact .inl ⟨st, by simpa using htr.symm.trans hrsp, hresp⟩
  · rw [step_pending hp] at h
    rcases perform_cases a s.clock with
      ⟨e, rfl, hq⟩ | ⟨l, e, rfl, hq⟩ | ⟨v, rfl, hw, hq⟩ | ⟨v, k, rfl, hw, hq⟩ | ⟨l, r, st, rfl, _⟩
    case inr.inr.inr.inr => exact hg.elim
    all_goals
      obtain rfl := Host.Outcome.next.inj (hq.symm.trans h)
      simp at htr
    · exact .inr (.inl (htr ▸ hp))
    · exact .inr (.inr (.inl ⟨l, htr ▸ hp⟩))
    · exact .inr (.inr (.inr ⟨v, k, htr.symm, hp, by simpa using hw⟩))

/-- SET, DATA and WAIT: the events that only an `emit` makes. -/
def Event.isPlain : Event → Bool
  | .set _ _ => true
  | .data _ => true
  | .wait _ => true
  | .cfg _ _ => false
  | .cfgData _ => false
  | .tw _ _ _ => false
  | .rsp _ => false

theorem step_plain {s t : State} {e : Event} (h : step s = .next t) (htr : t.trace = s.trace ++ [e])
    (he : e.isPlain = true) : s.pending = some (.emit e) := by
  rcases step_event h htr with ⟨_, rfl, _⟩ | hp | ⟨l, hp⟩ | ⟨_, _, rfl, _, _⟩
  · simp [Event.isPlain] at he
  · exact hp
  · obtain ⟨_, ⟨_, _, rfl⟩ | ⟨_, rfl⟩⟩ := State.pending_written hp <;> simp [Event.isPlain] at he
  · simp [Event.isPlain] at he

theorem step_rsp {s t : State} {st : Status} (h : step s = .next t) (htr : t.trace = s.trace ++ [.rsp st]) :
    s.responding = some st := by
  rcases step_event h htr with ⟨st', he, hresp⟩ | hp | ⟨l, hp⟩ | ⟨_, _, he, _, _⟩
  · cases he
    exact hresp
  · obtain ⟨_, hw⟩ := State.pending_written hp
    exact hw.elim
  · obtain ⟨_, hw⟩ := State.pending_written hp
    simp [Action.Written] at hw
  · cases he

theorem step_tw {s t : State} {r v : Byte} {a : Ack} (h : step s = .next t)
    (htr : t.trace = s.trace ++ [.tw r v a]) : s.writeRequest = some (r, v) ∧ s.twReport = some a := by
  rcases step_event h htr with ⟨_, he, _⟩ | hp | ⟨l, hp⟩ | ⟨_, _, he, hp, hk⟩
  · cases he
  · obtain ⟨_, hw⟩ := State.pending_written hp
    exact hw.elim
  · obtain ⟨_, hw⟩ := State.pending_written hp
    simp [Action.Written] at hw
  · cases he
    exact ⟨State.writeRequest_some.mpr ⟨hp, rfl⟩, hk⟩

/-- A requested write that the master reports done joins the trace (R146). -/
theorem step_write_done {s t : State} {r v : Byte} {a : Ack} (h : step s = .next t)
    (hw : s.writeRequest = some (r, v)) (ha : s.twReport = some a) : t.trace = s.trace ++ [.tw r v a] := by
  obtain ⟨hp, rfl⟩ := State.writeRequest_some.mp hw
  rw [step_pending hp, perform_write_done (by simpa using ha)] at h
  cases h
  rfl

/-- A poll changes nothing that the guard and the micro-programs read. -/
@[simp] theorem refusalOf_poll (i : Instr) (s : State) : refusalOf i s.poll = refusalOf i s := by
  cases i <;> rfl
@[simp] theorem actionOf_poll (i : Instr) (s : State) : actionOf i s.poll = actionOf i s := by
  cases i <;> rfl

/-- A requested write that is not done is requested again after the poll, unless a reset comes (R146; assumption 27). -/
theorem State.writeRequest_poll {s : State} {w : Byte × Byte} (hw : s.writeRequest = some w)
    (hr : s.clock.poll.rst = false) : s.clock.poll.writeRequest = some w := by
  obtain ⟨hp, hreg⟩ := State.writeRequest_some.mp hw
  obtain ⟨hb, _, i, hf, hq, ha⟩ := State.pending_some.mp hp
  exact State.writeRequest_some.mpr
    ⟨State.pending_some.mpr ⟨hb, hr, i, hf, by simpa using hq, by simpa using ha⟩, hreg⟩

theorem step_wait {s t : State} {d : Rat} (h : step s = .next t) (hw : s.waitRequest = some d) :
    t.trace = s.trace ++ [.wait d] := by
  rw [step_pending (State.waitRequest_some.mp hw)] at h
  cases h
  rfl

/-- A whole number of microseconds is shown exactly (R80). -/
theorem waitMicros_natCast (n : Nat) : waitMicros n = BitVec.ofNat 15 n := by
  have hceil : (n : Rat).ceil = n := by simp [Rat.ceil]
  rw [waitMicros, hceil, BitVec.ofInt_natCast]

/-- A busy block with no response to show stays busy. -/
theorem step_busy_of_responding_none {s t : State} (h : step s = .next t) (hr : s.rst = false)
    (hb : s.busy = true) (hresp : s.responding = none) : t.busy = true := by
  rcases step_shown h with ⟨hrst, _⟩ | ⟨_, hidle, _, _⟩ | ⟨st, hst⟩ | ⟨a, hp, hg⟩
  · simp [hr] at hrst
  · simp [hb] at hidle
  · simp [hresp] at hst
  · obtain ⟨hbusy, _, _⟩ := perform_goesOn hg ((step_pending hp).symm.trans h)
    exact hbusy.trans hb

/-- Settles O14: a clause each for the response, the two-wire write and the wait. -/
theorem portsShowTheStep : Obligations.PortsShowTheStep := by
  intro s t h
  have hwait : ∀ d, t.trace = s.trace ++ [.wait d] → s.portsOut.waitUs = some (waitMicros d) := fun d htr =>
    congrArg (Option.map waitMicros) (State.waitRequest_some.mpr (step_plain h htr rfl))
  refine ⟨fun c hc => ?_, fun st htr => ?_, fun r v a hw ha => ?_, fun r v hw hn => ?_, fun r v a htr => ?_,
    fun w hw => ?_, hwait, fun n htr => ?_, fun hr hb hresp => ?_⟩
  · obtain ⟨st, hst, rfl⟩ := Option.map_eq_some_iff.mp hc
    obtain ⟨htr, rfl, hbusy⟩ := step_responding hst h
    exact ⟨htr, rfl, hbusy⟩
  · exact congrArg (Option.map Status.code) (step_rsp h htr)
  · exact step_write_done h hw ha
  · have hu : s.unfinished = true := by simp [State.unfinished, show s.writeRequest = some (r, v) from hw, hn]
    rw [step_unfinished hu] at h
    cases h
    exact ⟨rfl, rfl, fun hr => State.writeRequest_poll hw hr⟩
  · exact step_tw h htr
  · obtain ⟨d, hd, rfl⟩ := Option.map_eq_some_iff.mp hw
    exact ⟨d, step_wait h hd, rfl⟩
  · rw [hwait n htr, waitMicros_natCast]
  · exact step_busy_of_responding_none h hr hb (Option.map_eq_none_iff.mp hresp)

/-! ## SET and DATA reach outputs only -/

theorem Pad.dir_of_drive {x : Pad} {v : Bool} (h : x.drive = some v) : x.dir = .output :=
  congrArg Pad.dir (Pad.drive_eq_some.mp h)

/-- Every line of the panel is an output. -/
def State.driven (s : State) : Prop := (∀ p, (s.lines.get p).dir = .output) ∧ s.bus.dir = .output

/-- R48(a): so it is between commands while the panel is powered. -/
theorem State.restOk_driven {s : State} (h : s.restOk) (hl : s.life = .poweredIdle ∨ s.life = .frameActive) :
    s.driven := by
  unfold State.restOk at h
  rcases hl with hl | hl <;> rw [hl] at h <;> exact ⟨fun p => Pad.dir_of_drive (h.1 p), h.2⟩

/-- BEGIN, TRANSFER and END leave every direction as it is, so the lines are outputs in the middle of them too. -/
theorem State.RunningOk.driven {s : State} {i : Instr} (h : s.RunningOk i) (hi : isPower i = false) : s.driven := by
  have hlines := h.lines
  have hbus := h.bus
  cases i with
  | enable | disable => cases hi
  | beginFrame | xfer | xferE | endFrame => exact ⟨fun p => Pad.dir_of_drive (hlines p), hbus⟩

/-- The guard admits a command in the lifecycle state it needs only (R171). -/
theorem life_of_refusalOf_none {i : Instr} {s : State} (h : refusalOf i s = none) (h0 : s.seq = 0) :
    s.life = neededLife i := by
  by_contra hl
  simp [refusalOf, guardStatus, h0, hl] at h

theorem State.Inv.driven {s : State} {i : Instr} (hinv : s.Inv) (hb : s.busy = true) (hf : s.fetch = .ok i)
    (hq : refusalOf i s = none) (hi : isPower i = false) : s.driven := by
  by_cases h0 : s.seq = 0
  · refine State.restOk_driven (hinv.rest (.inr h0)) ?_
    rw [life_of_refusalOf_none hq h0]
    cases i <;> simp_all [neededLife, isPower]
  · obtain ⟨j, hj, hrun⟩ := hinv.running hb h0
    cases hf.symm.trans hj
    exact hrun.driven hi

/-- R147, R150: ENABLE's first event makes WAKEUP an output, and it stays one through ENABLE and DISABLE. -/
theorem State.RunningOk.wakeup_output {s : State} {i : Instr} (h : s.RunningOk i) (hi : isPower i = true) :
    (s.lines.get .wakeup).dir = .output := by
  have hw := h.lines .wakeup
  cases i with
  | enable => exact Pad.dir_of_drive hw
  | disable => exact Pad.dir_of_drive hw
  | beginFrame | xfer | xferE | endFrame => cases hi

/-- R147, R150: the first step of ENABLE and of DISABLE is an `enter`. -/
theorem seq_ne_zero_of_emit {i : Instr} {s : State} {e : Event} (ha : actionOf i s = .ok (.emit e))
    (hi : isPower i = true) : s.seq ≠ 0 := by
  intro h0
  cases i with
  | enable => simp [actionOf, enableAction, h0] at ha
  | disable => simp [actionOf, disableAction, h0] at ha
  | beginFrame | xfer | xferE | endFrame => cases hi

theorem State.Inv.set_output {s : State} {p : Line} {v : Bool} (hinv : s.Inv)
    (hp : s.pending = some (.emit (.set p v))) : (s.lines.get p).dir = .output := by
  obtain ⟨hb, _, i, hf, hq, ha⟩ := State.pending_some.mp hp
  cases hi : isPower i with
  | false => exact (hinv.driven hb hf hq hi).1 p
  | true =>
    obtain rfl : p = .wakeup := actionOf_written ha hi
    obtain ⟨j, hj, hrun⟩ := hinv.running hb (seq_ne_zero_of_emit ha hi)
    cases hf.symm.trans hj
    exact hrun.wakeup_output hi

theorem State.Inv.data_output {s : State} {b : Byte} (hinv : s.Inv) (hp : s.pending = some (.emit (.data b))) :
    s.bus.dir = .output := by
  obtain ⟨hb, _, i, hf, hq, ha⟩ := State.pending_some.mp hp
  exact (hinv.driven hb hf hq (actionOf_written ha)).2

/-- Settles O46: SET and DATA are made by an `emit` of the command that runs, whose lines the invariant gives. -/
theorem onlyOutputsChangeLevel : Obligations.OnlyOutputsChangeLevel := fun _ _ hinv h =>
  ⟨fun _ _ htr => hinv.set_output (step_plain h htr rfl), fun _ htr => hinv.data_output (step_plain h htr rfl)⟩

/-! ## The lanes of a waveform byte -/

/-- R64: pixel j is bit 3-j of the LUT index. -/
theorem lutIndex_getLsbD (p0 p1 p2 p3 : Byte) (j : Fin 4) :
    (lutIndex p0 p1 p2 p3).getLsbD (3 - j) = ([p0, p1, p2, p3].getD j 0x00#8).getLsbD 0 := by
  fin_cases j <;> simp only [lutIndex, pixelBit, BitVec.getLsbD_append, BitVec.getLsbD_ofBool] <;> simp

/-- R103, R104: lane j of the default table's entry is its index's bit 3-j, then 1. -/
theorem waveField_defaultLut (idx : BitVec 4) (j : Fin 4) :
    waveField (lutRead defaultLut idx) j = BitVec.ofBool (idx.getLsbD (3 - j)) ++ 1#1 := by
  revert idx j
  decide

theorem waveField_ones (j : Fin 4) : waveField 0xFF#8 j = 0b11#2 := by
  revert j
  decide

/-- Settles O39: the default table lane by lane, and the erase byte 0xFF. -/
theorem waveformLanes : Obligations.WaveformLanes := by
  refine fun p0 p1 p2 p3 => ⟨fun j => ?_, fun lut j => ?_⟩
  · rw [← lutIndex_getLsbD]
    exact waveField_defaultLut _ j
  · exact waveField_ones j

end Sys2Proof.Machine
end

