-- ==== Sys2Proof/Proofs/PixelEncoder.lean ====
section
/-! PROOFS. The statements of spec/40_pixel_encoder.md: ENCODE reads the table at the index of the pixels' bits, and
the values of the default table (D5). -/

namespace Sys2Proof.Machine

/-! ## ENCODE, case by case -/

/-- R102. -/
@[simp] theorem encodePixels_erase (lut : Vector Byte 16) (p0 p1 p2 p3 : Byte) :
    encodePixels lut p0 p1 p2 p3 true = 0xFF#8 := rfl

/-- R101. -/
@[simp] theorem encodePixels_pixels (lut : Vector Byte 16) (p0 p1 p2 p3 : Byte) :
    encodePixels lut p0 p1 p2 p3 false = lutRead lut (lutIndex p0 p1 p2 p3) := rfl

theorem some_lutRead (lut : Vector Byte 16) (idx : BitVec 4) : some (lutRead lut idx) = lut[idx.toNat]? :=
  (Vector.getElem?_eq_getElem idx.isLt).symm

/-- Settles O36: the index as a number is the rule's sum. -/
theorem encodeLooksUp : Obligations.EncodeLooksUp := by
  refine ⟨fun lut p0 p1 p2 p3 => ?_, encodePixels_erase, by decide⟩
  rw [encodePixels_pixels, some_lutRead, lutIndex_toNat]

/-- Settles O37: the LUT index is made of bit 0 of each pixel. -/
theorem encodeReadsFiveBits : Obligations.EncodeReadsFiveBits := encodePixels_congr

/-! ## The image of ENCODE -/

/-- Every LUT index is that of a group of pixels: the shifted index, whose other bits do not count (R63). -/
theorem exists_lutIndex_eq (idx : BitVec 4) : ∃ p0 p1 p2 p3, lutIndex p0 p1 p2 p3 = idx := by
  refine ⟨idx.setWidth 8 >>> 3, idx.setWidth 8 >>> 2, idx.setWidth 8 >>> 1, idx.setWidth 8, ?_⟩
  revert idx
  decide

/-- The entries of a table are what its indices read. -/
theorem mem_toList_iff_exists_lutRead {lut : Vector Byte 16} {w : Byte} :
    w ∈ lut.toList ↔ ∃ idx, lutRead lut idx = w := by
  rw [Vector.mem_toList_iff, Vector.mem_iff_getElem]
  constructor
  · rintro ⟨i, hi, rfl⟩
    exact ⟨BitVec.ofFin ⟨i, hi⟩, rfl⟩
  · rintro ⟨idx, rfl⟩
    exact ⟨idx.toNat, idx.isLt, rfl⟩

/-- Without erase, the image of ENCODE is the table. -/
theorem mem_toList_iff_exists_encodePixels {lut : Vector Byte 16} {w : Byte} :
    w ∈ lut.toList ↔ ∃ p0 p1 p2 p3, encodePixels lut p0 p1 p2 p3 false = w := by
  rw [mem_toList_iff_exists_lutRead]
  constructor
  · rintro ⟨idx, rfl⟩
    obtain ⟨p0, p1, p2, p3, rfl⟩ := exists_lutIndex_eq idx
    exact ⟨p0, p1, p2, p3, rfl⟩
  · rintro ⟨p0, p1, p2, p3, rfl⟩
    exact ⟨lutIndex p0 p1 p2 p3, rfl⟩

/-! ## The default table -/

/-- R104. -/
theorem lutRead_defaultLut (idx : BitVec 4) : lutRead defaultLut idx = spreadIndex idx ||| 0x55#8 := by
  revert idx
  decide

/-- `S(idx)` puts pixel j's bit of the index at bit 7-2j (R103). -/
theorem spreadIndex_getLsbD (idx : BitVec 4) (j : Fin 4) :
    (spreadIndex idx).getLsbD (7 - 2 * j) = idx.getLsbD (3 - j) := by
  revert idx j
  decide

/-- The even bits of every code are set, the erase output's too (R104, R106). -/
theorem encodePixels_defaultLut_and (p0 p1 p2 p3 : Byte) (erase : Bool) :
    encodePixels defaultLut p0 p1 p2 p3 erase &&& 0x55#8 = 0x55#8 := by
  cases erase with
  | true => rw [encodePixels_erase]; decide
  | false =>
    rw [encodePixels_pixels, lutRead_defaultLut]
    ext i
    simpa using Or.inr

/-- R106: the default table holds the erase output. -/
theorem encodePixels_defaultLut_mem (p0 p1 p2 p3 : Byte) (erase : Bool) :
    encodePixels defaultLut p0 p1 p2 p3 erase ∈ defaultLut.toList := by
  cases erase with
  | true => rw [encodePixels_erase]; decide
  | false => exact mem_toList_iff_exists_encodePixels.mpr ⟨p0, p1, p2, p3, rfl⟩

/-- The odd bits of a code are the pixels' bits (R103). -/
theorem encodePixels_defaultLut_getLsbD (p0 p1 p2 p3 : Byte) (j : Fin 4) :
    (encodePixels defaultLut p0 p1 p2 p3 false).getLsbD (7 - 2 * j) =
      ([p0, p1, p2, p3].getD j 0x00#8).getLsbD 0 := by
  have even : (0x55#8).getLsbD (7 - 2 * j) = false := by revert j; decide
  rw [encodePixels_pixels, lutRead_defaultLut, BitVec.getLsbD_or, even, Bool.or_false, spreadIndex_getLsbD,
    lutIndex_getLsbD]

/-- Settles O38: each code is the spread of its index over 0x55, and every index is that of some pixels. -/
theorem defaultTableValues : Obligations.DefaultTableValues :=
  ⟨rfl, rfl, lutRead_defaultLut,
    fun p0 p1 p2 p3 erase =>
      ⟨encodePixels_defaultLut_mem p0 p1 p2 p3 erase, encodePixels_defaultLut_and p0 p1 p2 p3 erase⟩,
    fun p0 p1 p2 p3 =>
      have bit := encodePixels_defaultLut_getLsbD p0 p1 p2 p3
      ⟨bit 0, bit 1, bit 2, bit 3⟩,
    fun _ => mem_toList_iff_exists_encodePixels.mp⟩

end Sys2Proof.Machine
end

