-- ==== Sys2Proof/Proofs/ParallelBus.lean ====
section
/-! PROOFS. The statements of spec/41_parallel_bus.md: the steps of a TRANSFER (R121, R174), its pulse counts (R128),
its frame (R120), erase (R129) and the scanline reads (R61, R64).  Each rests on `rowAction_eq`: what a row does at
`seq` is read off its event list. -/

namespace Sys2Proof

/-- The two TRANSFERs as one: XFER.E when erasing, XFER otherwise. -/
def Instr.transfer (erase : Bool) (buf : Memory) : Instr := if erase then .xferE buf else .xfer buf

theorem Instr.eq_transfer_iff {i : Instr} {buf : Memory} :
    i = .xfer buf ∨ i = .xferE buf ↔ ∃ erase, i = .transfer erase buf := by
  simp [Instr.transfer]

@[simp] theorem operandLength_transfer (width : Nat) (erase : Bool) (buf : Memory) :
    operandLength width (.transfer erase buf) = width := by
  cases erase <;> rfl

@[simp] theorem Instr.operand_transfer (erase : Bool) (buf : Memory) : (Instr.transfer erase buf).operand = buf := by
  cases erase <;> rfl

end Sys2Proof

namespace Sys2Proof.Machine

@[simp] theorem neededLife_transfer (erase : Bool) (buf : Memory) :
    neededLife (.transfer erase buf) = .frameActive := by
  cases erase <;> rfl

@[simp] theorem wrongRows_transfer (erase : Bool) (buf : Memory) (rows height : Nat) :
    wrongRows (.transfer erase buf) rows height = decide (height ≤ rows) := by
  cases erase <;> rfl

@[simp] theorem actionOf_transfer (erase : Bool) (buf : Memory) (s : State) :
    actionOf (.transfer erase buf) s = rowAction erase buf s := by
  cases erase <;> rfl

/-- A block that runs a TRANSFER has its operand latched (R82). -/
theorem State.buf_of_fetch_transfer {s : State} {erase : Bool} {buf : Memory}
    (hf : s.fetch = .ok (.transfer erase buf)) : s.cmd.buf = buf := by
  rcases (eq_encodeByte_of_decodeByte hf).2 with hbuf | ⟨_, hlen⟩
  · simpa using hbuf.symm
  · exact absurd (hlen 1) (by simp)

/-! ## The events of a row -/

/-- The three events of group `k` (R121 step 2). -/
def groupEvents (c : Config) (buf : Memory) (erase : Bool) (k : Nat) : List Event :=
  [.data (rowByte c buf erase k), .set .cl true, .set .cl false]

theorem shiftEvents_eq_flatMap (c : Config) (buf : Memory) (erase : Bool) (k n : Nat) :
    shiftEvents c buf erase k n = (List.range' k n).flatMap (groupEvents c buf erase) := by
  induction n generalizing k with
  | zero => rfl
  | succ n ih =>
    rw [shiftEvents, ih, List.range'_succ, List.flatMap_cons]
    rfl

/-- R121: STL falls, each group in turn is shifted, and the row closes. -/
theorem rowEvents_eq (c : Config) (buf : Memory) (erase : Bool) : rowEvents c buf erase =
    [.set .stl false] ++ (List.range c.groups).flatMap (groupEvents c buf erase) ++ closingEvents c := by
  rw [rowEvents, shiftEvents_eq_flatMap, List.range_eq_range']
  rfl

theorem rowEvents_length (c : Config) (buf : Memory) (erase : Bool) :
    (rowEvents c buf erase).length = 3 * c.groups + 9 := by
  simp [rowEvents, shiftEvents_length, closingEvents]

/-- R9: a row of 1024 pixels has 256 groups. -/
theorem Config.groups_of_width_1024 {c : Config} (h : c.width = 1024) : c.groups = 256 := by
  simp [Config.groups, h]

/-- The events a row is made of (R121): DATA, its one delay, and the levels of STL, CL, LE and CKV. -/
def Event.OfRow (c : Config) (e : Event) : Prop :=
  (∃ b, e = .data b) ∨ e = .wait c.tCkvLow ∨ ∃ p v, e = .set p v ∧ (p = .stl ∨ p = .cl ∨ p = .le ∨ p = .ckv)

theorem groupEvents_ofRow {c : Config} {buf : Memory} {erase : Bool} {k : Nat} :
    ∀ e ∈ groupEvents c buf erase k, e.OfRow c := by
  simp [groupEvents, Event.OfRow]

theorem closingEvents_ofRow {c : Config} : ∀ e ∈ closingEvents c, e.OfRow c := by
  simp [closingEvents, Event.OfRow]

theorem rowEvents_ofRow {c : Config} {buf : Memory} {erase : Bool} {e : Event} (he : e ∈ rowEvents c buf erase) :
    e.OfRow c := by
  rw [rowEvents_eq, List.mem_append, List.mem_append, List.mem_singleton, List.mem_flatMap] at he
  rcases he with (rfl | ⟨k, _, hk⟩) | hc
  · exact .inr (.inr ⟨.stl, false, rfl, .inl rfl⟩)
  · exact groupEvents_ofRow e hk
  · exact closingEvents_ofRow e hc

/-- R121: the byte of group `k` goes out at seq 3k+1. -/
theorem rowEvents_getElem?_data {c : Config} (buf : Memory) (erase : Bool) {k : Nat} (hk : k < c.groups) :
    (rowEvents c buf erase)[3 * k + 1]? = some (.data (rowByte c buf erase k)) := by
  obtain ⟨hdata, _, _⟩ := shiftEvents_get c buf erase 0 c.groups k hk
  rw [rowEvents, List.getElem?_cons_succ, List.getElem?_append_left (by rw [shiftEvents_length]; omega), hdata,
    Nat.zero_add]

/-- R121: a row emits DATA in its groups only, as the first of a group's three events. -/
theorem exists_group_of_rowEvents_data {c : Config} {buf : Memory} {erase : Bool} {n : Nat} {b : Byte}
    (h : (rowEvents c buf erase)[n]? = some (.data b)) : ∃ k, k < c.groups ∧ n = 3 * k + 1 := by
  cases n with
  | zero => simp [rowEvents] at h
  | succ n =>
    rw [rowEvents, List.getElem?_cons_succ] at h
    by_cases hn : n < 3 * c.groups
    · rw [List.getElem?_append_left (by rwa [shiftEvents_length])] at h
      obtain ⟨_, hup, hdown⟩ := shiftEvents_get c buf erase 0 c.groups (n / 3) (by omega)
      have hm : n = 3 * (n / 3) ∨ n = 3 * (n / 3) + 1 ∨ n = 3 * (n / 3) + 2 := by omega
      rcases hm with hm | hm | hm
      · exact ⟨n / 3, by omega, congrArg (· + 1) hm⟩
      · rw [← hm, h] at hup
        simp at hup
      · rw [← hm, h] at hdown
        simp at hdown
    · rw [List.getElem?_append_right (by rw [shiftEvents_length]; omega)] at h
      have hmem : Event.data b ∈ closingEvents c := List.mem_of_getElem? h
      simp [closingEvents] at hmem

/-! ## The micro-program of a row -/

/-- What a row does at `seq`: it emits the event of that number, completes after the last, and has no step beyond
(R121, R174). -/
theorem rowAction_eq (erase : Bool) (buf : Memory) (s : State) : rowAction erase buf s =
    ((rowEvents s.cfg buf erase)[s.seq]?).elim
      (if s.seq = 3 * s.cfg.groups + 9 then .ok (.finish s.life (nextRows s.rows) .ok) else .error .noSuchStep)
      (fun e => .ok (.emit e)) := by
  cases he : (rowEvents s.cfg buf erase)[s.seq]? with
  | some e => exact rowAction_of_event he
  | none =>
    rw [List.getElem?_eq_none_iff, rowEvents_length] at he
    obtain ⟨n, hn⟩ := Nat.exists_eq_add_of_le he
    have hlast : s.seq - (3 * s.cfg.groups + 1) = n + 8 := by omega
    rw [rowAction, if_neg (by omega), if_neg (by omega), hlast, hn]
    cases n <;> simp [closingAction]

theorem rowAction_last {erase : Bool} {buf : Memory} {s : State} (hq : s.seq = 3 * s.cfg.groups + 9) :
    rowAction erase buf s = .ok (.finish s.life (nextRows s.rows) .ok) := by
  have hnone : (rowEvents s.cfg buf erase)[s.seq]? = none := by
    rw [List.getElem?_eq_none_iff, rowEvents_length, hq]
  rw [rowAction_eq, hnone, Option.elim_none, if_pos hq]

/-- Everything a step of a row's micro-program can be. -/
theorem rowAction_ok {erase : Bool} {buf : Memory} {s : State} {a : Action} (h : rowAction erase buf s = .ok a) :
    (∃ e, (rowEvents s.cfg buf erase)[s.seq]? = some e ∧ a = .emit e) ∨
    (s.seq = 3 * s.cfg.groups + 9 ∧ a = .finish s.life (nextRows s.rows) .ok) := by
  rw [rowAction_eq] at h
  cases he : (rowEvents s.cfg buf erase)[s.seq]? with
  | some e =>
    rw [he] at h
    cases h
    exact .inl ⟨e, rfl, rfl⟩
  | none =>
    rw [he, Option.elim_none] at h
    split at h <;> cases h
    exact .inr ⟨‹_›, rfl⟩

/-! ## The steps of a TRANSFER -/

/-- `s` after the completion step of a row: the row is counted and RSP(OK) given (R174). -/
def State.rowDone (s : State) : State := { s.answered .ok with rows := nextRows s.rows }

/-- The guard's premise for a TRANSFER, needed at its first step only (R170, R171). -/
theorem refusalOf_transfer_none {erase : Bool} {buf : Memory} {s : State}
    (h : s.seq = 0 → s.life = .frameActive ∧ (s.cfg.rowCountCheck = true → s.rows.toNat < s.cfg.height)) :
    refusalOf (.transfer erase buf) s = none := by
  by_cases h0 : s.seq = 0
  · obtain ⟨hl, hrows⟩ := h h0
    exact refusalOf_first (by simpa using hl) (by simpa using hrows)
  · exact refusalOf_later h0

theorem exec_transfer_event {erase : Bool} {buf : Memory} {s : State} {e : Event}
    (he : (rowEvents s.cfg buf erase)[s.seq]? = some e)
    (h : s.seq = 0 → s.life = .frameActive ∧ (s.cfg.rowCountCheck = true → s.rows.toNat < s.cfg.height)) :
    exec (.transfer erase buf) s = .next (s.afterEvent e) := by
  rw [exec_of_action (refusalOf_transfer_none h) ((actionOf_transfer erase buf s).trans (rowAction_of_event he))]
  rfl

theorem exec_transfer_last {erase : Bool} {buf : Memory} {s : State} (hq : s.seq = 3 * s.cfg.groups + 9) :
    exec (.transfer erase buf) s = .next s.rowDone := by
  rw [exec_of_action (refusalOf_later (by omega)) ((actionOf_transfer erase buf s).trans (rowAction_last hq))]
  rfl

/-- Everything a step of a TRANSFER can do: be refused, emit the row's next event, or complete the row. -/
theorem exec_transfer_next {erase : Bool} {buf : Memory} {s t : State}
    (h : exec (.transfer erase buf) s = .next t) :
    (∃ st, t = s.respond st) ∨
    (∃ e, (rowEvents s.cfg buf erase)[s.seq]? = some e ∧ t = s.afterEvent e) ∨
    (s.seq = 3 * s.cfg.groups + 9 ∧ t = s.rowDone) := by
  rcases exec_next h with ⟨st, _, ht⟩ | ⟨a, _, ha, hp⟩
  · exact .inl ⟨st, ht⟩
  · rw [actionOf_transfer] at ha
    rcases rowAction_ok ha with ⟨e, he, rfl⟩ | ⟨hq, rfl⟩ <;> cases hp
    · exact .inr (.inl ⟨e, he, rfl⟩)
    · exact .inr (.inr ⟨hq, rfl⟩)

/-- Settles O30: XFER and XFER.E step by the row's event list. -/
theorem transferSteps : Obligations.TransferSteps :=
  ⟨fun _ _ _ he h => exec_transfer_event (erase := false) he h,
    fun _ _ _ he h => exec_transfer_event (erase := true) he h,
    fun _ _ hq => ⟨exec_transfer_last (erase := false) hq, exec_transfer_last (erase := true) hq⟩,
    fun c buf erase => ⟨rowEvents_length c buf erase, fun hw => by
      rw [rowEvents_length, Config.groups_of_width_1024 hw]⟩⟩

/-! ## Pulse counts -/

/-- R128: G DATA events, one for each group. -/
theorem dataCount_rowEvents (c : Config) (buf : Memory) (erase : Bool) :
    dataCount (rowEvents c buf erase) = c.groups := by
  simp [rowEvents_eq, dataCount, groupEvents, closingEvents, List.countP_flatMap, Function.comp_def]

/-- R128: each level of CL is set once for each group and once by the flush clock, each level of STL, LE and CKV once,
and no other line is set. -/
theorem setCount_rowEvents (c : Config) (buf : Memory) (erase : Bool) (p : Line) (v : Bool) :
    setCount p v (rowEvents c buf erase) =
      if p = .cl then c.groups + 1 else if p = .stl ∨ p = .le ∨ p = .ckv then 1 else 0 := by
  cases p <;> cases v <;>
    simp [rowEvents_eq, setCount, groupEvents, closingEvents, List.count_flatMap, Function.comp_def]

/-- An admitted TRANSFER from its offer on: acceptance, one step an event, completion. -/
theorem run_transfer {erase : Bool} {buf : Memory} {s : State} {rest : List Command}
    (ho : s.Offered (.transfer erase buf) rest) (hl : s.life = .frameActive)
    (hrows : s.cfg.rowCountCheck = true → s.rows.toNat < s.cfg.height) :
    run (3 * s.cfg.groups + 11) s = .next (State.rowDone { s with
      rstIn := s.rstIn.drop (3 * s.cfg.groups + 11), seq := 3 * s.cfg.groups + 9,
      busy := true, cmd := (Instr.transfer erase buf).command, host := rest,
      trace := s.trace ++ rowEvents s.cfg buf erase,
      lines := (rowEvents s.cfg buf erase).foldl (fun l e => e.onLines l) s.lines,
      bus := (rowEvents s.cfg buf erase).foldl (fun b e => e.onBus b) s.bus }) := by
  have hrun := run_command (es := rowEvents s.cfg buf erase) (fin := State.rowDone) ho (by simp [rowEvents])
    (fun t e hc htl htr h0 he => exec_transfer_event (by rwa [hc, h0]) fun _ => by
      rw [htl, hc, htr]; exact ⟨hl, hrows⟩)
    (fun t e hc h0 he => exec_transfer_event (by rwa [hc]) fun hq => absurd hq h0)
    (fun t hc hq => exec_transfer_last (by rw [hq, rowEvents_length, hc]))
  rwa [rowEvents_length] at hrun

/-- Settles O32: the new events are the row's, which are counted. -/
theorem rowPulseCounts : Obligations.RowPulseCounts := by
  rintro s rest buf erase i rfl ho hl hrows
  have hset := setCount_rowEvents s.cfg buf erase
  refine ⟨_, rowEvents s.cfg buf erase, run_transfer ho hl hrows, rfl, dataCount_rowEvents s.cfg buf erase,
    hset .cl true, hset .cl false, fun hw => ?_, hset .le true, hset .le false, hset .ckv false, hset .ckv true,
    hset .stl false, hset .stl true, rowEvents_eq s.cfg buf erase, fun _ he => rowEvents_ofRow he⟩
  rw [hset, if_pos rfl, Config.groups_of_width_1024 hw]

/-! ## The frame -/

/-- R120: an event of a row leaves every line but STL, CL, LE and CKV. -/
theorem Event.OfRow.onLines_get {c : Config} {e : Event} (he : e.OfRow c) (l : Lines) (p : Line) :
    (e.onLines l).get p = l.get p ∨ p = .stl ∨ p = .cl ∨ p = .le ∨ p = .ckv := by
  obtain ⟨_, rfl⟩ | rfl | ⟨q, v, rfl, hq⟩ := he
  · exact .inl rfl
  · exact .inl rfl
  · by_cases hp : p = q
    · exact .inr (hp ▸ hq)
    · exact .inl (Lines.get_set_of_ne l _ hp)

/-- A SET keeps the direction of its line (R90). -/
theorem Event.OfRow.onLines_dir {c : Config} {e : Event} (he : e.OfRow c) (l : Lines) (p : Line) :
    ((e.onLines l).get p).dir = (l.get p).dir := by
  obtain ⟨_, rfl⟩ | rfl | ⟨q, v, rfl, _⟩ := he
  · rfl
  · rfl
  · rw [Event.onLines_set, Lines.get_set]
    split
    · next hp => rw [hp]
    · rfl

/-- Of a row's events only DATA changes the byte on the data lines, and none their direction. -/
theorem Event.OfRow.onBus {c : Config} {e : Event} (he : e.OfRow c) (b : Bus) :
    (e.onBus b).dir = b.dir ∧ ((e.onBus b).byte = b.byte ∨ ∃ v, e = .data v) := by
  obtain ⟨v, rfl⟩ | rfl | ⟨_, _, rfl, _⟩ := he
  · exact ⟨rfl, .inr ⟨v, rfl⟩⟩
  · exact ⟨rfl, .inl rfl⟩
  · exact ⟨rfl, .inl rfl⟩

/-- Settles O33, by what a step of a TRANSFER can do. -/
theorem transferFrame : Obligations.TransferFrame := by
  intro i buf s t hi h
  obtain ⟨erase, rfl⟩ := Instr.eq_transfer_iff.mp hi
  rcases exec_transfer_next h with ⟨st, rfl⟩ | ⟨e, he, rfl⟩ | ⟨hq, rfl⟩
  · simp
  · have hrow : e.OfRow s.cfg := rowEvents_ofRow (List.mem_of_getElem? he)
    obtain ⟨hdir, hbyte⟩ := hrow.onBus s.bus
    exact ⟨rfl, rfl, rfl, rfl, rfl, rfl, rfl, rfl, fun _ => rfl, hrow.onLines_get s.lines, hrow.onLines_dir s.lines,
      hdir, hbyte.imp_right fun ⟨v, hv⟩ => ⟨v, hv ▸ rfl⟩, .inl rfl, .inl ⟨rfl, rfl⟩⟩
  · exact ⟨rfl, rfl, rfl, rfl, rfl, rfl, rfl, rfl, fun _ => rfl, fun _ => .inl rfl, fun _ => rfl, rfl, .inl rfl,
      .inr hq, .inr ⟨rfl, rfl⟩⟩

/-! ## The scanline reads -/

/-- The ports show reads at a DATA step, those of the group it belongs to (R121), and at no other. -/
theorem State.pxReads_of_pending_data {s : State} {b : Byte} (h : s.pending = some (.emit (.data b))) :
    s.pxReads = groupIndices ((s.seq - 1) / 3) := by
  simp [State.pxReads, h]

theorem State.pxReads_eq_nil {s : State} (h : ∀ b, s.pending ≠ some (.emit (.data b))) : s.pxReads = [] := by
  unfold State.pxReads
  split
  · next hp => exact absurd hp (h _)
  · rfl

/-- At seq 3k+1 a TRANSFER is at the DATA event of group `k`. -/
theorem State.pxReads_transfer {s : State} {erase : Bool} {buf : Memory} {k : Nat} (hr : s.rst = false)
    (hb : s.busy = true) (hf : s.fetch = .ok (.transfer erase buf)) (hk : k < s.cfg.groups)
    (hq : s.seq = 3 * k + 1) : s.pxReads = groupIndices k := by
  have hdata : (rowEvents s.cfg buf erase)[s.seq]? = some (.data (rowByte s.cfg buf erase k)) :=
    hq ▸ rowEvents_getElem?_data buf erase hk
  have hp : s.pending = some (.emit (.data (rowByte s.cfg buf erase k))) :=
    State.pending_some.mpr ⟨hb, hr, _, hf, refusalOf_later (by omega),
      (actionOf_transfer erase buf s).trans (rowAction_of_event hdata)⟩
  rw [State.pxReads_of_pending_data hp, show (s.seq - 1) / 3 = k by omega]

/-- At every other step of a TRANSFER nothing is read. -/
theorem State.pxReads_transfer_eq_nil {s : State} {erase : Bool} {buf : Memory}
    (hf : s.fetch = .ok (.transfer erase buf)) (hq : ∀ k, k < s.cfg.groups → s.seq ≠ 3 * k + 1) :
    s.pxReads = [] := by
  refine State.pxReads_eq_nil fun b hp => ?_
  obtain ⟨_, _, i, hi, _, ha⟩ := State.pending_some.mp hp
  cases hf.symm.trans hi
  rw [actionOf_transfer] at ha
  rcases rowAction_ok ha with ⟨e, he, hae⟩ | ⟨_, hfin⟩
  · cases hae
    obtain ⟨k, hk, hseq⟩ := exists_group_of_rowEvents_data he
    exact hq k hk hseq
  · cases hfin

/-- Settles O58: the ports show the reads of the step, answered from the latched operand. -/
theorem transferReads : Obligations.TransferReads := by
  intro s buf hr hb hf
  obtain ⟨erase, hf⟩ : ∃ erase, s.fetch = .ok (.transfer erase buf) :=
    hf.elim (fun h => ⟨false, h⟩) fun h => ⟨true, h⟩
  refine ⟨fun k hk hq => ?_, fun hq => ?_⟩
  · simp [State.portsOut, State.portsIn, State.pxReads_transfer hr hb hf hk hq, State.buf_of_fetch_transfer hf,
      groupIndices]
  · simp [State.portsOut, State.portsIn, State.pxReads_transfer_eq_nil hf hq]

/-! ## Erase -/

/-- R129: an erased group's events are the group's with their byte made 0xFF. -/
theorem groupEvents_erase (c : Config) (buf buf' : Memory) (k : Nat) :
    groupEvents c buf true k = (groupEvents c buf' false k).map Event.erased := rfl

theorem closingEvents_map_erased (c : Config) : (closingEvents c).map Event.erased = closingEvents c := rfl

/-- R129: an erased row's events are those of any row with their data bytes made 0xFF. -/
theorem rowEvents_erase (c : Config) (buf buf' : Memory) :
    rowEvents c buf true = (rowEvents c buf' false).map Event.erased := by
  rw [rowEvents_eq, rowEvents_eq, funext (groupEvents_erase c buf buf'), List.map_append, List.map_append,
    List.map_flatMap, closingEvents_map_erased]
  rfl

/-- The guard sees no operand (R171), and an erased row's events are those of any operand. -/
theorem exec_xferE_congr (s : State) (buf buf' : Memory) : exec (.xferE buf) s = exec (.xferE buf') s := by
  have hev : rowEvents s.cfg buf true = rowEvents s.cfg buf' true :=
    (rowEvents_erase s.cfg buf []).trans (rowEvents_erase s.cfg buf' []).symm
  have hact : rowAction true buf s = rowAction true buf' s := by rw [rowAction_eq, hev, ← rowAction_eq]
  exact congrArg (fun act => runCommand (.xferE buf) act s) hact

/-- Settles O34. -/
theorem eraseIgnoresOperand : Obligations.EraseIgnoresOperand :=
  ⟨exec_xferE_congr, fun c buf => rowEvents_erase c buf buf, fun _ buf _ hr hb hf hk hq =>
    congrArg (List.map (BitVec.ofNat 10)) (State.pxReads_transfer (erase := true) (buf := buf) hr hb hf hk hq)⟩

end Sys2Proof.Machine
end

