-- ==== Sys2Proof/Proofs/PowerSequencer.lean ====
section
/-! PROOFS. The statements of spec/42_power_sequencer.md: the steps of ENABLE and DISABLE (R147, R148, R150), whole
commands, what they leave unchanged, a write that is never done (R215), and the invariant of every reachable state
(R48).  Frame and invariant rest on `exec_cases`: what a step of a command can do, read off its event list. -/

namespace Sys2Proof.Machine

/-! ## The micro-programs by their events -/

/-- The events of a command in order, with the acknowledge bits of its writes, if it makes any (R121, R147, R150, R173,
R175). -/
def microEvents (c : Config) (x y z : Ack) : Instr → List Event
  | .enable => enableEvents x y z
  | .beginFrame => beginEvents c
  | .xfer buf => rowEvents c buf false
  | .xferE buf => rowEvents c buf true
  | .endFrame => endEvents
  | .disable => disableEvents x y z

@[simp] theorem microEvents_length (c : Config) (x y z : Ack) (i : Instr) :
    (microEvents c x y z i).length = lastSeq c.groups i := by
  cases i with
  | xfer buf | xferE buf => exact rowEvents_length c buf _
  | enable | beginFrame | endFrame | disable => rfl

/-- The micro-program step of command `i` that makes its event `e`, the event of number `n`. -/
def eventAction (i : Instr) (n : Nat) (e : Event) : Action :=
  match e with
  | .tw _ v _ => .write v
  | e => if isPower i && n == 0 then .enter (midLife i) e else .emit e

/-- The lifecycle state a command ends in, off ENABLE's abort path (R172). -/
def lifeAtEnd (i : Instr) (s : State) : Life :=
  match i with
  | .enable => .poweredIdle
  | .beginFrame => .frameActive
  | .xfer _ => s.life
  | .xferE _ => s.life
  | .endFrame => .poweredIdle
  | .disable => if s.nackFatal then .faulted else .unpowered

/-- The status a command ends with, off ENABLE's abort path: a NACK makes DISABLE fail (R151). -/
def statusAtEnd (i : Instr) (s : State) : Status :=
  match i with
  | .enable => .ok
  | .beginFrame => .ok
  | .xfer _ => .ok
  | .xferE _ => .ok
  | .endFrame => .ok
  | .disable => if s.nackFatal then .busTransactionFailure else .ok

/-- ENABLE is on its abort path: a NACK has been recorded under policy `Fault` (R148). -/
def State.aborting (i : Instr) (s : State) : Prop := i = .enable ∧ s.nackFatal = true ∧ 3 ≤ s.seq ∧ s.seq ≤ 8

/-- What a command does at `seq`, read off its event list: it makes the event of that number, ends after the last, and
has no step beyond. -/
def ReadsOff (i : Instr) (es : List Event) (s : State) : Prop :=
  actionOf i s = (es[s.seq]?).elim
    (if s.seq = es.length then .ok (.finish (lifeAtEnd i s) (rowsAtEnd i s) (statusAtEnd i s))
      else .error .noSuchStep)
    (fun e => .ok (eventAction i s.seq e))

theorem readsOff_at {i : Instr} {es : List Event} {s : State} {n : Nat} (hq : s.seq = n)
    (ha : actionOf i s = (es[n]?).elim
      (if n = es.length then .ok (.finish (lifeAtEnd i s) (rowsAtEnd i s) (statusAtEnd i s))
        else .error .noSuchStep)
      (fun e => .ok (eventAction i n e))) : ReadsOff i es s := by
  subst hq
  exact ha

theorem readsOff_beyond {i : Instr} {es : List Event} {s : State} (h : es.length < s.seq)
    (ha : actionOf i s = .error .noSuchStep) : ReadsOff i es s := by
  rw [ReadsOff, List.getElem?_eq_none h.le, Option.elim_none, if_neg h.ne', ha]

theorem enable_readsOff {s : State} (h : ¬ s.aborting .enable) (x y z : Ack) :
    ReadsOff .enable (enableEvents x y z) s := by
  have hact : actionOf .enable s = enableAction s := rfl
  unfold enableAction at hact
  rw [if_neg, if_neg] at hact
  · split at hact
    case h_18 => exact readsOff_beyond (show 16 < s.seq by grind) hact
    all_goals
      rename_i hq
      exact readsOff_at hq hact
  all_goals
    intro hn
    simp [State.aborting] at h hn
    have := h hn.1
    omega

theorem disable_readsOff (s : State) (x y z : Ack) : ReadsOff .disable (disableEvents x y z) s := by
  have hact : actionOf .disable s = disableAction s := rfl
  unfold disableAction at hact
  split at hact
  case h_16 => exact readsOff_beyond (show 14 < s.seq by grind) hact
  case h_15 hq =>
    rw [ReadsOff, hact, hq]
    cases hn : s.nackFatal <;> simp [disableEvents, lifeAtEnd, statusAtEnd, rowsAtEnd, hn]
  all_goals
    rename_i hq
    exact readsOff_at hq hact

theorem begin_readsOff (s : State) : ReadsOff .beginFrame (beginEvents s.cfg) s := by
  have hact : actionOf .beginFrame s = beginAction s := rfl
  unfold beginAction at hact
  split at hact
  case h_9 => exact readsOff_beyond (show 7 < s.seq by grind) hact
  all_goals
    rename_i hq
    exact readsOff_at hq hact

theorem end_readsOff (s : State) : ReadsOff .endFrame endEvents s := by
  have hact : actionOf .endFrame s = endAction s := rfl
  unfold endAction at hact
  split at hact
  case h_4 => exact readsOff_beyond (show 2 < s.seq by grind) hact
  all_goals
    rename_i hq
    exact readsOff_at hq hact

theorem eventAction_of_ofRow {c : Config} {i : Instr} {n : Nat} {e : Event} (he : e.OfRow c)
    (hi : isPower i = false) : eventAction i n e = .emit e := by
  obtain ⟨_, rfl⟩ | rfl | ⟨_, _, rfl, _⟩ := he <;> simp [eventAction, hi]

theorem transfer_readsOff (erase : Bool) (buf : Memory) (s : State) :
    ReadsOff (.transfer erase buf) (rowEvents s.cfg buf erase) s := by
  have hi : isPower (.transfer erase buf) = false := by cases erase <;> rfl
  rw [ReadsOff, actionOf_transfer, rowAction_eq, rowEvents_length]
  cases he : (rowEvents s.cfg buf erase)[s.seq]? with
  | some e => simp [eventAction_of_ofRow (rowEvents_ofRow (List.mem_of_getElem? he)) hi]
  | none => cases erase <;> rfl

theorem actionOf_readsOff {i : Instr} {s : State} (h : ¬ s.aborting i) (x y z : Ack) :
    ReadsOff i (microEvents s.cfg x y z i) s := by
  cases i with
  | enable => exact enable_readsOff h x y z
  | beginFrame => exact begin_readsOff s
  | xfer buf => exact transfer_readsOff false buf s
  | xferE buf => exact transfer_readsOff true buf s
  | endFrame => exact end_readsOff s
  | disable => exact disable_readsOff s x y z

/-- R148: after a NACK, ENABLE lowers WAKEUP at the next seq, an odd one, and responds at the one after. -/
theorem actionOf_aborting {i : Instr} {s : State} (h : s.aborting i) : actionOf i s = .ok
    (if s.seq % 2 = 1 then .emit (.set .wakeup false) else .finish .faulted s.rows .busTransactionFailure) := by
  obtain ⟨rfl, hn, hlo, hhi⟩ := h
  have hq : s.seq = 3 ∨ s.seq = 4 ∨ s.seq = 5 ∨ s.seq = 6 ∨ s.seq = 7 ∨ s.seq = 8 := by omega
  rcases hq with hq | hq | hq | hq | hq | hq <;> simp [actionOf, enableAction, hn, hq]

/-- Everything a micro-program step can be: a step of the abort path, an event of the command, or its end. -/
theorem actionOf_ok {i : Instr} {s : State} {a : Action} (h : actionOf i s = .ok a) (x y z : Ack) :
    (s.aborting i ∧ s.seq % 2 = 1 ∧ a = .emit (.set .wakeup false)) ∨
    (s.aborting i ∧ s.seq % 2 = 0 ∧ a = .finish .faulted s.rows .busTransactionFailure) ∨
    (¬ s.aborting i ∧ ∃ e, (microEvents s.cfg x y z i)[s.seq]? = some e ∧ a = eventAction i s.seq e) ∨
    (s.seq = lastSeq s.cfg.groups i ∧ a = .finish (lifeAtEnd i s) (rowsAtEnd i s) (statusAtEnd i s)) := by
  by_cases hab : s.aborting i
  · rw [actionOf_aborting hab] at h
    split at h <;> cases h
    · exact .inl ⟨hab, ‹_›, rfl⟩
    · exact .inr (.inl ⟨hab, by omega, rfl⟩)
  · rw [actionOf_readsOff hab x y z] at h
    cases he : (microEvents s.cfg x y z i)[s.seq]? with
    | some e =>
      rw [he] at h
      cases h
      exact .inr (.inr (.inl ⟨hab, e, rfl, rfl⟩))
    | none =>
      rw [he, Option.elim_none, microEvents_length] at h
      split at h <;> cases h
      exact .inr (.inr (.inr ⟨‹_›, rfl⟩))

/-! ## The two-wire writes -/

/-- The writes of a command: their seq, value and acknowledge bit (R147, R150). -/
def writesOf (x y z : Ack) : Instr → List (Nat × Byte × Ack)
  | .enable => [(2, vEnVdd, x), (4, vEnAux, y), (6, vEnVcom, z)]
  | .disable => [(8, vDisVcom, x), (10, vDisAux, y), (12, vDisAll, z)]
  | .beginFrame => []
  | .xfer _ => []
  | .xferE _ => []
  | .endFrame => []

theorem rowEvents_ne_tw {c : Config} {buf : Memory} {erase : Bool} {n : Nat} {r v : Byte} {k : Ack} :
    (rowEvents c buf erase)[n]? ≠ some (.tw r v k) := fun h => by
  simpa [Event.OfRow] using rowEvents_ofRow (List.mem_of_getElem? h)

theorem microEvents_tw {c : Config} {x y z : Ack} {i : Instr} {n : Nat} {r v : Byte} {k : Ack}
    (h : (microEvents c x y z i)[n]? = some (.tw r v k)) : r = twReg ∧ (n, v, k) ∈ writesOf x y z i := by
  cases i with
  | xfer buf | xferE buf => exact (rowEvents_ne_tw h).elim
  | beginFrame => simpa [microEvents, beginEvents] using List.mem_of_getElem? h
  | endFrame => simpa [microEvents, endEvents] using List.mem_of_getElem? h
  | enable | disable =>
    have hn := (List.getElem?_eq_some_iff.mp h).1
    rw [microEvents_length] at hn
    simp only [lastSeq] at hn
    interval_cases n <;> cases h <;> simp [writesOf] <;> exact ⟨rfl, rfl⟩

/-- Only ENABLE and DISABLE write, each at three steps. -/
theorem seq_of_mem_writesOf {x y z : Ack} {i : Instr} {n : Nat} {v : Byte} {k : Ack}
    (h : (n, v, k) ∈ writesOf x y z i) :
    i = .enable ∧ (n = 2 ∨ n = 4 ∨ n = 6) ∨ i = .disable ∧ (n = 8 ∨ n = 10 ∨ n = 12) := by
  cases i with
  | xfer buf | xferE buf | beginFrame | endFrame => simp [writesOf] at h
  | enable | disable =>
    simp only [writesOf, List.mem_cons, Prod.mk.injEq, List.not_mem_nil, or_false] at h
    simp
    omega

theorem isPower_of_mem_writesOf {x y z : Ack} {i : Instr} {n : Nat} {v : Byte} {k : Ack}
    (h : (n, v, k) ∈ writesOf x y z i) : isPower i = true := by
  rcases seq_of_mem_writesOf h with ⟨rfl, _⟩ | ⟨rfl, _⟩ <;> rfl

theorem ne_zero_of_mem_writesOf {x y z : Ack} {i : Instr} {n : Nat} {v : Byte} {k : Ack}
    (h : (n, v, k) ∈ writesOf x y z i) : n ≠ 0 := by
  have := seq_of_mem_writesOf h
  omega

theorem ack_of_mem_writesOf {x : Ack} {i : Instr} {n : Nat} {v : Byte} {k : Ack}
    (h : (n, v, k) ∈ writesOf x x x i) : k = x := by
  cases i with
  | xfer buf | xferE buf | beginFrame | endFrame => simp [writesOf] at h
  | enable | disable =>
    simp only [writesOf, List.mem_cons, Prod.mk.injEq, List.not_mem_nil, or_false] at h
    rcases h with ⟨_, _, rfl⟩ | ⟨_, _, rfl⟩ | ⟨_, _, rfl⟩ <;> rfl

theorem eventAction_eq_write {i : Instr} {n : Nat} {e : Event} {v : Byte} (h : eventAction i n e = .write v) :
    ∃ r k, e = .tw r v k := by
  unfold eventAction at h
  split at h
  · cases h
    exact ⟨_, _, rfl⟩
  · split at h <;> cases h

/-! ## The steps of a command -/

/-- `s` after the step that made event `e` of command `i`; ENABLE and DISABLE also write `life` and `nack`. -/
def State.afterStep (i : Instr) (e : Event) (s : State) : State :=
  if isPower i then s.afterPower (midLife i) e else s.afterEvent e

/-- `s` after the step that ended command `i`, off ENABLE's abort path. -/
def State.completed (i : Instr) (s : State) : State :=
  { s.answered (statusAtEnd i s) with life := lifeAtEnd i s, rows := rowsAtEnd i s }

/-- The master reports a write done with the acknowledge bit of its event (R146). -/
def State.reports (s : State) (e : Event) : Prop := ∀ r v k, e = .tw r v k → s.twReport = some k

theorem Event.isWrite_iff {e : Event} : e.isWrite = true ↔ ∃ r v k, e = .tw r v k := by
  cases e <;> simp [Event.isWrite]

theorem Event.isNack_of_not_write {e : Event} (h : e.isWrite = false) : e.isNack = false := by
  cases e with
  | tw => cases h
  | cfg | cfgData | set | data | wait | rsp => rfl

theorem eventAction_of_not_write {i : Instr} {n : Nat} {e : Event} (h : e.isWrite = false) :
    eventAction i n e = if isPower i && n == 0 then .enter (midLife i) e else .emit e := by
  cases e with
  | tw => cases h
  | cfg | cfgData | set | data | wait | rsp => rfl

/-- R40, R147, R150: the first step of ENABLE and DISABLE is an `enter`. -/
theorem State.afterPower_first {s : State} {l : Life} {e : Event} (h0 : s.seq = 0) (hw : e.isWrite = false) :
    s.afterPower l e = ((s.enter l).emit e).advance := by
  simp [State.afterPower, h0, hw]
  rfl

theorem State.afterPower_later {s : State} {l : Life} {e : Event} (h0 : s.seq ≠ 0) (hw : e.isWrite = false) :
    s.afterPower l e = (s.emit e).advance := by
  simp [State.afterPower, h0, hw, Event.isNack_of_not_write hw]
  rfl

theorem State.afterPower_write {s : State} {l : Life} {r v : Byte} {k : Ack} (h0 : s.seq ≠ 0) :
    s.afterPower l (.tw r v k) = ((s.poll.noteAck k).emit (.tw r v k)).advance := by
  simp [State.afterPower, h0, Event.isWrite, Event.isNack]
  rfl

theorem perform_eventAction {c : Config} {x y z : Ack} {i : Instr} {s : State} {e : Event}
    (he : (microEvents c x y z i)[s.seq]? = some e) (hrep : s.reports e) :
    perform (eventAction i s.seq e) s = .next (s.afterStep i e) := by
  unfold State.afterStep
  cases hw : e.isWrite with
  | true =>
    obtain ⟨r, v, k, rfl⟩ := Event.isWrite_iff.mp hw
    obtain ⟨rfl, hmem⟩ := microEvents_tw he
    rw [eventAction, perform_write_done (hrep _ _ _ rfl), if_pos (isPower_of_mem_writesOf hmem),
      State.afterPower_write (ne_zero_of_mem_writesOf hmem)]
  | false =>
    rw [eventAction_of_not_write hw]
    cases hi : isPower i with
    | false => rfl
    | true =>
      by_cases h0 : s.seq = 0
      · rw [State.afterPower_first h0 hw, h0]
        rfl
      · rw [State.afterPower_later h0 hw, beq_false_of_ne h0]
        rfl

theorem exec_event {x y z : Ack} {i : Instr} {s : State} {e : Event} (hq : refusalOf i s = none)
    (hab : ¬ s.aborting i) (he : (microEvents s.cfg x y z i)[s.seq]? = some e) (hrep : s.reports e) :
    exec i s = .next (s.afterStep i e) := by
  have ha := actionOf_readsOff hab x y z
  rw [ReadsOff, he] at ha
  rw [exec_of_action hq ha, perform_eventAction he hrep]

theorem exec_waiting {x y z : Ack} {i : Instr} {s : State} {r v : Byte} {k : Ack} (hab : ¬ s.aborting i)
    (he : (microEvents s.cfg x y z i)[s.seq]? = some (.tw r v k)) (hn : s.twReport = none) :
    exec i s = .next s.poll := by
  have h0 : s.seq ≠ 0 := ne_zero_of_mem_writesOf (microEvents_tw he).2
  have ha := actionOf_readsOff hab x y z
  rw [ReadsOff, he] at ha
  rw [exec_of_action (refusalOf_later h0) ha]
  exact perform_write_waiting hn

theorem State.seq_ne_zero_of_last {s : State} {i : Instr} (h : s.seq = lastSeq s.cfg.groups i) : s.seq ≠ 0 :=
  h ▸ (lastSeq_pos _ i).ne'

theorem exec_last {i : Instr} {s : State} (h : s.seq = lastSeq s.cfg.groups i) :
    exec i s = .next (s.completed i) := by
  have hab : ¬ s.aborting i := by
    rintro ⟨rfl, _, _, hhi⟩
    simp only [lastSeq] at h
    omega
  have ha := actionOf_readsOff hab .ack .ack .ack
  rw [ReadsOff, List.getElem?_eq_none (by simp [h]), Option.elim_none, if_pos (by simp [h])] at ha
  rw [exec_of_action (refusalOf_later (State.seq_ne_zero_of_last h)) ha]
  rfl

theorem State.aborting.seq_ne_zero {i : Instr} {s : State} (h : s.aborting i) : s.seq ≠ 0 := by
  obtain ⟨_, _, hlo, _⟩ := h
  omega

/-- R148: the abort path lowers WAKEUP and then responds. -/
theorem exec_aborting {i : Instr} {s : State} (h : s.aborting i) : exec i s = .next
    (if s.seq % 2 = 1 then s.afterEvent (.set .wakeup false)
      else { s.answered .busTransactionFailure with life := .faulted }) := by
  rw [exec_of_action (refusalOf_later h.seq_ne_zero) (actionOf_aborting h)]
  split <;> rfl

/-- Everything a step of a command can do: the guard's refusal, an event of its micro-program, a poll of a write that is
not done, the two steps of the abort path, the end. -/
theorem exec_cases {i : Instr} {s t : State} (h : exec i s = .next t) :
    (∃ st, refusalOf i s = some st ∧ t = s.respond st) ∨
    (∃ k e, refusalOf i s = none ∧ ¬ s.aborting i ∧ (microEvents s.cfg k k k i)[s.seq]? = some e ∧ s.reports e ∧
      t = s.afterStep i e) ∨
    (∃ k r v, (microEvents s.cfg k k k i)[s.seq]? = some (.tw r v k) ∧ t = s.poll) ∨
    (s.aborting i ∧ s.seq % 2 = 1 ∧ t = s.afterEvent (.set .wakeup false)) ∨
    (s.aborting i ∧ s.seq % 2 = 0 ∧ t = { s.answered .busTransactionFailure with life := .faulted }) ∨
    (s.seq = lastSeq s.cfg.groups i ∧ t = s.completed i) := by
  rcases exec_next h with ⟨st, hq, ht⟩ | ⟨a, hq, ha, _⟩
  · exact .inl ⟨st, hq, ht⟩
  · rcases actionOf_ok ha (s.twReport.getD .ack) (s.twReport.getD .ack) (s.twReport.getD .ack) with
      ⟨hab, hn, _⟩ | ⟨hab, hn, _⟩ | ⟨hab, e, he, _⟩ | ⟨hl, _⟩
    · rw [exec_aborting hab, if_pos hn] at h
      cases h
      exact .inr (.inr (.inr (.inl ⟨hab, hn, rfl⟩)))
    · rw [exec_aborting hab, if_neg (by omega)] at h
      cases h
      exact .inr (.inr (.inr (.inr (.inl ⟨hab, hn, rfl⟩))))
    · by_cases hrep : s.reports e
      · rw [exec_event hq hab he hrep] at h
        cases h
        exact .inr (.inl ⟨_, e, hq, hab, he, hrep, rfl⟩)
      · simp only [State.reports, not_forall] at hrep
        obtain ⟨r, v, k, rfl, hk⟩ := hrep
        obtain rfl : k = s.twReport.getD .ack := ack_of_mem_writesOf (microEvents_tw he).2
        have hnone : s.twReport = none := by
          cases hr : s.twReport with
          | none => rfl
          | some a => simp [hr] at hk
        rw [exec_waiting hab he hnone] at h
        cases h
        exact .inr (.inr (.inl ⟨_, r, v, he, rfl⟩))
    · rw [exec_last hl] at h
      cases h
      exact .inr (.inr (.inr (.inr (.inr ⟨hl, rfl⟩))))

/-! ## The steps of ENABLE and DISABLE -/

/-- The events of `writesOf` are where it says. -/
theorem microEvents_of_mem_writesOf {c : Config} {x y z : Ack} {i : Instr} {n : Nat} {v : Byte} {k : Ack}
    (h : (n, v, k) ∈ writesOf x y z i) : (microEvents c x y z i)[n]? = some (.tw twReg v k) := by
  cases i with
  | xfer buf | xferE buf | beginFrame | endFrame => simp [writesOf] at h
  | enable | disable =>
    simp only [writesOf, List.mem_cons, Prod.mk.injEq, List.not_mem_nil, or_false] at h
    rcases h with ⟨rfl, rfl, rfl⟩ | ⟨rfl, rfl, rfl⟩ | ⟨rfl, rfl, rfl⟩ <;> rfl

/-- The guard's premise for ENABLE and DISABLE, needed at their first step only (R170, R171). -/
theorem refusalOf_power_none {i : Instr} {s : State} (hi : isPower i = true) (h : s.seq = 0 → s.life = neededLife i) :
    refusalOf i s = none := by
  by_cases h0 : s.seq = 0
  · refine refusalOf_first (h h0) fun _ => ?_
    cases i with
    | enable | disable => rfl
    | beginFrame | xfer | xferE | endFrame => cases hi
  · exact refusalOf_later h0

theorem State.nackFatal_iff {s : State} : s.nackFatal = true ↔ s.nack = true ∧ s.cfg.nackPolicy = .fault := by
  simp [State.nackFatal]

theorem State.reports_of_writes {c : Config} {x y z : Ack} {i : Instr} {s : State} {e : Event}
    (he : (microEvents c x y z i)[s.seq]? = some e)
    (h : ∀ v k, (s.seq, v, k) ∈ writesOf x y z i → s.twReport = some k) : s.reports e := by
  rintro r v k rfl
  exact h v k (microEvents_tw he).2

/-- Settles O17: off the abort path ENABLE steps by its event list, and then ends. -/
theorem enableSteps : Obligations.EnableSteps := by
  refine ⟨fun s a b c e he hl ha hb hc hn => ?_, fun s hq => exec_last hq⟩
  refine exec_event (x := a) (y := b) (z := c) (refusalOf_power_none rfl hl) ?_ he
    (State.reports_of_writes (c := s.cfg) (i := .enable) he ?_)
  · rintro ⟨_, hfatal, hlo, hhi⟩
    obtain ⟨hnack, hpolicy⟩ := State.nackFatal_iff.mp hfatal
    simp [hn hlo hhi hnack] at hpolicy
  · intro v k hmem
    simp only [writesOf, List.mem_cons, Prod.mk.injEq, List.not_mem_nil, or_false] at hmem
    rcases hmem with ⟨hq, _, rfl⟩ | ⟨hq, _, rfl⟩ | ⟨hq, _, rfl⟩
    exacts [ha hq, hb hq, hc hq]

/-- R151: a NACK shows at the end of DISABLE. -/
theorem State.completed_disable_fails {s : State} (h : s.nackFatal = true) :
    s.completed .disable = { s.answered .busTransactionFailure with life := .faulted } := by
  simp [State.completed, statusAtEnd, lifeAtEnd, rowsAtEnd, State.answered, h]

theorem State.completed_disable_ok {s : State} (h : s.nackFatal = false) :
    s.completed .disable = { s.answered .ok with life := .unpowered } := by
  simp [State.completed, statusAtEnd, lifeAtEnd, rowsAtEnd, State.answered, h]

/-- Settles O20: DISABLE steps by its event list whatever the acknowledge bits, and then ends by what `nack` says. -/
theorem disableSteps : Obligations.DisableSteps := by
  refine ⟨fun s a b c e he hl ha hb hc => ?_, fun s hq hn hp => ?_, fun s hq hn => ?_⟩
  · refine exec_event (x := a) (y := b) (z := c) (refusalOf_power_none rfl hl) (fun hab => by cases hab.1) he
      (State.reports_of_writes (c := s.cfg) (i := .disable) he fun v k hmem => ?_)
    simp only [writesOf, List.mem_cons, Prod.mk.injEq, List.not_mem_nil, or_false] at hmem
    rcases hmem with ⟨hq, _, rfl⟩ | ⟨hq, _, rfl⟩ | ⟨hq, _, rfl⟩
    exacts [ha hq, hb hq, hc hq]
  · have hf : s.nackFatal = true := State.nackFatal_iff.mpr ⟨hn, hp⟩
    rw [exec_last hq, State.completed_disable_fails hf]
  · have hf : s.nackFatal = false := by rcases hn with hn | hn <;> simp [State.nackFatal, hn]
    rw [exec_last hq, State.completed_disable_ok hf]

theorem State.aborting.afterEvent {i : Instr} {s : State} {e : Event} (h : s.aborting i) (hn : s.seq % 2 = 1) :
    (s.afterEvent e).aborting i := by
  obtain ⟨hi, hf, hlo, hhi⟩ := h
  exact ⟨hi, hf, by simp [State.afterEvent]; omega, by simp [State.afterEvent]; omega⟩

theorem State.aborting.nack {i : Instr} {s : State} (h : s.aborting i) : s.nack = true := by
  obtain ⟨_, hf, _, _⟩ := h
  exact (State.nackFatal_iff.mp hf).1

/-- Settles O18: the write that is not acknowledged, then the two steps of the abort path. -/
theorem enableAborts : Obligations.EnableAborts := by
  intro s v hv hp hn hr
  have hmem : (s.seq, v, .nack) ∈ writesOf .nack .nack .nack .enable := by
    simpa [writesOf, vEnVdd, vEnAux, vEnVcom] using hv
  have hq : s.seq = 2 ∨ s.seq = 4 ∨ s.seq = 6 := by
    simp only [List.mem_cons, Prod.mk.injEq, List.not_mem_nil, or_false] at hv
    omega
  have h0 : s.seq ≠ 0 := by omega
  have hab : ¬ s.aborting .enable := fun h => by simp [h.nack] at hn
  have h1 := exec_event (refusalOf_later h0) hab (microEvents_of_mem_writesOf hmem) (by rintro _ _ _ ⟨⟩; exact hr)
  have hodd : (s.afterStep .enable (.tw twReg v .nack)).seq % 2 = 1 := by
    simp [State.afterStep, isPower]; omega
  have hab1 : (s.afterStep .enable (.tw twReg v .nack)).aborting .enable := by
    refine ⟨rfl, State.nackFatal_iff.mpr ⟨?_, hp⟩, ?_⟩
    · simp [State.afterStep, isPower, h0, Event.isNack]
    · simp [State.afterStep, isPower]; omega
  have h2 := exec_aborting hab1
  have h3 := exec_aborting (hab1.afterEvent (e := .set .wakeup false) hodd)
  rw [if_pos hodd] at h2
  rw [if_neg (by simp [State.afterEvent]; omega)] at h3
  exact ⟨_, _, _, h1, h2, h3, rfl, hab1.nack, rfl, rfl, rfl, rfl, rfl, hab1.nack, rfl, rfl⟩

/-- Settles O22: each is a poll of one of the command's writes, off the abort path. -/
theorem unfinishedWriteWaits : Obligations.UnfinishedWriteWaits := by
  refine ⟨fun s hq hn => ?_, fun s hq hn => ?_⟩
  · obtain ⟨v, hv⟩ : ∃ v, (s.seq, v, .ack) ∈ writesOf .ack .ack .ack .enable := by
      rcases hq with hq | ⟨hq | hq, _⟩ <;> simp [writesOf, hq]
    refine exec_waiting ?_ (microEvents_of_mem_writesOf hv) hn
    rintro ⟨_, hf, hlo, _⟩
    obtain ⟨hnack, hpolicy⟩ := State.nackFatal_iff.mp hf
    have := hq.resolve_left (by omega)
    simp [hnack, hpolicy] at this
  · obtain ⟨v, hv⟩ : ∃ v, (s.seq, v, .ack) ∈ writesOf .ack .ack .ack .disable := by
      rcases hq with hq | hq | hq <;> simp [writesOf, hq]
    exact exec_waiting (fun hab => by cases hab.1) (microEvents_of_mem_writesOf hv) hn

/-! ## What ENABLE and DISABLE write and what they leave -/

/-- The register and the values of the writes (R93). -/
theorem value_of_mem_writesOf {x y z : Ack} {i : Instr} {n : Nat} {v : Byte} {k : Ack}
    (h : (n, v, k) ∈ writesOf x y z i) : v ∈ [0x20#8, 0xA0#8, 0x3F#8, 0x2F#8, 0x60#8, 0x00#8] := by
  cases i with
  | xfer buf | xferE buf | beginFrame | endFrame => simp [writesOf] at h
  | enable | disable =>
    simp only [writesOf, List.mem_cons, Prod.mk.injEq, List.not_mem_nil, or_false] at h
    rcases h with ⟨_, rfl, _⟩ | ⟨_, rfl, _⟩ | ⟨_, rfl, _⟩ <;> decide

/-- A write the block is at is one of its command's. -/
theorem State.writeRequest_mem {s : State} {r v : Byte} (h : s.writeRequest = some (r, v)) :
    r = twReg ∧ ∃ i k, s.fetch = .ok i ∧ (s.seq, v, k) ∈ writesOf k k k i := by
  obtain ⟨hp, rfl⟩ := State.writeRequest_some.mp h
  obtain ⟨_, _, i, hf, _, ha⟩ := State.pending_some.mp hp
  rcases actionOf_ok ha .ack .ack .ack with ⟨_, _, hn⟩ | ⟨_, _, hn⟩ | ⟨_, e, he, hw⟩ | ⟨_, hn⟩
  case inr.inr.inl =>
    obtain ⟨r, k, rfl⟩ := eventAction_eq_write hw.symm
    obtain ⟨_, hmem⟩ := microEvents_tw he
    obtain rfl : k = .ack := ack_of_mem_writesOf hmem
    exact ⟨rfl, i, _, hf, hmem⟩
  all_goals cases hn

/-- Settles O24: an event that makes a transaction is a write the block was at. -/
theorem twoWireWritesOnly : Obligations.TwoWireWritesOnly := by
  intro s t e w h htr hw
  cases e with
  | tw r v a =>
    cases hw
    obtain ⟨rfl, _, _, _, hmem⟩ := State.writeRequest_mem (step_tw h htr).1
    exact ⟨rfl, v, rfl, value_of_mem_writesOf hmem⟩
  | cfg | cfgData | set | data | wait | rsp => cases hw

/-- The events that ENABLE and DISABLE are made of (R147, R148, R150). -/
inductive Event.OfPower : Event → Prop
  | cfg (p : Line) (d : Drive Bool) : Event.OfPower (.cfg p d)
  | cfgData (d : Drive Byte) : Event.OfPower (.cfgData d)
  | wait (d : Rat) : Event.OfPower (.wait d)
  | write (v : Byte) (k : Ack) : Event.OfPower (.tw twReg v k)
  | lower : Event.OfPower (.set .wakeup false)

theorem microEvents_ofPower {c : Config} {x y z : Ack} {i : Instr} (hi : isPower i = true) :
    ∀ e ∈ microEvents c x y z i, e.OfPower := by
  cases i with
  | enable | disable =>
    simp only [microEvents, enableEvents, disableEvents, List.forall_mem_cons]
    repeat' constructor
    all_goals simp
  | beginFrame | xfer | xferE | endFrame => cases hi

/-- A line changes by its own CFG, or as WAKEUP does at the end (R147, R148, R150). -/
theorem Event.OfPower.onLines_get {e : Event} (he : e.OfPower) (l : Lines) (p : Line) :
    (e.onLines l).get p = l.get p ∨ (∃ d, e = .cfg p d) ∨ (p = .wakeup ∧ e = .set p false) := by
  cases he with
  | cfg q d =>
    by_cases hp : p = q
    · exact .inr (.inl ⟨d, hp ▸ rfl⟩)
    · cases d <;> exact .inl (Lines.get_set_of_ne l _ hp)
  | lower =>
    by_cases hp : p = .wakeup
    · exact .inr (.inr ⟨hp, hp ▸ rfl⟩)
    · exact .inl (Lines.get_set_of_ne l _ hp)
  | cfgData | wait | write => exact .inl rfl

theorem Event.OfPower.onBus {e : Event} (he : e.OfPower) (b : Bus) : e.onBus b = b ∨ ∃ d, e = .cfgData d := by
  cases he with
  | cfgData d => exact .inr ⟨d, rfl⟩
  | cfg | wait | write | lower => exact .inl rfl

theorem Event.OfPower.isNack {e : Event} (he : e.OfPower) : e.isNack = false ∨ ∃ v, e = .tw twReg v .nack := by
  cases he with
  | write v k =>
    cases k with
    | ack => exact .inl rfl
    | nack => exact .inr ⟨v, rfl⟩
  | cfg | cfgData | wait | lower => exact .inl rfl

theorem rowsAtEnd_power {i : Instr} (s : State) (hi : isPower i = true) : rowsAtEnd i s = s.rows := by
  cases i with
  | enable | disable => rfl
  | beginFrame | xfer | xferE | endFrame => cases hi

/-- Settles O25, by what a step of a command can do. -/
theorem powerFrame : Obligations.PowerFrame := by
  intro i s t hi h
  have hpow : isPower i = true := by rcases hi with rfl | rfl <;> rfl
  rcases exec_cases h with
    ⟨st, _, rfl⟩ | ⟨k, e, _, _, he, _, rfl⟩ | ⟨k, r, v, he, rfl⟩ | ⟨_, _, rfl⟩ | ⟨_, _, rfl⟩ | ⟨_, rfl⟩
  · simp
  · have hev := microEvents_ofPower hpow e (List.mem_of_getElem? he)
    rw [State.afterStep, if_pos hpow]
    refine ⟨rfl, rfl, rfl, rfl, rfl, fun _ => rfl, .inl ⟨rfl, rfl⟩, ?_, ?_, ?_, fun p => ?_, ?_⟩
    · by_cases h0 : s.seq = 0 <;> simp [h0]
    · by_cases h0 : s.seq = 0
      · exact .inr (.inl h0)
      · rcases hev.isNack with hn | ⟨v, rfl⟩
        · simp [h0, hn]
        · exact .inr (.inr ⟨v, rfl⟩)
    · by_cases hw : e.isWrite = true
      · obtain ⟨_, _, _, rfl⟩ := Event.isWrite_iff.mp hw
        exact .inr (seq_of_mem_writesOf (microEvents_tw he).2)
      · simp [hw]
    · exact (hev.onLines_get s.lines p).imp_right
        (Or.imp (fun ⟨d, hd⟩ => ⟨d, hd ▸ rfl⟩) fun ⟨hp, hd⟩ => ⟨hp, hd ▸ rfl⟩)
    · exact (hev.onBus s.bus).imp_right fun ⟨d, hd⟩ => ⟨d, hd ▸ rfl⟩
  · have hseq := seq_of_mem_writesOf (microEvents_tw he).2
    simp [hseq]
  · refine ⟨rfl, rfl, rfl, rfl, rfl, fun _ => rfl, .inl ⟨rfl, rfl⟩, .inl rfl, .inl rfl, .inl ⟨rfl, rfl⟩, fun p => ?_,
      .inl rfl⟩
    exact (Event.OfPower.lower.onLines_get s.lines p).imp_right
      (Or.imp (fun ⟨d, hd⟩ => ⟨d, hd ▸ rfl⟩) fun ⟨hp, hd⟩ => ⟨hp, hd ▸ rfl⟩)
  · simp [State.answered]
  · simp [State.completed, State.answered, rowsAtEnd_power s hpow]

/-! ## Whole commands -/

/-- The state after the steps that make the events `es`, from inside a command. -/
theorem powerEnd_eq (l : Life) (es : List Event) (s : State) (h0 : s.seq ≠ 0) : powerEnd l s es = { s with
    rstIn := s.rstIn.drop es.length, seq := s.seq + es.length, trace := s.trace ++ es,
    lines := es.foldl (fun l e => e.onLines l) s.lines, bus := es.foldl (fun b e => e.onBus b) s.bus,
    nack := s.nack || es.any Event.isNack,
    twIn := s.twIn.drop (es.countP Event.isWrite), draws := s.draws + es.countP Event.isWrite } := by
  induction es generalizing s with
  | nil => simp [powerEnd]
  | cons e es ih =>
    rw [powerEnd, ih _ (by simp)]
    cases hw : e.isWrite <;>
      simp [State.afterPower, State.afterEvent, h0, hw, State.clock, Nat.add_assoc, Nat.add_comm 1, Bool.or_assoc]

/-- The reports of the two-wire master with which an event is made: one, done with its acknowledge bit, for a write. -/
def Event.reported : Event → List (Option Ack)
  | .tw _ _ k => [some k]
  | .cfg _ _ => []
  | .cfgData _ => []
  | .set _ _ => []
  | .data _ => []
  | .wait _ => []
  | .rsp _ => []

theorem State.twIn_afterPower {s : State} {l : Life} {e : Event} {rest : List (Option Ack)}
    (h : s.twIn = e.reported ++ rest) : (s.afterPower l e).twIn = rest := by
  cases e <;> simp_all [Event.reported, Event.isWrite]

/-- No NACK among the events makes ENABLE abort. -/
def State.neverAborts (s : State) (es : List Event) : Prop :=
  s.cfg.nackPolicy = .ignore ∨ ((s.seq ≠ 0 → s.nack = false) ∧ ∀ e ∈ es, e.isNack = false)

theorem State.neverAborts.not_aborting {s : State} {es : List Event} (h : s.neverAborts es) :
    ¬ s.aborting .enable := by
  rintro ⟨_, hf, hlo, _⟩
  obtain ⟨hnack, hpolicy⟩ := State.nackFatal_iff.mp hf
  rcases h with h | ⟨h, _⟩
  · simp [h] at hpolicy
  · simp [h (by omega)] at hnack

theorem State.neverAborts.afterPower {s : State} {l : Life} {e : Event} {es : List Event}
    (h : s.neverAborts (e :: es)) : (s.afterPower l e).neverAborts es := by
  refine h.imp id fun ⟨hn, he⟩ => ⟨fun _ => ?_, fun e' he' => he e' (List.mem_cons_of_mem e he')⟩
  rw [State.afterPower_nack]
  split
  · rfl
  · next h0 => simp [hn h0, he e]

/-- The rest of a command's events, made one after another when the master reports each write done. -/
theorem powerChain_drop {i : Instr} {c : Config} {x y z : Ack} {tw : List (Option Ack)} (hi : isPower i = true) :
    ∀ (es : List Event) (s : State), s.cfg = c → es = (microEvents c x y z i).drop s.seq →
      (s.seq = 0 → s.life = neededLife i) → s.twIn = es.flatMap Event.reported ++ tw →
      (i = .enable → s.neverAborts es) → PowerChain i (midLife i) s es := by
  intro es
  induction es with
  | nil => intros; trivial
  | cons e es ih =>
    rintro s rfl hes hl htw hna
    have he : (microEvents s.cfg x y z i)[s.seq]? = some e := by
      rw [← List.head?_drop, ← hes, List.head?_cons]
    have htail : es = (microEvents s.cfg x y z i).drop (s.seq + 1) := by
      rw [← List.tail_drop, ← hes, List.tail_cons]
    have hrep : s.clock.reports e := by
      rintro r v k rfl
      simp [State.twReport, htw, Event.reported]
    have hab : ¬ s.clock.aborting i := by
      rintro ⟨rfl, h⟩
      exact (hna rfl).not_aborting ⟨rfl, h⟩
    refine ⟨?_, ih _ rfl htail (fun h => absurd h (by simp)) ?_ fun hen => (hna hen).afterPower (s := s.clock)⟩
    · have hexec := exec_event (s := s.clock) (refusalOf_power_none hi hl) hab he hrep
      rwa [State.afterStep, if_pos hi] at hexec
    · exact State.twIn_afterPower (s := s.clock) (by simpa using htw)

/-- The state after the steps that make all events of ENABLE or DISABLE. -/
theorem powerEnd_microEvents {i : Instr} (c : Config) (x y z : Ack) {s : State} (hi : isPower i = true)
    (h0 : s.seq = 0) : powerEnd (midLife i) s (microEvents c x y z i) = { s with
      rstIn := s.rstIn.drop (lastSeq c.groups i), seq := lastSeq c.groups i, life := midLife i,
      trace := s.trace ++ microEvents c x y z i,
      lines := (microEvents c x y z i).foldl (fun l e => e.onLines l) s.lines,
      bus := (microEvents c x y z i).foldl (fun b e => e.onBus b) s.bus,
      nack := decide (x = .nack) || decide (y = .nack) || decide (z = .nack),
      twIn := s.twIn.drop 3, draws := s.draws + 3 } := by
  cases i with
  | enable | disable =>
    simp only [microEvents, enableEvents, disableEvents]
    rw [powerEnd, powerEnd_eq _ _ _ (by simp)]
    simp [State.afterPower, State.afterEvent, State.clock, h0, List.countP_cons, Event.isWrite,
      Event.isNack, lastSeq, midLife, Bool.or_assoc]
  | beginFrame | xfer | xferE | endFrame => cases hi

/-- `s` when ENABLE or DISABLE, offered as the next command, has made all its events. -/
def State.eventsMade (i : Instr) (x y z : Ack) (rest : List Command) (tw : List (Option Ack)) (s : State) : State :=
  { s with
    busy := true, cmd := i.command, host := rest, life := midLife i,
    rstIn := s.rstIn.drop (lastSeq s.cfg.groups i + 2), seq := lastSeq s.cfg.groups i,
    trace := s.trace ++ microEvents s.cfg x y z i,
    lines := (microEvents s.cfg x y z i).foldl (fun l e => e.onLines l) s.lines,
    bus := (microEvents s.cfg x y z i).foldl (fun b e => e.onBus b) s.bus,
    nack := decide (x = .nack) || decide (y = .nack) || decide (z = .nack),
    twIn := tw, draws := s.draws + 3 }

theorem reported_microEvents {i : Instr} (c : Config) (x y z : Ack) (hi : isPower i = true) :
    (microEvents c x y z i).flatMap Event.reported = [some x, some y, some z] := by
  cases i with
  | enable | disable => rfl
  | beginFrame | xfer | xferE | endFrame => cases hi

theorem isNack_microEvents_ack {c : Config} {i : Instr} {e : Event} (he : e ∈ microEvents c .ack .ack .ack i) :
    e.isNack = false := by
  obtain ⟨n, hn⟩ := List.mem_iff_getElem?.mp he
  cases e with
  | tw r v k =>
    obtain rfl : k = .ack := ack_of_mem_writesOf (microEvents_tw hn).2
    rfl
  | cfg | cfgData | set | data | wait | rsp => rfl

/-- A whole ENABLE or DISABLE from its offer on: acceptance, one step an event, the end. -/
theorem run_power {i : Instr} {s : State} {rest : List Command} {x y z : Ack} {tw : List (Option Ack)}
    (hi : isPower i = true) (ho : s.Offered i rest) (hl : s.life = neededLife i)
    (htw : s.twIn = some x :: some y :: some z :: tw)
    (hack : i = .enable → s.cfg.nackPolicy = .ignore ∨ (x = .ack ∧ y = .ack ∧ z = .ack)) :
    run (lastSeq s.cfg.groups i + 2) s = .next ((s.eventsMade i x y z rest tw).completed i) := by
  have hchain : PowerChain i (midLife i) (s.clock.accept i.command rest) (microEvents s.cfg x y z i) := by
    refine powerChain_drop (tw := tw) hi _ _ rfl rfl (fun _ => hl) ?_ fun hen => ?_
    · rw [reported_microEvents _ _ _ _ hi]
      exact htw
    · refine (hack hen).imp id ?_
      rintro ⟨rfl, rfl, rfl⟩
      exact ⟨fun h => absurd rfl h, fun e he => isNack_microEvents_ack he⟩
  have hend := powerEnd_microEvents s.cfg x y z (s := s.clock.accept i.command rest) hi rfl
  have hrun := run_powerCommand (fin := State.completed i) ho hchain (exec_last (by rw [hend]; rfl))
  rw [microEvents_length, hend] at hrun
  rw [hrun]
  simp [State.eventsMade, State.clock, State.accept, htw]

/-- Settles O19: the state that a whole ENABLE leaves, field by field. -/
theorem enableRuns : Obligations.EnableRuns := by
  intro s rest a b c tw ho hl htw hack
  exact ⟨_, run_power (i := .enable) rfl ho hl htw fun _ => hack, rfl, rfl, rfl, rfl, rfl, rfl, rfl, rfl, rfl, rfl, rfl⟩

/-- Settles O21: DISABLE makes all its events, and its end depends on the NACKs among them. -/
theorem disableRuns : Obligations.DisableRuns := by
  intro s rest a b c tw ho hl htw
  refine ⟨_, run_power (i := .disable) rfl ho hl htw (fun h => by cases h), rfl, ?_, rfl, rfl, fun p hp => ?_, rfl, rfl,
    rfl, rfl, rfl, rfl⟩
  · have hf : (s.eventsMade .disable a b c rest tw).nackFatal = true ↔
        (a = .nack ∨ b = .nack ∨ c = .nack) ∧ s.cfg.nackPolicy = .fault := by
      simp [State.nackFatal_iff, State.eventsMade, or_assoc]
    split
    · next hn => rw [State.completed_disable_fails (hf.mpr hn)]; exact ⟨rfl, rfl⟩
    · next hn => rw [State.completed_disable_ok (Bool.eq_false_iff.mpr (mt hf.mp hn))]; exact ⟨rfl, rfl⟩
  · cases p with
    | wakeup => exact absurd rfl hp
    | spv | ckv | mode | stl | oe | le | cl => rfl

/-- Settles O23: the two commands one after the other; the sums are over their events. -/
theorem enableThenDisable : Obligations.EnableThenDisable := by
  intro s rest tw ho hl htw
  have henable := run_power (i := .enable) rfl ho hl htw fun _ => .inr ⟨rfl, rfl, rfl⟩
  have hoffered : State.Offered (State.completed .enable (s.eventsMade .enable .ack .ack .ack
      (Instr.disable.command :: rest) (List.replicate 3 (some .ack) ++ tw))) .disable rest :=
    ⟨rfl, rfl, rfl, fun b hb => ho.quiet b (List.mem_of_mem_drop hb)⟩
  have hdisable := run_power (i := .disable) rfl hoffered rfl rfl (fun h => by cases h)
  refine ⟨_, (enableEvents .ack .ack .ack ++ [.rsp .ok]) ++ (disableEvents .ack .ack .ack ++ [.rsp .ok]),
    (run_add henable 16).trans hdisable, ?_, rfl, rfl, rfl, rfl, ?_, ?_⟩
  · change s.trace ++ enableEvents .ack .ack .ack ++ [.rsp .ok] ++ disableEvents .ack .ack .ack ++ [.rsp .ok] = _
    simp only [List.append_assoc]
  · change ([5000, 1000, 25000, 1000] : List Rat).sum = 32000
    norm_num
  · change ([1000, 25000] : List Rat).sum = 26000
    norm_num

/-! ## A write that is never done -/

/-- `s` after `k` polls of a write that is not done. -/
def State.polled (k : Nat) (s : State) : State :=
  { s with rstIn := s.rstIn.drop k, twIn := s.twIn.drop k, draws := s.draws + k }

theorem State.polled_succ (k : Nat) (s : State) : s.polled (k + 1) = (s.polled k).clock.poll := by
  simp [State.polled, State.clock, State.poll, Nat.add_assoc]

/-- The report at the poll after `k` others is the `k`-th of those to come. -/
theorem State.polled_twReport (k : Nat) (s : State) : (s.polled k).twReport = s.report k := by
  have hhead : s.twIn[k]? = (s.twIn.drop k).head? := List.head?_drop.symm
  rw [State.report, hhead, State.twReport]
  cases h : s.twIn.drop k <;> simp [State.polled, h]

theorem State.noReset_polled {s : State} (h : s.noReset) (k : Nat) : (s.polled k).noReset :=
  fun b hb => h b (List.mem_of_mem_drop hb)

/-- R146: polling does not withdraw the request. -/
theorem State.polled_writeRequest {s : State} (hq : s.noReset) (hw : s.writeRequest.isSome = true) (k : Nat) :
    (s.polled k).writeRequest.isSome = true := by
  induction k with
  | zero => exact hw
  | succ k ih =>
    obtain ⟨w, hw⟩ := Option.isSome_iff_exists.mp ih
    have hr : (s.polled k).clock.poll.rst = false := by
      rw [← State.polled_succ]
      exact State.noReset_rst (State.noReset_polled hq _)
    rw [State.polled_succ, State.writeRequest_poll hw hr]
    rfl

theorem State.unfinished_iff {s : State} :
    s.unfinished = true ↔ s.writeRequest.isSome = true ∧ s.twReport = none := by
  rw [State.unfinished, Bool.and_eq_true, Option.isNone_iff_eq_none]

/-- A block that requests a write is busy. -/
theorem State.busy_of_writeRequest {s : State} (h : s.writeRequest.isSome = true) : s.busy = true := by
  obtain ⟨⟨r, v⟩, hw⟩ := Option.isSome_iff_exists.mp h
  exact (State.pending_some.mp (State.writeRequest_some.mp hw).1).1

/-- R215: of the outcomes only an unfinished write is Stuck, and no response is. -/
theorem State.outcome_eq_stuck_iff {s : State} : s.outcome = some .stuck ↔ s.unfinished = true := by
  unfold State.outcome
  cases hb : s.busy with
  | true => cases s.unfinished <;> simp
  | false =>
    have hu : s.unfinished ≠ true := fun hu => by
      simp [State.busy_of_writeRequest (State.unfinished_iff.mp hu).1] at hb
    cases hs : s.status <;> simp [Status.outcome, hu]

/-- As long as the master reports the write not done, the block stays where it is. -/
theorem run_polled {s : State} (hq : s.noReset) (hw : s.writeRequest.isSome = true) (k : Nat)
    (h : ∀ j, j < k → s.report j = none) : run k s = .next (s.polled k) := by
  induction k with
  | zero => rfl
  | succ k ih =>
    have hu : (s.polled k).unfinished = true :=
      State.unfinished_iff.mpr ⟨State.polled_writeRequest hq hw k, (State.polled_twReport k s).trans (h k (by omega))⟩
    rw [run_add (ih fun j hj => h j (by omega)) 1, run_succ (step_unfinished hu), run_zero, State.polled_succ]

theorem State.polled_stuck {s : State} (hq : s.noReset) (hw : s.writeRequest.isSome = true) {k : Nat}
    (h : s.report k = none) : (s.polled k).outcome = some .stuck :=
  State.outcome_eq_stuck_iff.mpr <| State.unfinished_iff.mpr
    ⟨State.polled_writeRequest hq hw k, (State.polled_twReport k s).trans h⟩

/-- The block is stuck for good exactly when it is stuck after every number of steps: a first report of done would
end it. -/
theorem State.stuck_iff {s : State} (hq : s.noReset) :
    s.Stuck ↔ ∀ k, ∃ t, run k s = .next t ∧ t.outcome = some .stuck := by
  constructor
  · rintro ⟨hw, hn⟩ k
    exact ⟨_, run_polled hq hw k fun j _ => hn j, State.polled_stuck hq hw (hn k)⟩
  · intro h
    have hw : s.writeRequest.isSome = true := by
      obtain ⟨t, ht, hstuck⟩ := h 0
      cases ht
      exact (State.unfinished_iff.mp (State.outcome_eq_stuck_iff.mp hstuck)).1
    refine ⟨hw, fun k => ?_⟩
    induction k using Nat.strong_induction_on with
    | _ k ih =>
      obtain ⟨t, ht, hstuck⟩ := h k
      cases ht.symm.trans (run_polled hq hw k ih)
      rw [← State.polled_twReport]
      exact (State.unfinished_iff.mp (State.outcome_eq_stuck_iff.mp hstuck)).2

/-- Settles O59: the listed reports are not done, so the block is polled as often as they say. -/
theorem stuckWithoutCompletion : Obligations.StuckWithoutCompletion := by
  refine ⟨fun s n tw hq hw htw k hk => ?_, fun s hq => State.stuck_iff hq⟩
  have hreport : ∀ j, j < n → s.report j = none := fun j hj => by
    simp [State.report, htw, List.getElem?_append_left, hj]
  refine ⟨_, run_polled hq hw k fun j hj => hreport j (by omega), (State.busy_of_writeRequest hw : s.busy = true),
    fun hlt => State.polled_stuck hq hw (hreport k hlt), ?_⟩
  simp [State.polled, htw, List.drop_append_of_le_length, hk]

/-! ## What an event makes of the levels -/

/-- What a line drives after an event, from what it drove before (R91). -/
def Event.onDrive (e : Event) (p : Line) (d : Option Bool) : Option Bool :=
  match e with
  | .cfg q .input => if p = q then none else d
  | .cfg q (.out v) => if p = q then some v else d
  | .set q v => if p = q then d.map fun _ => v else d
  | .cfgData _ => d
  | .data _ => d
  | .wait _ => d
  | .tw _ _ _ => d
  | .rsp _ => d

theorem Event.onLines_drive (e : Event) (l : Lines) (p : Line) :
    ((e.onLines l).get p).drive = e.onDrive p (l.get p).drive := by
  cases e with
  | cfg q d =>
    cases d <;> simp only [Event.onLines_cfg_input, Event.onLines_cfg_out, Event.onDrive, Lines.get_set] <;>
      split <;> simp
  | set q v =>
    simp only [Event.onLines_set, Event.onDrive, Lines.get_set]
    split
    · next hp =>
      subst hp
      cases hd : (l.get p).dir <;> simp [Pad.drive, hd]
    · rfl
  | cfgData | data | wait | tw | rsp => rfl

/-- R147 event by event and line by line: each takes the levels to those of the next seq. -/
theorem enable_onDrive {x y z : Ack} {n : Nat} {e : Event} {f f' : Bool}
    (he : (enableEvents x y z)[n]? = some e) (hf : f = true → n = 0)
    (hf' : f' = true → n = 2 ∨ n = 4 ∨ n = 6) (p : Line) :
    e.onDrive p (enableDrive f n p) = enableDrive f' (n + 1) p := by
  have hn : n < 16 := (List.getElem?_eq_some_iff.mp he).1
  interval_cases n <;> cases he <;> cases p <;> simp_all [Event.onDrive, enableDrive, configSeq, idleLevel]

/-- R150 event by event and line by line. -/
theorem disable_onDrive {x y z : Ack} {n : Nat} {e : Event} (he : (disableEvents x y z)[n]? = some e) (p : Line) :
    e.onDrive p (disableDrive n p) = disableDrive (n + 1) p := by
  have hn : n < 14 := (List.getElem?_eq_some_iff.mp he).1
  interval_cases n <;> cases he <;> cases p <;> rfl

/-- R173 event by event and line by line. -/
theorem begin_onDrive {c : Config} {n : Nat} {e : Event} (he : (beginEvents c)[n]? = some e) (p : Line) :
    e.onDrive p (some (beginLevel n p)) = some (beginLevel (n + 1) p) := by
  have hn : n < 7 := (List.getElem?_eq_some_iff.mp he).1
  interval_cases n <;> cases he <;> cases p <;> rfl

/-- R175 event by event and line by line. -/
theorem end_onDrive {n : Nat} {e : Event} (he : endEvents[n]? = some e) (p : Line) :
    e.onDrive p (some (endLevel n p)) = some (endLevel (n + 1) p) := by
  have hn : n < 2 := (List.getElem?_eq_some_iff.mp he).1
  interval_cases n <;> cases he <;> cases p <;> rfl

/-- Which event of a row has number `n`: STL falls, the three events of a group, or one that closes the row (R121). -/
theorem rowEvents_getElem?_cases {c : Config} {buf : Memory} {erase : Bool} {n : Nat} {e : Event}
    (h : (rowEvents c buf erase)[n]? = some e) :
    (n = 0 ∧ e = .set .stl false) ∨
    (∃ k < c.groups, (n = 3 * k + 1 ∧ e = .data (rowByte c buf erase k)) ∨ (n = 3 * k + 2 ∧ e = .set .cl true) ∨
      (n = 3 * k + 3 ∧ e = .set .cl false)) ∨
    (∃ m < 8, n = 3 * c.groups + 1 + m ∧ (closingEvents c)[m]? = some e) := by
  cases n with
  | zero =>
    simp only [rowEvents, List.getElem?_cons_zero, Option.some.injEq] at h
    exact .inl ⟨rfl, h.symm⟩
  | succ n =>
    rw [rowEvents, List.getElem?_cons_succ] at h
    by_cases hn : n < 3 * c.groups
    · rw [List.getElem?_append_left (by rwa [shiftEvents_length])] at h
      obtain ⟨hdata, hup, hdown⟩ := shiftEvents_get c buf erase 0 c.groups (n / 3) (by omega)
      rw [Nat.zero_add] at hdata
      refine .inr (.inl ⟨n / 3, by omega, ?_⟩)
      have hm : n = 3 * (n / 3) ∨ n = 3 * (n / 3) + 1 ∨ n = 3 * (n / 3) + 2 := by omega
      rcases hm with hm | hm | hm
      · rw [← hm, h] at hdata
        exact .inl ⟨by omega, Option.some.inj hdata⟩
      · rw [← hm, h] at hup
        exact .inr (.inl ⟨by omega, Option.some.inj hup⟩)
      · rw [← hm, h] at hdown
        exact .inr (.inr ⟨by omega, Option.some.inj hdown⟩)
    · rw [List.getElem?_append_right (by rw [shiftEvents_length]; omega), shiftEvents_length] at h
      have hlt : n - 3 * c.groups < 8 := (List.getElem?_eq_some_iff.mp h).1
      exact .inr (.inr ⟨n - 3 * c.groups, hlt, by omega, h⟩)

/-- R121 event by event and line by line. -/
theorem row_onDrive {c : Config} {buf : Memory} {erase : Bool} {n : Nat} {e : Event}
    (he : (rowEvents c buf erase)[n]? = some e) (p : Line) :
    e.onDrive p (some (rowLevel c.groups n p)) = some (rowLevel c.groups (n + 1) p) := by
  rcases rowEvents_getElem?_cases he with ⟨rfl, rfl⟩ | ⟨k, hk, ⟨rfl, rfl⟩ | ⟨rfl, rfl⟩ | ⟨rfl, rfl⟩⟩ | ⟨m, hm, rfl, hc⟩
  · cases p <;> simp [Event.onDrive, rowLevel]
  · cases p <;> simp [Event.onDrive, rowLevel] <;> grind
  · cases p <;> simp [Event.onDrive, rowLevel] <;> grind
  · cases p <;> simp [Event.onDrive, rowLevel] <;> grind
  · interval_cases m <;> cases hc <;> cases p <;> simp [Event.onDrive, rowLevel] <;> grind

/-- The data lines' direction in the middle of a command: ENABLE's last event drives them, DISABLE's first releases
them, and no other event changes it. -/
theorem microEvents_onBus {c : Config} {x y z : Ack} {i : Instr} {n : Nat} {e : Event} {b : Bus}
    (he : (microEvents c x y z i)[n]? = some e) (hb : (i = .disable → n ≠ 0) → b.dir = midBus i n) :
    (e.onBus b).dir = midBus i (n + 1) := by
  have hn := (List.getElem?_eq_some_iff.mp he).1
  rw [microEvents_length] at hn
  cases i with
  | enable =>
    replace hb := hb (by simp)
    simp only [lastSeq] at hn
    interval_cases n <;> cases he <;> simp [midBus] at hb ⊢ <;> exact hb
  | disable =>
    simp only [lastSeq] at hn
    interval_cases n <;> cases he <;> simp_all [midBus]
  | beginFrame | endFrame =>
    replace hb := hb (by simp)
    simp only [lastSeq] at hn
    interval_cases n <;> cases he <;> exact hb
  | xfer buf | xferE buf =>
    exact ((rowEvents_ofRow (List.mem_of_getElem? he)).onBus b).1.trans (hb (by simp))

/-! ## Running commands -/

/-- The state in which an admitted command makes its step: what the invariant says in the middle of it, and at its
first step what it says between commands, except for what that step is about to set. -/
structure State.Admitted (s : State) (i : Instr) : Prop where
  life  : s.life = if s.seq = 0 then neededLife i else midLife i
  lines : ∀ p, (i = .enable → p = .wakeup → s.seq ≠ 0) → (s.lines.get p).drive = midDrive i s p
  bus   : (i = .disable → s.seq ≠ 0) → s.bus.dir = midBus i s.seq
  abort : i = .enable → s.nackFatal = true → s.seq = 0 ∨ (3 ≤ s.seq ∧ s.seq ≤ 8)
  rows  : s.cfg.rowCountCheck = true → wrongRows i s.rows.toNat s.cfg.height = false

theorem State.RunningOk.admitted {s : State} {i : Instr} (h : s.RunningOk i) (h0 : s.seq ≠ 0) : s.Admitted i where
  life := by rw [if_neg h0, h.life]
  lines := fun p _ => h.lines p
  bus := fun _ => h.bus
  abort := fun hi hf => .inr (h.abort hi hf)
  rows := h.rows

/-- Between commands the lines are those from which a command's micro-program starts. -/
theorem State.restOk_start {s : State} {i : Instr} (h : s.restOk) (hl : s.life = neededLife i) (h0 : s.seq = 0) :
    (∀ p, (i = .enable → p ≠ .wakeup) → (s.lines.get p).drive = midDrive i s p) ∧
      (i ≠ .disable → s.bus.dir = midBus i 0) := by
  unfold State.restOk at h
  rw [hl] at h
  cases i with
  | enable =>
    obtain ⟨⟨hlines, hbus⟩, _⟩ := h
    refine ⟨fun p hp => ?_, fun _ => hbus⟩
    rw [hlines p (hp rfl)]
    simp [midDrive, enableDrive, hp rfl, h0]
  | beginFrame =>
    refine ⟨fun p _ => ?_, fun _ => h.2⟩
    rw [h.1 p, midDrive, h0]
    cases p <;> rfl
  | xfer buf | xferE buf =>
    refine ⟨fun p _ => ?_, fun _ => h.2⟩
    rw [h.1 p, midDrive, h0]
    cases p <;> simp [frameLevel, rowLevel]
  | endFrame =>
    refine ⟨fun p _ => ?_, fun _ => h.2⟩
    rw [h.1 p, midDrive, h0]
    cases p <;> rfl
  | disable =>
    refine ⟨fun p _ => ?_, fun hn => absurd rfl hn⟩
    rw [h.1 p, midDrive, h0]
    cases p <;> rfl

theorem State.Inv.admitted {s : State} {i : Instr} (hinv : s.Inv) (hb : s.busy = true) (hf : s.fetch = .ok i)
    (hq : refusalOf i s = none) : s.Admitted i := by
  by_cases h0 : s.seq = 0
  · have hl := life_of_refusalOf_none hq h0
    obtain ⟨hlines, hbus⟩ := State.restOk_start (hinv.rest (.inr h0)) hl h0
    refine ⟨by rw [if_pos h0, hl], fun p hp => hlines p fun hi hw => hp hi hw h0,
      fun hi => h0 ▸ hbus fun hd => hi hd h0, fun _ _ => .inl h0, fun hc => ?_⟩
    simpa [refusalOf, guardStatus, h0, hl, hc] using hq
  · obtain ⟨j, hj, hrun⟩ := hinv.running hb h0
    cases hf.symm.trans hj
    exact hrun.admitted h0

/-- A step that makes an event records a fatal NACK at a write of ENABLE only, and the abort path is right after it. -/
theorem State.seq_of_nackFatal_afterStep {s : State} {x y z : Ack} {e : Event}
    (he : (enableEvents x y z)[s.seq]? = some e) (hs : s.nackFatal = true → s.seq = 0)
    (ht : (s.afterStep .enable e).nackFatal = true) : s.seq = 2 ∨ s.seq = 4 ∨ s.seq = 6 := by
  obtain ⟨hnack, hpolicy⟩ := State.nackFatal_iff.mp ht
  have h0 : s.seq ≠ 0 := fun h0 => by simp [State.afterStep, isPower, h0] at hnack
  have hn : s.nack = false := by
    by_contra hn
    exact h0 (hs (State.nackFatal_iff.mpr ⟨by simpa using hn, hpolicy⟩))
  have hne : e.isNack = true := by simpa [State.afterStep, isPower, h0, hn] using hnack
  obtain ⟨r, v, k, rfl⟩ : ∃ r v k, e = .tw r v k := by cases e <;> simp_all [Event.isNack]
  simpa using seq_of_mem_writesOf (microEvents_tw (c := s.cfg) (i := .enable) he).2

@[simp] theorem State.afterStep_seq (i : Instr) (e : Event) (s : State) : (s.afterStep i e).seq = s.seq + 1 := by
  cases i <;> rfl

@[simp] theorem State.afterStep_cfg (i : Instr) (e : Event) (s : State) : (s.afterStep i e).cfg = s.cfg := by
  cases i <;> rfl

@[simp] theorem State.afterStep_lines (i : Instr) (e : Event) (s : State) :
    (s.afterStep i e).lines = e.onLines s.lines := by
  cases i <;> rfl

@[simp] theorem State.afterStep_bus (i : Instr) (e : Event) (s : State) :
    (s.afterStep i e).bus = e.onBus s.bus := by
  cases i <;> rfl

@[simp] theorem State.afterStep_rows (i : Instr) (e : Event) (s : State) : (s.afterStep i e).rows = s.rows := by
  cases i <;> rfl

@[simp] theorem State.afterStep_busy (i : Instr) (e : Event) (s : State) : (s.afterStep i e).busy = s.busy := by
  cases i <;> rfl

@[simp] theorem State.afterStep_fetch (i : Instr) (e : Event) (s : State) : (s.afterStep i e).fetch = s.fetch := by
  cases i <;> rfl

theorem State.Admitted.life_afterStep {s : State} {i : Instr} (h : s.Admitted i) (e : Event) :
    (s.afterStep i e).life = midLife i := by
  have hl := h.life
  by_cases h0 : s.seq = 0
  · rw [if_pos h0] at hl
    cases i <;> simp [State.afterStep, State.afterEvent, isPower, h0, midLife, hl, neededLife]
  · rw [if_neg h0] at hl
    unfold State.afterStep
    split <;> simp [State.afterEvent, h0, hl]

theorem State.midDrive_afterStep {s : State} {i : Instr} {x y z : Ack} {e : Event}
    (he : (microEvents s.cfg x y z i)[s.seq]? = some e)
    (hf : i = .enable → s.nackFatal = true → s.seq = 0) (p : Line) :
    e.onDrive p (midDrive i s p) = midDrive i (s.afterStep i e) p := by
  cases i with
  | enable =>
    simp only [midDrive, State.afterStep_seq]
    exact enable_onDrive he (hf rfl) (State.seq_of_nackFatal_afterStep he (hf rfl)) p
  | beginFrame => exact begin_onDrive he p
  | xfer buf => exact row_onDrive he p
  | xferE buf => exact row_onDrive he p
  | endFrame => exact end_onDrive he p
  | disable => exact disable_onDrive he p

/-- Off the abort path a step that makes an event leaves the levels of the next seq. -/
theorem State.Admitted.afterStep {s : State} {i : Instr} {x y z : Ack} {e : Event} (h : s.Admitted i)
    (hab : ¬ s.aborting i) (he : (microEvents s.cfg x y z i)[s.seq]? = some e) :
    (s.afterStep i e).RunningOk i where
  life := h.life_afterStep e
  seq := by
    have hn := (List.getElem?_eq_some_iff.mp he).1
    rw [microEvents_length] at hn
    rw [State.afterStep_seq, State.afterStep_cfg]
    exact hn
  lines := fun p => by
    have hf : i = .enable → s.nackFatal = true → s.seq = 0 := fun hi hf =>
      (h.abort hi hf).resolve_right fun hq => hab ⟨hi, hf, hq⟩
    rw [State.afterStep_lines, Event.onLines_drive, ← State.midDrive_afterStep he hf p]
    by_cases hp : i = .enable → p = .wakeup → s.seq ≠ 0
    · rw [h.lines p hp]
    · simp only [not_forall, not_not] at hp
      obtain ⟨rfl, rfl, h0⟩ := hp
      rw [h0] at he
      cases he
      rfl
  bus := by
    rw [State.afterStep_bus, State.afterStep_seq]
    exact microEvents_onBus he h.bus
  abort := fun hi hf => by
    subst hi
    have hq := State.seq_of_nackFatal_afterStep he
      (fun hn => (h.abort rfl hn).resolve_right fun hq => hab ⟨rfl, hn, hq⟩) hf
    rw [State.afterStep_seq]
    omega
  rows := by
    rw [State.afterStep_cfg, State.afterStep_rows]
    exact h.rows

@[simp] theorem State.afterEvent_seq (e : Event) (s : State) : (s.afterEvent e).seq = s.seq + 1 := rfl
@[simp] theorem State.afterEvent_lines (e : Event) (s : State) : (s.afterEvent e).lines = e.onLines s.lines := rfl

/-- Up to seq 8 ENABLE has driven no bus line (R149). -/
theorem enableDrive_released {f : Bool} {n : Nat} {p : Line} (hn : n ≤ 8) (hp : p ≠ .wakeup) :
    enableDrive f n p = none := by
  have hseq : 8 ≤ configSeq p := by cases p <;> simp_all [configSeq]
  rw [enableDrive, if_neg hp, if_neg (by omega)]

/-- From seq 8 on DISABLE has released every bus line (R150). -/
theorem disableDrive_released {n : Nat} {p : Line} (hn : 8 ≤ n) (hp : p ≠ .wakeup) : disableDrive n p = none := by
  have hseq : releaseSeq p < 8 := by cases p <;> simp_all [releaseSeq]
  rw [disableDrive, if_neg hp, if_pos (by omega)]

theorem enable_onDrive_lower {n : Nat} (hn : n % 2 = 1) (hlt : n < 8) (p : Line) :
    (Event.set .wakeup false).onDrive p (enableDrive true n p) = enableDrive true (n + 1) p := by
  by_cases hp : p = .wakeup
  · subst hp
    have : (n + 1) % 2 = 0 := by omega
    simp [Event.onDrive, enableDrive, this]
  · rw [enableDrive_released (by omega) hp, enableDrive_released (by omega) hp]
    simp [Event.onDrive]

/-- A row ends with the levels it started from (R121). -/
theorem rowLevel_last (g : Nat) (p : Line) : some (rowLevel g (3 * g + 9) p) = some (frameLevel p) := by
  cases p <;> simp [rowLevel, frameLevel]

/-- The abort path's first step lowers WAKEUP and touches no bus line. -/
theorem State.Admitted.afterLower {s : State} {i : Instr} (h : s.Admitted i) (hab : s.aborting i)
    (hn : s.seq % 2 = 1) : (s.afterEvent (.set .wakeup false)).RunningOk i := by
  have hab' := hab.afterEvent (e := .set .wakeup false) hn
  obtain ⟨rfl, hf', hlo', hhi'⟩ := hab
  obtain ⟨_, hf, hlo, hhi⟩ := hab'
  have h0 : s.seq ≠ 0 := by omega
  rw [State.afterEvent_seq] at hhi
  refine ⟨h.life.trans (if_neg h0), ?_, fun p => ?_, ?_, fun _ _ => ⟨hlo, hhi⟩, h.rows⟩
  · rw [State.afterEvent_seq, lastSeq]
    omega
  · rw [State.afterEvent_lines, Event.onLines_drive, h.lines p fun _ _ => h0]
    simp only [midDrive, hf', State.afterEvent_seq, show (s.afterEvent _).nackFatal = true from hf]
    exact enable_onDrive_lower hn (by omega) p
  · rw [State.afterEvent_seq, midBus, if_neg (by omega)]
    exact (h.bus (by simp)).trans (if_neg (by omega))

/-- The lines at the end of a command are those between commands in the lifecycle state it ends in. -/
theorem State.Admitted.completed_restOk {s : State} {i : Instr} (h : s.Admitted i)
    (hq : s.seq = lastSeq s.cfg.groups i) : (s.completed i).restOk := by
  have h0 := State.seq_ne_zero_of_last hq
  have hlines : ∀ p, (s.lines.get p).drive = midDrive i s p := fun p => h.lines p fun _ _ => h0
  have hbus := h.bus fun _ => h0
  have hlife := h.life
  rw [if_neg h0] at hlife
  rw [hq] at hbus
  cases i with
  | enable =>
    have hf : s.nackFatal = false := by
      cases hf : s.nackFatal with
      | false => rfl
      | true =>
        have := h.abort rfl hf
        simp only [lastSeq] at hq
        omega
    refine ⟨fun p => (hlines p).trans ?_, hbus⟩
    rw [midDrive, hq, hf]
    cases p <;> rfl
  | beginFrame =>
    refine ⟨fun p => (hlines p).trans ?_, hbus⟩
    rw [midDrive, hq]
    cases p <;> rfl
  | xfer buf | xferE buf =>
    unfold State.restOk
    simp only [State.completed, lifeAtEnd, hlife, midLife]
    refine ⟨fun p => (hlines p).trans ?_, hbus⟩
    rw [midDrive, hq]
    exact rowLevel_last s.cfg.groups p
  | endFrame =>
    refine ⟨fun p => (hlines p).trans ?_, hbus⟩
    rw [midDrive, hq]
    cases p <;> rfl
  | disable =>
    have hreleased : s.released := by
      refine ⟨fun p hp => ?_, hbus⟩
      rw [hlines p, midDrive, hq]
      exact disableDrive_released (by simp [lastSeq]) hp
    have hwakeup : (s.lines.get .wakeup).drive = some false := by
      rw [hlines, midDrive, hq]
      rfl
    unfold State.restOk
    cases hf : s.nackFatal with
    | true =>
      simp only [State.completed, lifeAtEnd, hf, if_true]
      exact ⟨hreleased, hwakeup⟩
    | false =>
      simp only [State.completed, lifeAtEnd, hf, Bool.false_eq_true, if_false]
      exact ⟨hreleased, .inr hwakeup⟩

/-- R207: the abort path ends with the bus lines released and WAKEUP driving 0. -/
theorem State.Admitted.aborted_restOk {s : State} {i : Instr} (h : s.Admitted i) (hab : s.aborting i)
    (hn : s.seq % 2 = 0) : State.restOk { s.answered .busTransactionFailure with life := .faulted } := by
  obtain ⟨rfl, hf, hlo, hhi⟩ := hab
  have h0 : s.seq ≠ 0 := by omega
  have hlines : ∀ p, (s.lines.get p).drive = midDrive .enable s p := fun p => h.lines p fun _ _ => h0
  refine ⟨⟨fun p hp => ?_, ?_⟩, ?_⟩
  · exact (hlines p).trans (enableDrive_released hhi hp)
  · exact (h.bus (by simp)).trans (if_neg (by omega))
  · refine (hlines .wakeup).trans ?_
    simp [midDrive, enableDrive, hf, hn]

/-! ## The invariant -/

theorem State.Inv.of_running {t : State} {i : Instr} (hop : t.cmd.buf.fits t.cfg.width = true)
    (hoff : ∀ c ∈ t.host, c.wf t.cfg.width = true) (hrows : t.cfg.rowCountCheck = true → t.rows.toNat ≤ t.cfg.height)
    (hb : t.busy = true) (h0 : t.seq ≠ 0) (hf : t.fetch = .ok i) (hrun : t.RunningOk i) : t.Inv where
  operand := hop
  offers := hoff
  rows := hrows
  rest := fun h => by simp [hb, h0] at h
  running := fun _ _ => ⟨i, hf, hrun⟩

theorem State.Inv.of_rest {t : State} (hop : t.cmd.buf.fits t.cfg.width = true)
    (hoff : ∀ c ∈ t.host, c.wf t.cfg.width = true) (hrows : t.cfg.rowCountCheck = true → t.rows.toNat ≤ t.cfg.height)
    (hrest : t.restOk) (hb : t.busy = true → t.seq = 0) : t.Inv where
  operand := hop
  offers := hoff
  rows := hrows
  rest := fun _ => hrest
  running := fun hbusy h0 => absurd (hb hbusy) h0

/-- R38, R48(e): a TRANSFER that counts a row was admitted below HEIGHT, and no other command raises the counter. -/
theorem State.Inv.rows_exec {s t : State} {i : Instr} (hinv : s.Inv) (hb : s.busy = true) (hf : s.fetch = .ok i)
    (he : exec i s = .next t) (hc : s.cfg.rowCountCheck = true) : t.rows.toNat ≤ s.cfg.height := by
  have hle := hinv.rows hc
  rw [exec_rows he]
  split
  · next hq =>
    obtain ⟨j, hj, hrun⟩ := hinv.running hb (State.seq_ne_zero_of_last hq)
    cases hf.symm.trans hj
    have hwrong := hrun.rows hc
    cases i with
    | enable | endFrame | disable => exact hle
    | beginFrame => exact Nat.zero_le _
    | xfer buf | xferE buf =>
      simp only [wrongRows, decide_eq_false_iff_not] at hwrong
      rw [rowsAtEnd, nextRows_toNat]
      omega
  · exact hle

/-- Every step of a command keeps the invariant, by what a step can do. -/
theorem State.Inv.of_exec {s t : State} {i : Instr} (hinv : s.Inv) (hb : s.busy = true) (hf : s.fetch = .ok i)
    (he : exec i s = .next t) : t.Inv := by
  obtain ⟨hhost, hcmd⟩ := exec_command he
  have hcfg := exec_cfg he
  have hop : t.cmd.buf.fits t.cfg.width = true := by rw [hcmd, hcfg]; exact hinv.operand
  have hoff : ∀ c ∈ t.host, c.wf t.cfg.width = true := by rw [hhost, hcfg]; exact hinv.offers
  have hrows : t.cfg.rowCountCheck = true → t.rows.toNat ≤ t.cfg.height := by
    rw [hcfg]
    exact hinv.rows_exec hb hf he
  rcases exec_cases he with
    ⟨st, hq, rfl⟩ | ⟨k, e, hq, hab, hev, _, rfl⟩ | ⟨k, r, v, hev, rfl⟩ | ⟨hab, hn, rfl⟩ | ⟨hab, hn, rfl⟩ | ⟨hq, rfl⟩
  · exact .of_rest hop hoff hrows (hinv.rest (.inr (refusalOf_some hq).1)) (by simp)
  · have hrun := (hinv.admitted hb hf hq).afterStep hab hev
    exact .of_running hop hoff hrows (by simpa using hb) (by simp) (by simpa using hf) hrun
  · have h0 : s.seq ≠ 0 := ne_zero_of_mem_writesOf (microEvents_tw hev).2
    obtain ⟨j, hj, hrun⟩ := hinv.running hb h0
    exact .of_running hop hoff hrows hb h0 hj
      ⟨hrun.life, hrun.seq, hrun.lines, hrun.bus, hrun.abort, hrun.rows⟩
  · have hrun := (hinv.admitted hb hf (refusalOf_later hab.seq_ne_zero)).afterLower hab hn
    exact .of_running hop hoff hrows hb (by simp) hf hrun
  · have hrest := (hinv.admitted hb hf (refusalOf_later hab.seq_ne_zero)).aborted_restOk hab hn
    exact .of_rest hop hoff hrows hrest (fun h => by cases h)
  · have hrest := (hinv.admitted hb hf (refusalOf_later (State.seq_ne_zero_of_last hq))).completed_restOk hq
    exact .of_rest hop hoff hrows hrest (fun h => by cases h)

theorem State.Inv.clock {s : State} (h : s.Inv) : s.clock.Inv where
  operand := h.operand
  offers := h.offers
  rows := h.rows
  rest := h.rest
  running := fun hb h0 =>
    let ⟨i, hf, hrun⟩ := h.running hb h0
    ⟨i, hf, hrun.life, hrun.seq, hrun.lines, hrun.bus, hrun.abort, hrun.rows⟩

/-- Settles O42, by the cases of R170: a reset is a start, an idle block and an illegal byte leave the lines, and a step
of a command keeps the invariant. -/
theorem invariantKept : Obligations.InvariantKept := by
  intro s t hinv h
  have hclock := hinv.clock
  rcases step_next h with
    ⟨_, rfl⟩ | ⟨_, _, _, rfl⟩ | ⟨c, rest, _, hb, hh, hw, rfl⟩ | ⟨e, _, hb, hf, rfl⟩ | ⟨i, _, hb, hf, he⟩
  · exact State.start_inv s.clock.rstIn s.twIn s.draws hinv.offers
  · exact hclock
  · exact .of_rest hw (fun o ho => hinv.offers o (hh ▸ List.mem_cons_of_mem c ho)) hinv.rows (hinv.rest (.inl hb))
      (fun _ => rfl)
  · have h0 : s.seq = 0 := by
      by_contra h0
      obtain ⟨i, hi, _⟩ := hinv.running hb h0
      cases hf.symm.trans hi
    exact .of_rest hinv.operand hinv.offers hinv.rows (hinv.rest (.inr h0)) (fun hbusy => by cases hbusy)
  · exact hclock.of_exec hb hf he

/-- Every state that a run reaches from one with the invariant has it. -/
theorem State.Inv.of_run {k : Nat} {s t : State} (hinv : s.Inv) (h : run k s = .next t) : t.Inv := by
  induction k generalizing s with
  | zero =>
    cases h
    exact hinv
  | succ k ih =>
    rw [run_step] at h
    cases hs : step s with
    | next u =>
      rw [hs] at h
      exact ih (invariantKept s u hinv hs) h
    | fault r => simp [hs] at h
    | refused r => simp [hs] at h

/-! ## What follows for the lines -/

theorem Pad.level_of_drive {x : Pad} {v : Bool} (h : x.drive = some v) : x.level = v :=
  congrArg Pad.level (Pad.drive_eq_some.mp h)

theorem State.released.dir {s : State} (h : s.released) :
    (∀ p, p ≠ .wakeup → (s.lines.get p).dir = .input) ∧ s.bus.dir = .input :=
  ⟨fun p hp => Pad.drive_eq_none.mp (h.1 p hp), h.2⟩

/-- R48 (a) to (d), from what the lines show between commands. -/
theorem State.restOk.levels {s : State} (h : s.restOk) :
    ((s.life = .poweredIdle ∨ s.life = .frameActive) → s.driven ∧ s.lines.wakeup.level = true) ∧
    (s.life = .frameActive → ∀ p, (s.lines.get p).level = frameLevel p) ∧
    (s.life = .poweredIdle → ∀ p, (s.lines.get p).level = idleLevel p) ∧
    (s.life = .unpowered → s.released ∧
      (s.lines.wakeup.dir = .input ∨ s.lines.wakeup = { dir := .output, level := false })) := by
  have hframe : s.life = .frameActive → ∀ p, (s.lines.get p).level = frameLevel p := fun hl p => by
    unfold State.restOk at h
    rw [hl] at h
    exact Pad.level_of_drive (h.1 p)
  have hidle : s.life = .poweredIdle → ∀ p, (s.lines.get p).level = idleLevel p := fun hl p => by
    unfold State.restOk at h
    rw [hl] at h
    exact Pad.level_of_drive (h.1 p)
  refine ⟨fun hl => ⟨State.restOk_driven h hl, ?_⟩, hframe, hidle, fun hl => ?_⟩
  · exact hl.elim (fun hl => hidle hl .wakeup) fun hl => hframe hl .wakeup
  · unfold State.restOk at h
    rw [hl] at h
    exact ⟨h.1, h.2.imp Pad.drive_eq_none.mp Pad.drive_eq_some.mp⟩

/-- Settles O44: the state has the invariant, whose clauses between commands are those of R48. -/
theorem reachableLevels : Obligations.ReachableLevels := by
  intro c host rstIn twIn n k t hoff h
  have hinv := (State.start_inv rstIn twIn n hoff).of_run h
  refine ⟨fun hl hb => ?_, fun hl hb => ?_, fun hl hb => ?_, fun hl hb => ?_, hinv.rows⟩
  all_goals obtain ⟨hpowered, hframe, hidle, hoff⟩ := (hinv.rest (.inl hb)).levels
  · obtain ⟨⟨hdir, hbus⟩, hw⟩ := hpowered hl
    exact ⟨hdir, hbus, hw⟩
  · replace hframe := hframe hl
    exact ⟨hframe .oe, hframe .mode, hframe .spv, hframe .ckv, hframe .stl, hframe .le, hframe .cl⟩
  · replace hidle := hidle hl
    exact ⟨hidle .oe, hidle .mode, hidle .spv, hidle .ckv, hidle .stl, hidle .le, hidle .cl⟩
  · obtain ⟨hreleased, hw⟩ := hoff hl
    exact ⟨hreleased.dir.1, hreleased.dir.2, hw⟩

/-- Settles O45: between commands by `restOk`, in the middle of ENABLE and DISABLE by the seq at which a line is
configured or released. -/
theorem nothingDrivenWithoutRails : Obligations.NothingDrivenWithoutRails := by
  intro s hinv hl
  refine State.released.dir ?_
  by_cases hidle : s.busy = false ∨ s.seq = 0
  · have hrest := hinv.rest hidle
    unfold State.restOk at hrest
    rcases hl with hl | hl | ⟨hl, _⟩ | ⟨hl, _⟩ <;> rw [hl] at hrest
    exacts [hrest.1, hrest.1, hrest.elim, hrest.elim]
  · obtain ⟨hb, h0⟩ := not_or.mp hidle
    obtain ⟨i, _, hrun⟩ := hinv.running (by simpa using hb) h0
    have hlines := hrun.lines
    have hbus := hrun.bus
    rw [hrun.life] at hl
    cases i with
    | enable =>
      have hq : s.seq ≤ 8 := by simpa [midLife] using hl
      exact ⟨fun p hp => (hlines p).trans (enableDrive_released hq hp), hbus.trans (if_neg (by omega))⟩
    | disable =>
      have hq : 8 ≤ s.seq := by simpa [midLife] using hl
      exact ⟨fun p hp => (hlines p).trans (disableDrive_released hq hp), hbus⟩
    | beginFrame | xfer | xferE | endFrame => simp [midLife] at hl

end Sys2Proof.Machine
end

