-- ==== Sys2Proof/Proofs/PanelController.lean ====
section
/-! PROOFS. The statements of spec/43_panel_controller.md: a step of the block (R170), the guard (R171), the lifecycle
(R172), BEGIN and END (R173, R175), whole commands and a whole frame (R174, R178), and that every command responds
(R215).  They rest on `exec_cases` and `exec_event`: what a step of a command does, read off its event list. -/

namespace Sys2Proof.Machine

/-! ## A step of the block -/

/-- Settles O6: the case of R170 for a busy block. -/
theorem stepRunsInstruction : Obligations.StepRunsInstruction := fun _ _ hr hb hf => step_busy hr hb hf

/-- Settles O7: the idle case of R170, with no offer. -/
theorem idleStepChangesNothing : Obligations.IdleStepChangesNothing := fun _ hr hb hh => step_idle hr hb hh

/-! ## The guard -/

/-- R171: a command outside the lifecycle state it needs has the entry PV. -/
theorem guardTable_of_life_ne {i : Instr} {l : Life} (hl : l ≠ neededLife i) (rows height : Nat) (check : Bool) :
    guardTable i l rows height check = some .protocolViolation := by
  unfold guardTable
  split <;> simp_all [neededLife]

/-- R171: in that state only the row count can refuse it. -/
theorem guardTable_of_life (i : Instr) (rows height : Nat) (check : Bool) :
    guardTable i (neededLife i) rows height check =
      if check && wrongRows i rows height then some .rowCountMismatch else none := by
  cases i <;> simp [guardTable, neededLife, wrongRows]

/-- The guard's checks in their order give the table of R171. -/
theorem guardStatus_eq_guardTable (i : Instr) (s : State) :
    guardStatus i s = guardTable i s.life s.rows.toNat s.cfg.height s.cfg.rowCountCheck := by
  unfold guardStatus
  split
  · next hl => rw [guardTable_of_life_ne hl]
  · next hl => rw [not_not.mp hl, guardTable_of_life]

/-- At a command's first step the guard answers as the table says (R170, R171). -/
theorem refusalOf_first_eq {i : Instr} {s : State} (h0 : s.seq = 0) :
    refusalOf i s = guardTable i s.life s.rows.toNat s.cfg.height s.cfg.rowCountCheck := by
  rw [refusalOf, if_pos h0, guardStatus_eq_guardTable]

/-- An admitted command makes event 0 of its micro-program, which is no two-wire write. -/
theorem exec_first {i : Instr} {s : State} (h0 : s.seq = 0) (hq : refusalOf i s = none) :
    exec i s = .next (s.afterFirst i) := by
  have hab : ¬ s.aborting i := fun hab => hab.seq_ne_zero h0
  obtain ⟨e, he, hfirst⟩ : ∃ e, (microEvents s.cfg .ack .ack .ack i)[s.seq]? = some e ∧
      s.afterStep i e = s.afterFirst i := by
    rw [h0]
    cases i <;> exact ⟨_, rfl, rfl⟩
  have hrep : s.reports e := by
    rintro r v k rfl
    exact absurd h0 (ne_zero_of_mem_writesOf (microEvents_tw he).2)
  rw [exec_event hq hab he hrep, hfirst]

/-- R48: while ENABLE or DISABLE runs no command is at its first step, since between commands the block is in
neither state. -/
theorem State.Inv.busy_of_powering {s : State} (hinv : s.Inv) (hl : s.life = .poweringUp ∨ s.life = .poweringDown) :
    s.busy = true ∧ s.seq ≠ 0 := by
  by_contra hn
  have hrest : s.restOk := hinv.rest (by grind)
  unfold State.restOk at hrest
  rcases hl with hl | hl <;> rw [hl] at hrest <;> exact hrest

/-- Settles O15: check 1 where the byte is decoded, then the table, then event 0. -/
theorem guardDecides : Obligations.GuardDecides := by
  refine ⟨fun s e hr hb _ he => step_illegal hr hb he, fun i s st h0 ht => ?_, fun i s h0 ht => ?_,
    fun _ => State.Inv.busy_of_powering⟩
  · rw [exec_eq, runCommand_refused ((refusalOf_first_eq h0).trans ht)]
    rfl
  · exact exec_first h0 ((refusalOf_first_eq h0).trans ht)

/-! ## BEGIN and END -/

/-- The guard's premises for a command, needed at its first step only (R170, R171). -/
theorem refusalOf_none {i : Instr} {s : State} (h : s.seq = 0 → s.life = neededLife i ∧
    (s.cfg.rowCountCheck = true → wrongRows i s.rows.toNat s.cfg.height = false)) : refusalOf i s = none := by
  by_cases h0 : s.seq = 0
  · obtain ⟨hl, hrows⟩ := h h0
    exact refusalOf_first hl hrows
  · exact refusalOf_later h0

/-- BEGIN and END are made of levels of OE and MODE, and in BEGIN of SPV and CKV too, with its one delay. -/
def Event.OfFrame (i : Instr) (e : Event) : Prop :=
  (∃ d, e = .wait d) ∨ ∃ p v, e = .set p v ∧ (p = .oe ∨ p = .mode ∨ (i = .beginFrame ∧ (p = .spv ∨ p = .ckv)))

theorem microEvents_ofFrame {c : Config} {x y z : Ack} {i : Instr} (hi : i = .beginFrame ∨ i = .endFrame) {e : Event}
    (he : e ∈ microEvents c x y z i) : e.OfFrame i := by
  rcases hi with rfl | rfl <;> simp only [microEvents, beginEvents, endEvents, List.mem_cons, List.not_mem_nil,
    or_false] at he
  · rcases he with rfl | rfl | rfl | rfl | rfl | rfl | rfl <;> simp [Event.OfFrame]
  · rcases he with rfl | rfl <;> simp [Event.OfFrame]

/-- Only ENABLE has an abort path and only ENABLE and DISABLE write. -/
theorem exec_frame_event {c : Config} {i : Instr} (hi : i = .beginFrame ∨ i = .endFrame) {s : State} {e : Event}
    (hc : s.cfg = c) (he : (microEvents c .ack .ack .ack i)[s.seq]? = some e) (hq : refusalOf i s = none) :
    exec i s = .next (s.afterEvent e) := by
  subst hc
  have hab : ¬ s.aborting i := by
    rintro ⟨rfl, _⟩
    simp at hi
  have hrep : s.reports e := by
    rintro r v k rfl
    simpa [Event.OfFrame] using microEvents_ofFrame hi (List.mem_of_getElem? he)
  rw [exec_event hq hab he hrep]
  rcases hi with rfl | rfl <;> rfl

/-- Settles O26: BEGIN steps by its event list, and then ends. -/
theorem beginSteps : Obligations.BeginSteps :=
  ⟨fun _ _ he hl => exec_frame_event (.inl rfl) rfl he (refusalOf_none fun h0 => ⟨hl h0, fun _ => rfl⟩),
    fun _ hq => exec_last (i := .beginFrame) hq⟩

/-- Settles O27: END steps by its event list, and then ends. -/
theorem endSteps : Obligations.EndSteps :=
  ⟨fun _ _ he h => exec_frame_event (.inr rfl) rfl he
      (refusalOf_none fun h0 => ⟨(h h0).1, by simpa [wrongRows] using (h h0).2⟩),
    fun _ hq => exec_last (i := .endFrame) hq⟩

/-- `s` when BEGIN or END, offered as the next command, has made all its events. -/
def State.frameEventsMade (i : Instr) (rest : List Command) (s : State) : State :=
  { s with
    busy := true, cmd := i.command, host := rest,
    rstIn := s.rstIn.drop (lastSeq s.cfg.groups i + 2), seq := lastSeq s.cfg.groups i,
    trace := s.trace ++ microEvents s.cfg .ack .ack .ack i,
    lines := (microEvents s.cfg .ack .ack .ack i).foldl (fun l e => e.onLines l) s.lines,
    bus := (microEvents s.cfg .ack .ack .ack i).foldl (fun b e => e.onBus b) s.bus }

/-- A whole BEGIN or END from its offer on: acceptance, one step an event, the end. -/
theorem run_frame {i : Instr} (hi : i = .beginFrame ∨ i = .endFrame) {s : State} {rest : List Command}
    (ho : s.Offered i rest) (hl : s.life = neededLife i)
    (hrows : s.cfg.rowCountCheck = true → wrongRows i s.rows.toNat s.cfg.height = false) :
    run (lastSeq s.cfg.groups i + 2) s = .next ((s.frameEventsMade i rest).completed i) := by
  have hrun := run_command (es := microEvents s.cfg .ack .ack .ack i) (fin := State.completed i) ho
    (by rcases hi with rfl | rfl <;> simp [microEvents, beginEvents, endEvents])
    (fun t e hc htl htr h0 he => exec_frame_event hi hc (h0 ▸ he) (refusalOf_none fun _ => by
      rw [htl, hc, htr]; exact ⟨hl, hrows⟩))
    (fun t e hc h0 he => exec_frame_event hi hc he (refusalOf_later h0))
    (fun t hc hq => exec_last (by rw [hq, microEvents_length, hc]))
  rwa [microEvents_length] at hrun

/-- Settles O28: the states that a whole BEGIN and a whole END leave, field by field. -/
theorem frameCommandsRun : Obligations.FrameCommandsRun := by
  refine ⟨fun s rest ho hl => ?_, fun s rest ho hl hrows => ?_⟩
  · exact ⟨_, run_frame (.inl rfl) ho hl fun _ => rfl, rfl, rfl, rfl, rfl, rfl, rfl, rfl, rfl, rfl, rfl⟩
  · exact ⟨_, run_frame (.inr rfl) ho hl (by simpa [wrongRows] using hrows), rfl, rfl, rfl, rfl, rfl, rfl, rfl, rfl,
      rfl, rfl⟩

/-- An event of BEGIN or END leaves the other lines as they are (R173, R175). -/
theorem Event.OfFrame.onLines_get {i : Instr} {e : Event} (he : e.OfFrame i) (l : Lines) (p : Line) :
    (e.onLines l).get p = l.get p ∨ p = .oe ∨ p = .mode ∨ (i = .beginFrame ∧ (p = .spv ∨ p = .ckv)) := by
  obtain ⟨_, rfl⟩ | ⟨q, v, rfl, hq⟩ := he
  · exact .inl rfl
  · by_cases hp : p = q
    · exact .inr (hp ▸ hq)
    · exact .inl (Lines.get_set_of_ne l _ hp)

/-- A SET keeps the direction of its line (R90), and a WAIT touches none. -/
theorem Event.OfFrame.onLines_dir {i : Instr} {e : Event} (he : e.OfFrame i) (l : Lines) (p : Line) :
    ((e.onLines l).get p).dir = (l.get p).dir := by
  obtain ⟨_, rfl⟩ | ⟨q, v, rfl, _⟩ := he
  · rfl
  · by_cases hp : p = q
    · simp [hp]
    · rw [Event.onLines_set, Lines.get_set_of_ne l _ hp]

theorem Event.OfFrame.onBus {i : Instr} {e : Event} (he : e.OfFrame i) (b : Bus) : e.onBus b = b := by
  obtain ⟨_, rfl⟩ | ⟨_, _, rfl, _⟩ := he <;> rfl

/-- Everything a step of BEGIN or END can do: be refused, make its next event, or end. -/
theorem exec_frame_next {i : Instr} (hi : i = .beginFrame ∨ i = .endFrame) {s t : State} (h : exec i s = .next t) :
    (∃ st, t = s.respond st) ∨ (∃ e, e.OfFrame i ∧ t = s.afterEvent e) ∨
    (s.seq = lastSeq s.cfg.groups i ∧ t = s.completed i) := by
  have hne : i ≠ .enable := by rcases hi with rfl | rfl <;> simp
  rcases exec_cases h with
    ⟨st, _, ht⟩ | ⟨k, e, _, _, he, _, ht⟩ | ⟨k, r, v, he, _⟩ | ⟨hab, _, _⟩ | ⟨hab, _, _⟩ | ⟨hq, ht⟩
  · exact .inl ⟨st, ht⟩
  · refine .inr (.inl ⟨e, microEvents_ofFrame hi (List.mem_of_getElem? he), ht.trans ?_⟩)
    rcases hi with rfl | rfl <;> rfl
  · simpa [Event.OfFrame] using microEvents_ofFrame hi (List.mem_of_getElem? he)
  · exact absurd hab.1 hne
  · exact absurd hab.1 hne
  · exact .inr (.inr ⟨hq, ht⟩)

/-- Settles O29, by what a step of BEGIN or END can do. -/
theorem frameCommandsFrame : Obligations.FrameCommandsFrame := by
  intro i s t hi h
  rcases exec_frame_next hi h with ⟨st, rfl⟩ | ⟨e, he, rfl⟩ | ⟨hq, rfl⟩
  · simp
  · exact ⟨rfl, he.onBus s.bus, rfl, rfl, rfl, rfl, rfl, rfl, fun _ => rfl, he.onLines_get s.lines,
      he.onLines_dir s.lines, .inl rfl, .inl rfl, .inl ⟨rfl, rfl⟩⟩
  · refine ⟨rfl, rfl, rfl, rfl, rfl, rfl, rfl, rfl, fun _ => rfl, fun _ => .inl rfl, fun _ => rfl, ?_, ?_,
      .inr ⟨rfl, rfl⟩⟩
    · rcases hi with rfl | rfl
      · exact .inr ⟨rfl, hq⟩
      · exact .inl rfl
    · rcases hi with rfl | rfl
      · exact .inr (.inl hq)
      · exact .inr (.inr ⟨rfl, hq⟩)

/-! ## TRANSFER -/

/-- R131: what a row leaves on the discrete lines. -/
theorem rowEvents_lines (c : Config) (buf : Memory) (erase : Bool) (l : Lines) :
    (rowEvents c buf erase).foldl (fun l e => e.onLines l) l =
      (((l.at .stl true).at .cl false).at .le false).at .ckv true := by
  rw [rowEvents, List.foldl_cons, List.foldl_append, shiftEvents_lines _ _ _ _ _ _ (Config.groups_pos c)]
  rfl

/-- R131: what a row leaves on the data lines. -/
theorem rowEvents_bus (c : Config) (buf : Memory) (erase : Bool) (b : Bus) :
    (rowEvents c buf erase).foldl (fun b e => e.onBus b) b =
      { dir := b.dir, byte := rowByte c buf erase (c.groups - 1) } := by
  rw [rowEvents, List.foldl_cons, List.foldl_append, shiftEvents_bus _ _ _ _ _ _ (Config.groups_pos c), Nat.zero_add]
  rfl

/-- Settles O31: the state that a whole TRANSFER leaves, field by field. -/
theorem transferRuns : Obligations.TransferRuns := by
  rintro s rest buf erase i rfl ho hl hrows
  exact ⟨_, run_transfer ho hl hrows, rfl, hl, rfl, rfl, rfl, rfl, rfl, rfl, rowEvents_lines s.cfg buf erase s.lines,
    rowEvents_bus s.cfg buf erase s.bus⟩

/-! ## The lifecycle -/

/-- A step that does not end its command changes `life` at the first step of ENABLE and DISABLE only (R172). -/
theorem State.Admitted.life_afterStep_ne {s : State} {i : Instr} (h : s.Admitted i) {e : Event}
    (hne : (s.afterStep i e).life ≠ s.life) :
    (i = .enable ∧ s.life = .unpowered ∧ (s.afterStep i e).life = .poweringUp) ∨
    (i = .disable ∧ s.life = .poweredIdle ∧ (s.afterStep i e).life = .poweringDown) := by
  have hl := h.life
  have hl' := h.life_afterStep e
  by_cases h0 : s.seq = 0
  · rw [if_pos h0] at hl
    cases i <;> simp_all [neededLife, midLife]
  · rw [if_neg h0] at hl
    exact absurd (hl'.trans hl.symm) hne

@[simp] theorem State.completed_life (i : Instr) (s : State) : (s.completed i).life = lifeAtEnd i s := rfl
@[simp] theorem State.completed_status (i : Instr) (s : State) : (s.completed i).status = statusAtEnd i s := rfl

/-- Settles O47, by what a step of a command can do. -/
theorem lifeTransitions : Obligations.LifeTransitions := by
  intro s t hinv hr h hne
  rcases step_next h with
    ⟨hrst, _⟩ | ⟨_, _, _, rfl⟩ | ⟨_, _, _, _, _, _, rfl⟩ | ⟨_, _, _, _, rfl⟩ | ⟨i, _, hb, hf, he⟩
  · simp [hr] at hrst
  · exact absurd rfl hne
  · exact absurd rfl hne
  · exact absurd rfl hne
  · have hadm := fun hq => hinv.clock.admitted (i := i) hb hf hq
    rw [hf]
    rcases exec_cases he with
      ⟨st, _, rfl⟩ | ⟨k, e, hq, hab, hev, _, rfl⟩ | ⟨k, r, v, _, rfl⟩ | ⟨_, _, rfl⟩ | ⟨hab, _, rfl⟩ | ⟨hq, rfl⟩
    · exact absurd rfl hne
    · rcases (hadm hq).life_afterStep_ne hne with ⟨rfl, hl, hl'⟩ | ⟨rfl, hl, hl'⟩
      · exact .inl ⟨hl, hl', rfl⟩
      · exact .inr (.inr (.inr (.inr (.inr (.inl ⟨hl, hl', rfl⟩)))))
    · exact absurd rfl hne
    · exact absurd rfl hne
    · have hl := (hadm (refusalOf_later hab.seq_ne_zero)).life
      rw [if_neg hab.seq_ne_zero] at hl
      obtain ⟨rfl, hfatal, _, _⟩ := hab
      exact .inr (.inr (.inl ⟨hl, rfl, rfl, hfatal, rfl⟩))
    · have h0 := State.seq_ne_zero_of_last hq
      have hl := (hadm (refusalOf_later h0)).life
      rw [if_neg h0, State.clock_life] at hl
      cases i with
      | enable | beginFrame | endFrame => simp [hl, midLife, lifeAtEnd, statusAtEnd]
      | xfer buf | xferE buf => exact absurd rfl hne
      | disable => cases hfatal : s.nackFatal <;> simp [hl, hfatal, midLife, lifeAtEnd, statusAtEnd]

/-! ## A whole frame -/

/-- From `s`, some steps that no reset interrupts emit `new` and leave the block idle in `t`. -/
structure State.Ran (s t : State) (new : List Event) : Prop where
  run   : ∃ k, run k s = .next t
  trace : t.trace = s.trace ++ new
  cfg   : t.cfg = s.cfg
  idle  : t.busy = false
  quiet : t.noReset

theorem State.Ran.trans {s t u : State} {new new' : List Event} (h : s.Ran t new) (h' : t.Ran u new') :
    s.Ran u (new ++ new') where
  run :=
    let ⟨_, hj⟩ := h.run
    let ⟨k, hk⟩ := h'.run
    ⟨_, (run_add hj k).trans hk⟩
  trace := by rw [h'.trace, h.trace, List.append_assoc]
  cfg := h'.cfg.trans h.cfg
  idle := h'.idle
  quiet := h'.quiet

theorem State.noReset_drop {s t : State} {n : Nat} (h : s.noReset) (ht : t.rstIn = s.rstIn.drop n) : t.noReset :=
  fun b hb => h b (List.mem_of_mem_drop (ht ▸ hb))

/-- A whole BEGIN or END, in short. -/
theorem ran_frame {i : Instr} (hi : i = .beginFrame ∨ i = .endFrame) {s : State} {rest : List Command}
    (ho : s.Offered i rest) (hl : s.life = neededLife i)
    (hrows : s.cfg.rowCountCheck = true → wrongRows i s.rows.toNat s.cfg.height = false) :
    ∃ t, s.Ran t (microEvents s.cfg .ack .ack .ack i ++ [.rsp .ok]) ∧ t.life = lifeAtEnd i s ∧
      t.rows = rowsAtEnd i s ∧ t.host = rest := by
  refine ⟨_, ⟨⟨_, run_frame hi ho hl hrows⟩, ?_, rfl, rfl, State.noReset_drop ho.quiet rfl⟩, ?_⟩
  · rcases hi with rfl | rfl <;> exact List.append_assoc _ _ _
  · rcases hi with rfl | rfl <;> exact ⟨rfl, rfl, rfl⟩

/-- A whole TRANSFER, in short. -/
theorem ran_transfer {erase : Bool} {buf : Memory} {s : State} {rest : List Command}
    (ho : s.Offered (.transfer erase buf) rest) (hl : s.life = .frameActive) (hrows : s.rows.toNat < s.cfg.height) :
    ∃ t, s.Ran t (rowEvents s.cfg buf erase ++ [.rsp .ok]) ∧ t.life = .frameActive ∧ t.rows = nextRows s.rows ∧
      t.host = rest :=
  ⟨_, ⟨⟨_, run_transfer ho hl fun _ => hrows⟩, List.append_assoc _ _ _, rfl, rfl, State.noReset_drop ho.quiet rfl⟩,
    hl, rfl, rfl⟩

/-- The events of a run of TRANSFERs, responses included. -/
def rowsEvents (c : Config) (rows : List (Bool × Memory)) : List Event :=
  rows.flatMap fun r => rowEvents c r.2 r.1 ++ [.rsp .ok]

/-- The TRANSFERs of a frame as the host offers them. -/
def rowCommands (rows : List (Bool × Memory)) : List Command := rows.map fun r => (Instr.transfer r.1 r.2).command

/-- The row counter can count a whole frame (R10). -/
theorem Config.height_le (c : Config) : c.height ≤ 1023 := by
  obtain ⟨_, _, _, hle, _⟩ := (Params.wf_iff c.toParams).mp c.ok
  exact hle

/-- TRANSFERs offered one after another in a frame with that many rows to go. -/
theorem ran_rows {rest : List Command} : ∀ (rows : List (Bool × Memory)) {s : State}, s.busy = false → s.noReset →
    s.life = .frameActive → s.host = rowCommands rows ++ rest → (∀ r ∈ rows, r.2.fits s.cfg.width = true) →
    s.rows.toNat + rows.length ≤ s.cfg.height →
    ∃ t, s.Ran t (rowsEvents s.cfg rows) ∧ t.life = .frameActive ∧ t.rows.toNat = s.rows.toNat + rows.length ∧
      t.host = rest := by
  intro rows
  induction rows with
  | nil =>
    intro s hb hq hl hh _ _
    exact ⟨s, ⟨⟨0, rfl⟩, (List.append_nil _).symm, rfl, hb, hq⟩, hl, rfl, hh⟩
  | cons r rows ih =>
    intro s hb hq hl hh hfits hle
    have hwf : (Instr.transfer r.1 r.2).wf s.cfg.width = true := by
      simpa [Instr.wf_iff_operand_fits] using hfits r List.mem_cons_self
    rw [List.length_cons] at hle
    obtain ⟨t, hran, htl, htr, hth⟩ := ran_transfer ⟨hb, hh, hwf, hq⟩ hl (by omega)
    have hcount : t.rows.toNat = s.rows.toNat + 1 := by
      have := Config.height_le s.cfg
      rw [htr, nextRows_toNat]
      omega
    obtain ⟨u, hran', hul, hur, huh⟩ := ih hran.idle hran.quiet htl hth
      (fun r' hr' => hran.cfg ▸ hfits r' (List.mem_cons_of_mem r hr')) (by rw [hran.cfg, hcount]; omega)
    rw [hran.cfg] at hran'
    exact ⟨u, hran.trans hran', hul, by rw [hur, hcount, List.length_cons]; omega, huh⟩

/-- The events of a whole frame, responses included (R177). -/
def frameEvents (c : Config) (rows : List (Bool × Memory)) : List Event :=
  (beginEvents c ++ [.rsp .ok]) ++ rowsEvents c rows ++ (endEvents ++ [.rsp .ok])

/-- A whole frame: BEGIN, HEIGHT TRANSFERs, END. -/
theorem ran_frameEvents {s : State} {rows : List (Bool × Memory)} {rest : List Command} (hb : s.busy = false)
    (hq : s.noReset) (hl : s.life = .poweredIdle) (hlen : rows.length = s.cfg.height)
    (hfits : ∀ r ∈ rows, r.2.fits s.cfg.width = true)
    (hh : s.host = Instr.beginFrame.command :: rowCommands rows ++ Instr.endFrame.command :: rest) :
    ∃ t, s.Ran t (frameEvents s.cfg rows) ∧ t.life = .poweredIdle ∧ t.rows.toNat = s.cfg.height ∧ t.host = rest := by
  obtain ⟨t, hbegin, htl, htr, hth⟩ := ran_frame (.inl rfl) ⟨hb, hh, rfl, hq⟩ hl fun _ => rfl
  have hzero : t.rows.toNat = 0 := by rw [htr]; rfl
  obtain ⟨u, hrows, hul, hur, huh⟩ := ran_rows rows hbegin.idle hbegin.quiet htl hth
    (by rwa [hbegin.cfg]) (by rw [hbegin.cfg, hzero]; omega)
  have hcfg : u.cfg = s.cfg := hrows.cfg.trans hbegin.cfg
  have hall : u.rows.toNat = s.cfg.height := by rw [hur, hzero, hlen, Nat.zero_add]
  obtain ⟨v, hend, hvl, hvr, hvh⟩ := ran_frame (.inr rfl) ⟨hrows.idle, huh, rfl, hrows.quiet⟩ hul fun _ => by
    simp [wrongRows, hall, hcfg]
  rw [hbegin.cfg] at hrows
  exact ⟨v, (hbegin.trans hrows).trans hend, hvl, by rw [hvr]; exact hall, hvh⟩

@[simp] theorem setCount_append (p : Line) (v : Bool) (tr new : List Event) :
    setCount p v (tr ++ new) = setCount p v tr + setCount p v new := List.count_append

/-- Every row sets a level as often as every other. -/
theorem setCount_rowsEvents (c : Config) (rows : List (Bool × Memory)) (p : Line) (v : Bool) :
    setCount p v (rowsEvents c rows) =
      rows.length * (if p = .cl then c.groups + 1 else if p = .stl ∨ p = .le ∨ p = .ckv then 1 else 0) := by
  induction rows with
  | nil => simp [rowsEvents, setCount]
  | cons r rows ih =>
    have hrsp : setCount p v [.rsp .ok] = 0 := rfl
    rw [rowsEvents, List.flatMap_cons, ← rowsEvents, setCount_append, setCount_append, ih, setCount_rowEvents, hrsp,
      List.length_cons, Nat.succ_mul]
    omega

/-- A row answers nothing before its end. -/
theorem responses_rowEvents (c : Config) (buf : Memory) (erase : Bool) : responses (rowEvents c buf erase) = [] := by
  refine List.filterMap_eq_nil_iff.mpr fun e he => ?_
  obtain ⟨_, rfl⟩ | rfl | ⟨_, _, rfl, _⟩ := rowEvents_ofRow he <;> rfl

theorem responses_rowsEvents (c : Config) (rows : List (Bool × Memory)) :
    responses (rowsEvents c rows) = List.replicate rows.length .ok := by
  induction rows with
  | nil => rfl
  | cons r rows ih =>
    rw [rowsEvents, List.flatMap_cons, ← rowsEvents, responses_append, responses_append, responses_rowEvents, ih]
    rfl

/-- R178: CL and LE are pulsed by the rows only, and CKV by BEGIN too. -/
theorem setCount_frameEvents (c : Config) (rows : List (Bool × Memory)) :
    setCount .cl true (frameEvents c rows) = rows.length * (c.groups + 1) ∧
    setCount .le true (frameEvents c rows) = rows.length ∧
    setCount .ckv false (frameEvents c rows) = rows.length + 1 := by
  simp only [frameEvents, setCount_append, setCount_rowsEvents]
  refine ⟨?_, ?_, ?_⟩
  · simp [setCount, beginEvents, endEvents]
  · simp [setCount, beginEvents, endEvents]
  · simp [setCount, beginEvents, endEvents, Nat.add_comm]

/-- R177: a frame is answered by OK alone, once for each command. -/
theorem responses_frameEvents (c : Config) (rows : List (Bool × Memory)) :
    responses (frameEvents c rows) = List.replicate (rows.length + 2) .ok := by
  simp only [frameEvents, responses_append, responses_rowsEvents]
  rw [List.replicate_succ, List.replicate_succ']
  rfl

/-- Settles O57: a whole frame's events, counted. -/
theorem framePulseCounts : Obligations.FramePulseCounts := by
  intro s rows rest hb hq hl hlen hfits hh
  obtain ⟨t, ⟨⟨k, hrun⟩, htr, _, hidle, _⟩, htl, hrows, hhost⟩ := ran_frameEvents hb hq hl hlen hfits hh
  obtain ⟨hcl, hle, hckv⟩ := setCount_frameEvents s.cfg rows
  rw [hlen] at hcl hle hckv
  refine ⟨k, t, frameEvents s.cfg rows, hrun, htr, hidle, htl, hrows, hhost, ?_, hcl, hle, hckv, fun hw hh => ?_⟩
  · rw [responses_frameEvents, hlen]
  · rw [hcl, hle, hckv, hh, Config.groups_of_width_1024 hw]
    exact ⟨rfl, rfl, rfl⟩

/-! ## Every command responds -/

/-- From `s` the block responds once, within `n` steps; a poll of a write that is not done is no step of the block
(R146, R215), and there are `u` of them. -/
def State.RespondsWithin (n : Nat) (s : State) : Prop :=
  ∃ k t new u, run k s = .next t ∧ t.trace = s.trace ++ new ∧ t.busy = false ∧ responses new = [t.status] ∧
    t.draws = s.draws + (twWrites new).length + u ∧ u ≤ s.twIn.count none ∧ k ≤ n + u

theorem State.RespondsWithin.mono {s : State} {n m : Nat} (h : s.RespondsWithin n) (hle : n ≤ m) :
    s.RespondsWithin m := by
  obtain ⟨k, t, new, u, hrun, htr, hidle, hresp, hd, hu, hk⟩ := h
  exact ⟨k, t, new, u, hrun, htr, hidle, hresp, hd, hu, by omega⟩

/-- The step that ends the command responds (R84). -/
theorem State.respondsWithin_of_end {s t : State} (h : step s = .next t) (hr : s.rst = false)
    (hb : s.busy = true) (hidle : t.busy = false) (hd : t.draws = s.draws) : s.RespondsWithin 1 := by
  obtain ⟨htr, _⟩ := (oneResponsePerCommand s t hr h).1 hb hidle
  exact ⟨1, t, [.rsp t.status], 0, run_succ h 0, htr, hidle, rfl, hd, Nat.zero_le _, by omega⟩

@[simp] theorem twWrites_append (tr new : List Event) : twWrites (tr ++ new) = twWrites tr ++ twWrites new :=
  List.filterMap_append

/-- A step that makes an event and goes on counts as one; it polls the master if the event is a write. -/
theorem State.RespondsWithin.of_event {s t : State} {n : Nat} {e : Event} (ht : t.RespondsWithin n)
    (h : step s = .next t) (hr : s.rst = false) (hb : t.busy = true) (htr : t.trace = s.trace ++ [e])
    (hd : t.draws = s.draws + (twWrites [e]).length) (hc : t.twIn.count none = s.twIn.count none) :
    s.RespondsWithin (n + 1) := by
  have hresp : responses [e] = [] := by
    simpa [htr] using ((oneResponsePerCommand s t hr h).2 (.inr hb)).2
  obtain ⟨k, v, new, u, hrun, htr', hidle, hresp', hd', hu, hk⟩ := ht
  refine ⟨k + 1, v, [e] ++ new, u, (run_succ h k).trans hrun, by rw [htr', htr, List.append_assoc], hidle, ?_, ?_,
    hc ▸ hu, by omega⟩
  · rw [responses_append, hresp, hresp', List.nil_append]
  · rw [twWrites_append, List.length_append]
    omega

/-- A poll is not counted: the reports to come have one less that is not done. -/
theorem State.RespondsWithin.of_poll {s t : State} {n : Nat} (ht : t.RespondsWithin n) (h : step s = .next t)
    (htr : t.trace = s.trace) (hd : t.draws = s.draws + 1) (hc : s.twIn.count none = t.twIn.count none + 1) :
    s.RespondsWithin n := by
  obtain ⟨k, v, new, u, hrun, htr', hidle, hresp, hd', hu, hk⟩ := ht
  exact ⟨k + 1, v, new, u + 1, (run_succ h k).trans hrun, by rw [htr', htr], hidle, hresp, by omega, by omega,
    by omega⟩

/-- How many writes of command `i` come at seq `n` or later. -/
def writesLeft (i : Instr) (n : Nat) : Nat := (writesOf .ack .ack .ack i).countP fun w => decide (n ≤ w.1)

theorem writesLeft_le_three (i : Instr) (n : Nat) : writesLeft i n ≤ 3 := by
  refine List.countP_le_length.trans ?_
  cases i <;> simp [writesOf]

theorem writesLeft_succ_le (i : Instr) (n : Nat) : writesLeft i (n + 1) ≤ writesLeft i n :=
  List.countP_mono_left fun w _ h => by simp only [decide_eq_true_eq] at h ⊢; omega

/-- A write is not left once it is made. -/
theorem writesLeft_of_write {c : Config} {x y z : Ack} {i : Instr} {n : Nat} {r v : Byte} {k : Ack}
    (h : (microEvents c x y z i)[n]? = some (.tw r v k)) : writesLeft i n = writesLeft i (n + 1) + 1 := by
  rcases seq_of_mem_writesOf (microEvents_tw h).2 with ⟨rfl, rfl | rfl | rfl⟩ | ⟨rfl, rfl | rfl | rfl⟩ <;> rfl

/-- The block runs command `i`, admitted, and the master will report as many writes done as the command has left. -/
structure State.UnderWay (s : State) (i : Instr) : Prop where
  inv      : s.Inv
  busy     : s.busy = true
  fetch    : s.fetch = .ok i
  quiet    : s.noReset
  admitted : refusalOf i s = none
  reports  : writesLeft i s.seq ≤ s.twIn.countP Option.isSome

theorem State.UnderWay.step_eq {s : State} {i : Instr} (h : s.UnderWay i) : step s = exec i s.clock :=
  step_busy (State.noReset_rst h.quiet) h.busy h.fetch

/-- R36: `seq` does not pass the last step of the command. -/
theorem State.UnderWay.seq_le {s : State} {i : Instr} (h : s.UnderWay i) : s.seq ≤ lastSeq s.cfg.groups i := by
  by_cases h0 : s.seq = 0
  · omega
  · obtain ⟨j, hj, hrun⟩ := h.inv.running h.busy h0
    cases h.fetch.symm.trans hj
    exact hrun.seq

/-- A step after which the block is still busy with the command. -/
theorem State.UnderWay.next {s t : State} {i : Instr} (h : s.UnderWay i) (hs : step s = .next t) (hb : t.busy = true)
    (hrst : t.rstIn = s.rstIn.tail) (h0 : t.seq ≠ 0) (hrep : writesLeft i t.seq ≤ t.twIn.countP Option.isSome) :
    t.UnderWay i where
  inv := invariantKept s t h.inv hs
  busy := hb
  fetch := by rw [State.fetch, (step_busy_command h.busy hs).2 hb]; exact h.fetch
  quiet := fun b hb => h.quiet b (List.mem_of_mem_tail (hrst ▸ hb))
  admitted := refusalOf_later h0
  reports := hrep

/-- R146: while a report of done is to come, the next one is listed: done, or not done. -/
theorem State.twReport_cases {s : State} (h : 0 < s.twIn.countP Option.isSome) :
    (∃ k, s.twReport = some k ∧ s.twIn.countP Option.isSome = s.twIn.tail.countP Option.isSome + 1 ∧
      s.twIn.tail.count none = s.twIn.count none) ∨
    (s.twReport = none ∧ s.twIn.tail.countP Option.isSome = s.twIn.countP Option.isSome ∧
      s.twIn.count none = s.twIn.tail.count none + 1) := by
  unfold State.twReport
  cases htw : s.twIn with
  | nil => simp [htw] at h
  | cons r tw => cases r <;> simp

@[simp] theorem State.afterStep_trace (i : Instr) (e : Event) (s : State) :
    (s.afterStep i e).trace = s.trace ++ [e] := by
  cases i <;> rfl

@[simp] theorem State.afterStep_rstIn (i : Instr) (e : Event) (s : State) : (s.afterStep i e).rstIn = s.rstIn := by
  cases i <;> rfl

/-- A write takes up a report of the master, and no other event does. -/
theorem State.afterStep_master {x y z : Ack} {i : Instr} {s : State} {e : Event}
    (he : (microEvents s.cfg x y z i)[s.seq]? = some e) :
    (s.afterStep i e).twIn = (if e.isWrite then s.twIn.tail else s.twIn) ∧
      (s.afterStep i e).draws = s.draws + (twWrites [e]).length := by
  cases hw : e.isWrite with
  | true =>
    obtain ⟨r, v, k, rfl⟩ := Event.isWrite_iff.mp hw
    rw [State.afterStep, if_pos (isPower_of_mem_writesOf (microEvents_tw he).2)]
    exact ⟨rfl, rfl⟩
  | false =>
    have hnone : twWrites [e] = [] := by
      cases e with
      | tw => cases hw
      | cfg | cfgData | set | data | wait | rsp => rfl
    cases i <;> simp [State.afterStep, isPower, State.afterEvent, hw, hnone]

/-- What the next step of an admitted command does: it ends the command, makes an event, or polls the master. -/
def State.Progress (s : State) (i : Instr) : Prop :=
  (∃ t, step s = .next t ∧ t.busy = false ∧ t.draws = s.draws) ∨
  (∃ t e, step s = .next t ∧ t.UnderWay i ∧ t.trace = s.trace ++ [e] ∧ t.seq = s.seq + 1 ∧
    t.draws = s.draws + (twWrites [e]).length ∧ t.twIn.count none = s.twIn.count none) ∨
  (step s = .next s.clock.poll ∧ s.clock.poll.UnderWay i ∧ s.twIn.count none = s.twIn.tail.count none + 1)

/-- R148: on ENABLE's abort path. -/
theorem State.UnderWay.progress_aborting {s : State} {i : Instr} (h : s.UnderWay i) (hab : s.aborting i) :
    s.Progress i := by
  have hs := h.step_eq.trans (exec_aborting (s := s.clock) hab)
  split at hs
  · have hrep := (writesLeft_succ_le i s.seq).trans h.reports
    exact .inr (.inl ⟨_, _, hs, h.next hs h.busy rfl (Nat.succ_ne_zero _) hrep, rfl, rfl, rfl, rfl⟩)
  · exact .inl ⟨_, hs, rfl, rfl⟩

/-- A step that makes an event of the micro-program goes on. -/
theorem State.UnderWay.progress_of_event {s : State} {i : Instr} {k : Ack} {e : Event} (h : s.UnderWay i)
    (hab : ¬ s.aborting i) (he : (microEvents s.cfg k k k i)[s.seq]? = some e) (hdone : s.reports e)
    (hleft : writesLeft i (s.seq + 1) ≤ (if e.isWrite then s.twIn.tail else s.twIn).countP Option.isSome)
    (hcount : (if e.isWrite then s.twIn.tail else s.twIn).count none = s.twIn.count none) : s.Progress i := by
  have hs := h.step_eq.trans (exec_event (s := s.clock) ((refusalOf_clock i s).trans h.admitted) hab he hdone)
  obtain ⟨htw, hdraws⟩ := State.afterStep_master (s := s.clock) he
  rw [State.clock_twIn] at htw
  exact .inr (.inl ⟨_, e, hs, h.next hs (by simpa using h.busy) (by simp) (by simp) (by simpa [htw] using hleft),
    by simp, by simp, hdraws, by rw [htw, hcount]⟩)

/-- R146: a write is one of those the command has left, so the master's next report is listed: done or not done. -/
theorem State.UnderWay.progress {s : State} {i : Instr} (h : s.UnderWay i) : s.Progress i := by
  have hleft := h.reports
  by_cases hab : s.aborting i
  · exact h.progress_aborting hab
  by_cases hlast : s.seq = lastSeq s.cfg.groups i
  · exact .inl ⟨_, h.step_eq.trans (exec_last (s := s.clock) hlast), rfl, rfl⟩
  obtain ⟨a, ha⟩ : ∃ a, s.twReport.getD .ack = a := ⟨_, rfl⟩
  obtain ⟨e, he⟩ : ∃ e, (microEvents s.cfg a a a i)[s.seq]? = some e :=
    ⟨_, List.getElem?_eq_getElem (by rw [microEvents_length]; exact lt_of_le_of_ne h.seq_le hlast)⟩
  cases hw : e.isWrite with
  | false =>
    refine h.progress_of_event hab he ?_ ?_ ?_
    · rintro r v k rfl
      cases hw
    · simpa [hw] using (writesLeft_succ_le i s.seq).trans hleft
    · simp [hw]
  | true =>
    obtain ⟨r, v, k, rfl⟩ := Event.isWrite_iff.mp hw
    obtain rfl : k = a := ack_of_mem_writesOf (microEvents_tw he).2
    rw [writesLeft_of_write he] at hleft
    rcases State.twReport_cases (s := s) (by omega) with ⟨_, hk, hdone, hcount⟩ | ⟨hnone, hdone, hcount⟩
    · refine h.progress_of_event hab he ?_ ?_ ?_
      · rintro _ _ _ ⟨⟩
        simp [← ha, hk]
      · simpa [hw] using by omega
      · simpa [hw] using hcount
    · have hs := h.step_eq.trans (exec_waiting (s := s.clock) hab he hnone)
      have h0 : s.seq ≠ 0 := ne_zero_of_mem_writesOf (microEvents_tw he).2
      exact .inr (.inr ⟨hs, h.next hs h.busy rfl h0 (hdone ▸ h.reports), hcount⟩)

/-- An admitted command responds within the steps it has left: every step but a poll is one of them, and a poll uses up
a report that is not done. -/
theorem State.UnderWay.respondsWithin {i : Instr} (m : Nat) : ∀ {s : State}, s.UnderWay i →
    lastSeq s.cfg.groups i - s.seq + s.twIn.count none = m →
    s.RespondsWithin (lastSeq s.cfg.groups i - s.seq + 1) := by
  induction m using Nat.strong_induction_on with
  | _ m ih =>
    intro s h hm
    have hr := State.noReset_rst h.quiet
    rcases h.progress with ⟨t, hs, hidle, hd⟩ | ⟨t, e, hs, ht, htr, hq, hd, hcount⟩ | ⟨hs, ht, hcount⟩
    · exact (State.respondsWithin_of_end hs hr h.busy hidle hd).mono (by omega)
    · have hle := ht.seq_le
      have hcfg := configReadOnly s t hs
      have hrest := ih _ (by rw [← hm, hq, hcount, hcfg]; rw [hq, hcfg] at hle; omega) ht rfl
      rw [hq, hcfg] at hle hrest
      rw [show lastSeq s.cfg.groups i - s.seq = lastSeq s.cfg.groups i - (s.seq + 1) + 1 by omega]
      exact hrest.of_event hs hr ht.busy htr hd hcount
    · exact (ih _ (by simp; omega) ht rfl).of_poll hs rfl rfl hcount

/-- The length of the longest micro-program is TRANSFER's, or ENABLE's on a narrow panel (R215). -/
theorem lastSeq_succ_le_max (g : Nat) (i : Instr) : lastSeq g i + 1 ≤ max 17 (3 * g + 10) := by
  cases i <;> simp only [lastSeq] <;> omega

/-- An accepted command responds: at once if its byte is illegal or the guard refuses it, else at its end. -/
theorem State.Inv.respondsWithin {s : State} (hinv : s.Inv) (hb : s.busy = true) (h0 : s.seq = 0) (hq : s.noReset)
    (htw : 3 ≤ s.twIn.countP Option.isSome) : s.RespondsWithin (max 17 (3 * s.cfg.groups + 10)) := by
  have hr := State.noReset_rst hq
  cases hf : s.fetch with
  | error e => exact (State.respondsWithin_of_end (step_illegal hr hb hf) hr hb rfl rfl).mono (by omega)
  | ok i =>
    cases hadm : refusalOf i s with
    | some st =>
      have hs : step s = .next (s.clock.respond st) := by
        rw [step_busy hr hb hf, exec_eq, runCommand_refused (by simpa using hadm)]
      exact (State.respondsWithin_of_end hs hr hb rfl rfl).mono (by omega)
    | none =>
      have h : s.UnderWay i := ⟨hinv, hb, hf, hq, hadm, (writesLeft_le_three i s.seq).trans htw⟩
      have hresp := h.respondsWithin _ rfl
      rw [h0] at hresp
      exact hresp.mono (lastSeq_succ_le_max s.cfg.groups i)

/-- Settles O56: what `RespondsWithin` says, with the status named. -/
theorem everyCommandResponds : Obligations.EveryCommandResponds := by
  intro s hinv hb h0 hq htw
  obtain ⟨k, t, new, u, hrun, htr, hidle, hresp, hd, hu, hk⟩ := hinv.respondsWithin hb h0 hq htw
  exact ⟨k, t, new, t.status, u, hrun, htr, hidle, rfl, hresp, hd, hu, hk⟩

end Sys2Proof.Machine
end

