-- ==== Sys2Proof/Proofs/Exceptions.lean ====
section
/-! PROOFS. The statements of spec/60_exceptions.md: no step stops (R203), refusals are precise (R201), every response
falls into one class (R200 to R202), and `Faulted` absorbs (R207).  They rest on `exec_ends`: how a command can end. -/

namespace Sys2Proof.Machine

/-! ## How a command ends -/

/-- A step that ends a command is the guard's refusal, the response of ENABLE's abort path, or the completion step. -/
theorem exec_ends {i : Instr} {s t : State} (h : exec i s = .next t) (hb : s.busy = true) (hidle : t.busy = false) :
    (∃ st, refusalOf i s = some st ∧ t = s.answered st) ∨
    (s.aborting i ∧ t = { s.answered .busTransactionFailure with life := .faulted }) ∨
    (s.seq = lastSeq s.cfg.groups i ∧ t = s.completed i) := by
  rcases exec_cases h with
    ⟨st, hq, rfl⟩ | ⟨_, _, _, _, _, _, rfl⟩ | ⟨_, _, _, _, rfl⟩ | ⟨_, _, rfl⟩ | ⟨hab, _, rfl⟩ | ⟨hq, rfl⟩
  · exact .inl ⟨st, hq, rfl⟩
  -- an event, a poll and the lowering of WAKEUP leave the block busy
  · simp [hb] at hidle
  · simp [hb] at hidle
  · exact absurd (hb.symm.trans hidle) (by simp)
  · exact .inr (.inl ⟨hab, rfl⟩)
  · exact .inr (.inr ⟨hq, rfl⟩)

/-- R151, R202: a completion step responds `OK` and does not enter `Faulted`, or responds to a fatal NACK there. -/
theorem completion_cases (i : Instr) (s : State) :
    (statusAtEnd i s = .ok ∧ (s.life ≠ .faulted → lifeAtEnd i s ≠ .faulted)) ∨
    (statusAtEnd i s = .busTransactionFailure ∧ lifeAtEnd i s = .faulted ∧ s.nackFatal = true) := by
  cases i with
  | enable | beginFrame | endFrame => exact .inl ⟨rfl, by simp [lifeAtEnd]⟩
  | xfer buf | xferE buf => exact .inl ⟨rfl, id⟩
  | disable => cases hf : s.nackFatal <;> simp [statusAtEnd, lifeAtEnd, hf]

/-- Settles O16, by how a command ends: only the refusal is at seq 0. -/
theorem refusalsArePrecise : Obligations.RefusalsArePrecise := by
  intro i s t hb h hidle
  rcases exec_ends h hb hidle with ⟨st, hq, rfl⟩ | ⟨hab, rfl⟩ | ⟨hq, rfl⟩
  · obtain ⟨h0, hst⟩ := refusalOf_some hq
    exact ⟨fun _ => ⟨rfl, hst⟩, fun hn => absurd h0 hn⟩
  · exact ⟨fun h0 => absurd h0 hab.seq_ne_zero, fun _ => .inr rfl⟩
  · exact ⟨fun h0 => absurd h0 (State.seq_ne_zero_of_last hq),
      fun _ => (completion_cases i s).imp And.left And.left⟩

/-! ## No step stops -/

/-- A micro-program has a step at every seq up to its completion step. -/
theorem actionOf_exists {i : Instr} {s : State} (hq : s.seq ≤ lastSeq s.cfg.groups i) :
    ∃ a, actionOf i s = .ok a := by
  by_cases hab : s.aborting i
  · exact ⟨_, actionOf_aborting hab⟩
  · rw [actionOf_readsOff hab .ack .ack .ack]
    cases he : (microEvents s.cfg .ack .ack .ack i)[s.seq]? with
    | some e => exact ⟨_, rfl⟩
    | none =>
      have hlast : s.seq = (microEvents s.cfg .ack .ack .ack i).length := by
        have hge := List.getElem?_eq_none_iff.mp he
        rw [microEvents_length] at hge ⊢
        omega
      exact ⟨_, if_pos hlast⟩

/-- A step of a command stops the machine only beyond its micro-program. -/
theorem exec_exists {i : Instr} {s : State} (hq : s.seq ≤ lastSeq s.cfg.groups i) : ∃ t, exec i s = .next t := by
  obtain ⟨a, ha⟩ := actionOf_exists hq
  rw [exec_eq, ha]
  cases hr : refusalOf i s with
  | some st => exact ⟨_, runCommand_refused hr⟩
  | none =>
    rw [runCommand_admitted hr]
    exact perform_next a s

/-- R36: `seq` does not pass the completion step of the command that runs. -/
theorem State.Inv.seq_le {s : State} {i : Instr} (hinv : s.Inv) (hb : s.busy = true) (hf : s.fetch = .ok i) :
    s.seq ≤ lastSeq s.cfg.groups i := by
  by_cases h0 : s.seq = 0
  · omega
  · obtain ⟨j, hj, hrun⟩ := hinv.running hb h0
    cases hf.symm.trans hj
    exact hrun.seq

/-- Settles O43, by the cases of R170: an offered operand is a scanline, and the command that runs is within its
micro-program. -/
theorem noStepStops : Obligations.NoStepStops := by
  intro s hinv
  cases hr : s.rst with
  | true => exact ⟨_, step_reset hr⟩
  | false =>
    cases hb : s.busy with
    | false =>
      cases hh : s.host with
      | nil => exact ⟨_, step_idle hr hb hh⟩
      | cons c rest => exact ⟨_, step_accept hr hb hh (hinv.offers c (by simp [hh]))⟩
    | true =>
      cases hf : s.fetch with
      | error e => exact ⟨_, step_illegal hr hb hf⟩
      | ok i =>
        rw [step_busy hr hb hf]
        exact exec_exists (hinv.clock.seq_le hb hf)

/-! ## Faulted -/

/-- R172: no command is past its first step in `Faulted`. -/
theorem State.Inv.life_ne_faulted {s : State} (hinv : s.Inv) (hb : s.busy = true) (h0 : s.seq ≠ 0) :
    s.life ≠ .faulted := by
  obtain ⟨i, _, hrun⟩ := hinv.running hb h0
  rw [hrun.life]
  cases i <;> simp [midLife]

/-- R207: in `Faulted` the lines are those between commands. -/
theorem State.Inv.faulted_lines {s : State} (hinv : s.Inv) (hl : s.life = .faulted) :
    s.released ∧ s.lines.wakeup = { dir := .output, level := false } := by
  have hrest : s.restOk := hinv.rest (by
    by_contra hn
    obtain ⟨hb, h0⟩ := not_or.mp hn
    exact hinv.life_ne_faulted (by simpa using hb) h0 hl)
  unfold State.restOk at hrest
  rw [hl] at hrest
  exact ⟨hrest.1, Pad.drive_eq_some.mp hrest.2⟩

/-- R171, R207: no command is admitted in `Faulted`. -/
theorem exec_faulted {i : Instr} {s : State} (h0 : s.seq = 0) (hl : s.life = .faulted) :
    exec i s = .next (s.answered .protocolViolation) := by
  have hne : s.life ≠ neededLife i := by
    rw [hl]
    cases i <;> simp [neededLife]
  obtain ⟨_, hrefuses, _⟩ := guardDecides
  exact hrefuses i s .protocolViolation h0 (guardTable_of_life_ne hne _ _ _)

/-- R207: a step without reset stays in `Faulted`, changes no line, and answers what was accepted. -/
theorem State.Inv.step_faulted {s t : State} (hinv : s.Inv) (hl : s.life = .faulted) (hr : s.rst = false)
    (h : step s = .next t) : t.life = .faulted ∧ t.lines = s.lines ∧ t.bus = s.bus ∧
      (s.busy = true → ∀ i, s.fetch = .ok i → t.trace = s.trace ++ [.rsp .protocolViolation]) ∧
      (s.busy = true → ∀ e, s.fetch = .error e → t.trace = s.trace ++ [.rsp .illegalCommand]) := by
  rcases step_next h with
    ⟨hrst, _⟩ | ⟨_, hb, _, rfl⟩ | ⟨_, _, _, hb, _, _, rfl⟩ | ⟨e, _, hb, hf, rfl⟩ | ⟨i, _, hb, hf, he⟩
  · simp [hr] at hrst
  · simp [hl, hb]
  · simp [hl, hb]
  · simp [hl, hf]
  · have h0 : s.seq = 0 := by
      by_contra h0
      exact hinv.life_ne_faulted hb h0 hl
    rw [exec_faulted (s := s.clock) h0 hl] at he
    cases he
    simp [State.answered, hl, hf]

/-- Settles O48: the lines by the invariant, the step without reset by the cases of R170. -/
theorem faultedAbsorbs : Obligations.FaultedAbsorbs := by
  intro s hinv hl
  obtain ⟨hreleased, hwakeup⟩ := hinv.faulted_lines hl
  refine ⟨hreleased.dir.1, hreleased.dir.2, hwakeup, fun hr => ?_, fun hr => ⟨_, step_reset hr, rfl⟩⟩
  obtain ⟨t, ht⟩ := noStepStops s hinv
  exact ⟨t, ht, hinv.step_faulted hl hr ht⟩

/-! ## Outcomes -/

/-- R86: a command with an illegal byte is answered at its first step. -/
theorem State.Inv.seq_of_illegal {s : State} {e : DecodeError} (hinv : s.Inv) (hb : s.busy = true)
    (hf : s.fetch = .error e) : s.seq = 0 := by
  by_contra h0
  obtain ⟨i, hi, _⟩ := hinv.running hb h0
  cases hf.symm.trans hi

/-- Settles O49: an illegal byte is refused, and a legal command by how it ends. -/
theorem outcomesAreClassified : Obligations.OutcomesAreClassified := by
  intro s t hinv hr h hb hidle
  cases hf : s.fetch with
  | error e =>
    rw [step_illegal hr hb hf] at h
    cases h
    exact .inr (.inl ⟨rfl, hinv.seq_of_illegal hb hf, rfl, rfl, rfl, rfl, rfl⟩)
  | ok i =>
    rw [step_busy hr hb hf] at h
    rcases exec_ends h hb hidle with ⟨st, hq, rfl⟩ | ⟨hab, rfl⟩ | ⟨hq, rfl⟩
    · obtain ⟨h0, rfl | rfl⟩ := refusalOf_some hq
      · exact .inr (.inl ⟨rfl, h0, rfl, rfl, rfl, rfl, rfl⟩)
      · exact .inr (.inl ⟨rfl, h0, rfl, rfl, rfl, rfl, rfl⟩)
    · obtain ⟨_, hfatal, _⟩ := hab
      obtain ⟨hnack, hpolicy⟩ := State.nackFatal_iff.mp hfatal
      exact .inr (.inr ⟨rfl, rfl, rfl, hnack, hpolicy⟩)
    · rcases completion_cases i s.clock with ⟨hst, hlife⟩ | ⟨hst, hlife, hfatal⟩
      · have hl := hlife (hinv.clock.life_ne_faulted hb (State.seq_ne_zero_of_last hq))
        exact .inl ⟨congrArg Status.outcome hst, hst, hl⟩
      · obtain ⟨hnack, hpolicy⟩ := State.nackFatal_iff.mp hfatal
        exact .inr (.inr ⟨congrArg Status.outcome hst, hst, hlife, hnack, hpolicy⟩)

end Sys2Proof.Machine
end

