-- ==== Sys2Proof/Proofs/ResetAndHazards.lean ====
section
/-! PROOFS. The statements of spec/70_reset_and_hazards.md: what a reset leaves (R230), that the block then accepts a
command (R231), and what a reset without hazard finds on the lines (R232, R243). -/

namespace Sys2Proof.Machine

/-! ## Reset -/

/-- R47: at reset every discrete line is high impedance. -/
theorem Lines.reset_dir (p : Line) : (Lines.reset.get p).dir = .input :=
  congrArg Pad.dir (Lines.get_reset p)

/-- Settles O8: reset comes before every other case of R170, and leaves `takeReset`. -/
theorem resetAnywhere : Obligations.ResetAnywhere := by
  intro s hr
  exact ⟨_, step_reset hr, rfl, rfl, rfl, rfl, rfl, rfl, Lines.reset_dir, rfl, rfl, rfl, rfl, rfl, rfl⟩

/-- Settles O9: the state after reset is idle, so that its step is acceptance. -/
theorem resetValues : Obligations.ResetValues := by
  refine ⟨rfl, rfl, rfl, Lines.reset_dir, rfl, fun c rest hw => ?_⟩
  have haccept := step_accept (s := { State.reset with host := c :: rest }) rfl rfl rfl hw
  exact ⟨_, haccept, rfl, rfl, rfl⟩

/-! ## Reset without hazard -/

/-- R243: a reset is no hazard when the block is idle in `Unpowered` or `Faulted`. -/
theorem State.resetHazard_eq_false {s : State} :
    s.resetHazard = false ↔ s.busy = false ∧ (s.life = .unpowered ∨ s.life = .faulted) := by
  simp [State.resetHazard, or_iff_not_imp_left]

/-- R48, R207: an idle block in `Unpowered` or `Faulted` has released the bus and does not hold WAKEUP at 1. -/
theorem State.Inv.released_of_idle {s : State} (hinv : s.Inv) (hb : s.busy = false)
    (hl : s.life = .unpowered ∨ s.life = .faulted) :
    s.released ∧ (s.lines.wakeup.dir = .input ∨ s.lines.wakeup = { dir := .output, level := false }) := by
  rcases hl with hoff | hfaulted
  · obtain ⟨_, _, _, hlines⟩ := (hinv.rest (.inl hb)).levels
    exact hlines hoff
  · exact (hinv.faulted_lines hfaulted).imp id Or.inr

/-- Settles O50: WAKEUP at 1 is neither of the two ways the block leaves it there. -/
theorem resetWithoutHazard : Obligations.ResetWithoutHazard := by
  intro s hinv hhazard
  obtain ⟨hb, hl⟩ := State.resetHazard_eq_false.mp hhazard
  obtain ⟨hreleased, hwakeup⟩ := hinv.released_of_idle hb hl
  refine ⟨hb, hreleased.dir.1, hreleased.dir.2, fun hhigh => ?_⟩
  simp [hhigh] at hwakeup

end Sys2Proof.Machine
end
